-- ==== Sys2Proof/Word.lean ====
section
/-! DEFINITION. The widths of the block: bytes, 32-bit words and bit sequences
(spec/00_scope.md R9, R11, R12). -/

namespace Sys2Proof

/-- A byte, a symbol or an 8-bit register field (R9: symbol width 8 bits). -/
abbrev Byte := BitVec 8

/-- A register of the 32-bit register target, or a histogram counter (R9). -/
abbrev Word := BitVec 32

/-- A bit sequence, first bit first (R11): `false` is the bit 0, `true` the bit 1. -/
abbrev Bits := List Bool

end Sys2Proof
end

