-- ==== Sys2Proof/Config.lean ====
section
/-! DEFINITION. What one implementation of the block fixes (the OPEN parameters of
spec/00_scope.md R9), and the values the spec leaves free. -/

namespace Sys2Proof

/-- The OPEN parameters of R9. They are fixed for one machine: no step changes them. -/
structure Config where
  /-- `DMEM_AW`: the data memory has `2 ^ dmemAw` bytes; 8 to 32 (R9, D3). -/
  dmemAw : Nat
  /-- `REG_BASE`: the system address of the register target; no rule depends on it (R80). -/
  regBase : Nat
  /-- `DMEM_BASE`: the system address of the data memory; no rule depends on it (R80). -/
  dmemBase : Nat
  deriving DecidableEq, Repr

/-- FREE VALUE (R392, log 2): the byte that data-memory address `a` holds after reset number `draw`,
until something writes it.  It has no body, so nothing can be proved of it. -/
opaque Config.dmemPowerOn (draw a : Nat) : Byte

/-- FREE VALUE (log 4): what ERRINFO holds when an error's information is `n` and `n` does not fit
its 32 bits; the spec states no result there. -/
opaque Config.errInfoUnfit (n : Nat) : Word

end Sys2Proof
end

