-- ==== Sys2Proof/Syntax.lean ====
section
/-! DEFINITION. The commands of the block: one constructor per row of spec/opcode_table.json
(spec/30_encoding.md R111).  A command word holds no register number and no immediate (R110): the
operands are the argument registers SRC, SLEN, DST, DCAP and CNT (R115), so no constructor has a field. -/

namespace Sys2Proof

/-- The 13 command words of R111 and R112. -/
inductive Instr where
  | nop | histClear | histAcc | build | genCodes | serialize | deserialize
  | pack | unpack | optimize
  /-- COMPRESS with O = 0. -/
  | compress
  /-- COMPRESS.O: COMPRESS with O = 1. -/
  | compressO
  | decompress
  deriving DecidableEq, Repr

end Sys2Proof
end

