-- ==== Sys2Proof/WellFormed.lean ====
section
/-! DEFINITION. Well-formedness of what comes from outside the block: command words
(spec/30_encoding.md R112), instructions and the OPEN parameters (spec/00_scope.md R9).
The checks are written on numbers, apart from the decoder's bit fields, so that
"the decoder accepts exactly the legal words" is a statement about two definitions. -/

namespace Sys2Proof

namespace WellFormed

/-- R112: `word[31:9] = 0`. -/
def reservedZero (w : Word) : Bool := w.toNat < 2 ^ 9

/-- R112: `word[7:0] <= 0x0B`. -/
def opcodeDefined (w : Word) : Bool := w.toNat % 2 ^ 8 ≤ 0x0B

/-- R112: `word[8] = 0` or `word[7:0] = 0x0A`. -/
def flagAllowed (w : Word) : Bool := w.toNat / 2 ^ 8 % 2 = 0 ∨ w.toNat % 2 ^ 8 = 0x0A

/-- R112: the word is one of the 13 legal command words. -/
def legalWord (w : Word) : Bool := reservedZero w && opcodeDefined w && flagAllowed w

end WellFormed

/-- An instruction has no operand field (R110), so every term of `Instr` is well formed: there is no
form of it that the block could refuse.  What can be ill formed is the command word (`legalWord`). -/
def Instr.wellFormed : Instr → Bool
  | .nop | .histClear | .histAcc | .build | .genCodes | .serialize | .deserialize
  | .pack | .unpack | .optimize | .compress | .compressO | .decompress => true

/-- R9: `8 <= DMEM_AW <= 32`. -/
def Config.wellFormed (c : Config) : Bool := 8 ≤ c.dmemAw ∧ c.dmemAw ≤ 32

end Sys2Proof
end

