-- ==== Sys2Proof/Decode.lean ====
section
/-! DEFINITION. Command words: the fields, the decoder (total on every 32-bit word, rejecting by name),
the encoder and the opcode table (spec/30_encoding.md R110 to R114, R117).  A command is one 32-bit word
that the host writes to CMD: the block fetches nothing from memory (R98), so the decoder's input is the
word itself and no byte order enters. -/

namespace Sys2Proof

/-- Why a word is no legal command (R113, R114). -/
inductive DecodeError where
  /-- A bit of RSV, `word[31:9]`, is set (R113). -/
  | reservedBits
  /-- O = 1 with an operation code other than 0x0A (R113). -/
  | optimizeFlag
  /-- The operation code is 0x0C to 0xFF (R114). -/
  | reservedOpcode
  deriving DecidableEq, Repr

/-- R110: OPC, `word[7:0]`. -/
def opcField (w : Word) : Byte := w.extractLsb' 0 8

/-- R110: O, `word[8]`. -/
def oField (w : Word) : Bool := w.getLsbD 8

/-- R110: RSV, `word[31:9]`. -/
def rsvField (w : Word) : BitVec 23 := w.extractLsb' 9 23

/-- R111: the command an operation code selects when O = 0. -/
def instrOfOpcode (opc : Byte) : Option Instr :=
  match opc.toNat with
  | 0x00 => some .nop
  | 0x01 => some .histClear
  | 0x02 => some .histAcc
  | 0x03 => some .build
  | 0x04 => some .genCodes
  | 0x05 => some .serialize
  | 0x06 => some .deserialize
  | 0x07 => some .pack
  | 0x08 => some .unpack
  | 0x09 => some .optimize
  | 0x0A => some .compress
  | 0x0B => some .decompress
  | _ => none

/-- R112: the decoder.  A rejected word is accepted at issue all the same and completes with
ILLEGAL_CMD (R113): the name of the rejection is for the reader, the block reports the word only. -/
def decode (w : Word) : Except DecodeError Instr :=
  if rsvField w ≠ 0 then .error .reservedBits
  else if oField w then
    if opcField w = 0x0A then .ok .compressO else .error .optimizeFlag
  else
    match instrOfOpcode (opcField w) with
    | some i => .ok i
    | none => .error .reservedOpcode

/-- R111: the operation code of a command. -/
def opcodeOf : Instr → Byte
  | .nop => 0x00
  | .histClear => 0x01
  | .histAcc => 0x02
  | .build => 0x03
  | .genCodes => 0x04
  | .serialize => 0x05
  | .deserialize => 0x06
  | .pack => 0x07
  | .unpack => 0x08
  | .optimize => 0x09
  | .compress | .compressO => 0x0A
  | .decompress => 0x0B

/-- R110: the O flag of a command. -/
def flagOf : Instr → Bool
  | .compressO => true
  | .nop | .histClear | .histAcc | .build | .genCodes | .serialize | .deserialize
  | .pack | .unpack | .optimize | .compress | .decompress => false

/-- The word of a command, field by field (R110). -/
def encode (i : Instr) : Word := 0#23 ++ BitVec.ofBool (flagOf i) ++ opcodeOf i

/-- One row of spec/opcode_table.json. -/
structure OpcodeRow where
  mask : Word
  word : Word
  instr : Instr
  deriving DecidableEq, Repr

/-- spec/opcode_table.json, row by row, with its numbers. -/
def opcodeTable : List OpcodeRow :=
  [⟨0xFFFFFFFF, 0x00000000, .nop⟩, ⟨0xFFFFFFFF, 0x00000001, .histClear⟩,
   ⟨0xFFFFFFFF, 0x00000002, .histAcc⟩, ⟨0xFFFFFFFF, 0x00000003, .build⟩,
   ⟨0xFFFFFFFF, 0x00000004, .genCodes⟩, ⟨0xFFFFFFFF, 0x00000005, .serialize⟩,
   ⟨0xFFFFFFFF, 0x00000006, .deserialize⟩, ⟨0xFFFFFFFF, 0x00000007, .pack⟩,
   ⟨0xFFFFFFFF, 0x00000008, .unpack⟩, ⟨0xFFFFFFFF, 0x00000009, .optimize⟩,
   ⟨0xFFFFFFFF, 0x0000000A, .compress⟩, ⟨0xFFFFFFFF, 0x0000010A, .compressO⟩,
   ⟨0xFFFFFFFF, 0x0000000B, .decompress⟩]

/-- R112: a row selects a word when the word agrees with `match` under `mask`. -/
def OpcodeRow.selects (r : OpcodeRow) (w : Word) : Bool := w &&& r.mask = r.word

/-- The decoder on the number that spec/opcode_table.json gives a command: bit 0 is bit 0 of the one
command word, every bit above `nbits` is 0. -/
def decodeTableWord (nbits w : Nat) : Option Instr := (decode (BitVec.ofNat 32 (w % 2 ^ nbits))).toOption

end Sys2Proof
end

