-- ==== Sys2Proof/Machine/State.lean ====
section
/-! DEFINITION. The state of the block (spec/10_state.md), the environment's inputs that the step reads,
the reasons a step can stop, and the state after reset (spec/70_reset_and_hazards.md R391). -/

namespace Sys2Proof.Machine

/-- A node record (R120): four bytes describing one internal node. -/
structure NodeRec where
  /-- byte 0, left_is_internal: 0x00 false, 0x01 true (R121) -/
  lk : Byte
  /-- byte 1, left_value: a symbol, or a postorder number (R122) -/
  lv : Byte
  /-- byte 2, right_is_internal -/
  rk : Byte
  /-- byte 3, right_value -/
  rv : Byte
  deriving DecidableEq, Repr

/-- A tree (R15).  A working value of the commands: the tree store holds node records (R42). -/
inductive HTree where
  | leaf (sym : Byte)
  | node (l r : HTree)
  deriving DecidableEq, Repr

/-- One entry for each of the 256 symbols (R40, R46). -/
abbrev SymTable (α : Type) := Vector α 256

/-- The data memory: the bytes written since reset, by address (log 3). -/
abbrev Memory := List Host.Cell

/-- The width of a host access (R81, R84). -/
inductive Width where
  | w8 | w16 | w32
  deriving DecidableEq, Repr

/-- One operation of the HOST agent (R30), and the reset input (R390).  A read's value arrives in
`State.rdata`. -/
inductive HostOp where
  /-- a read of the register target at a byte offset -/
  | readReg (off : Byte) (w : Width)
  /-- a write of the register target at a byte offset -/
  | writeReg (off : Byte) (w : Width) (v : Word)
  /-- a read of the memory target at a byte address -/
  | readMem (a : Nat) (w : Width)
  /-- a write of the memory target at a byte address -/
  | writeMem (a : Nat) (w : Width) (v : Word)
  /-- R118 `wait`: read STATUS, again and again while BUSY = 1 -/
  | wait
  /-- the reset input is asserted (R390) -/
  | reset
  deriving DecidableEq, Repr

/-- Why a step stops with a fault.  The spec has no such case ("no behaviour of the block hangs",
93_implementation_defined.md); the one fault marks states the spec rules out. -/
inductive Fault where
  /-- Raised by GEN_CODES, UNPACK and OPTIMIZE when TREE holds a node list that is no tree's.  R43 says
  that no writer of TREE leaves such a list, so no run reaches it, and the spec gives no effect there.
  SAFE: the model stops where the spec is silent. -/
  | treeStoreInvalid
  deriving DecidableEq, Repr

/-- Why a step is refused. -/
inductive Refusal where
  /-- Raised by an arm of `exec` for an instruction without a meaning; no arm of this model does.  SAFE. -/
  | notModelled (mnemonic : String)
  deriving DecidableEq, Repr

/-- The state: every register, field and array of spec/10_state.md, then what the model adds to hold the
OPEN parameters and the environment's choices as plain data (INVENTORY.md, "State"). -/
structure State where
  /-- the OPEN parameters (R9); no step changes them -/
  cfg : Config
  /-- CTRL.IE (R34) -/
  ie : Bool
  /-- STATUS.BUSY (R35): a command is in flight (R49) -/
  busy : Bool
  /-- STATUS.DONE (R35) -/
  done : Bool
  /-- STATUS.ERR (R35) -/
  err : Bool
  /-- STATUS.ACCERR (R35) -/
  accErr : Bool
  /-- STATUS.ERRCODE (R35, R352) -/
  errCode : Byte
  /-- CMD: the last word issued (R36) -/
  cmd : Word
  /-- SRC (R37) -/
  src : Word
  /-- SLEN (R37) -/
  slen : Word
  /-- DST (R37) -/
  dst : Word
  /-- DCAP (R37) -/
  dcap : Word
  /-- CNT (R37) -/
  cnt : Word
  /-- RES0 (R38) -/
  res0 : Word
  /-- RES1 (R38) -/
  res1 : Word
  /-- RES2 (R38) -/
  res2 : Word
  /-- ERRINFO (R38) -/
  errInfo : Word
  /-- HIST: 256 counters of 32 bits (R40) -/
  hist : SymTable Word
  /-- HIST_IDX.IDX (R41) -/
  histIdx : Byte
  /-- CODE_IDX.IDX (R47) -/
  codeIdx : Byte
  /-- NODE_IDX.IDX (R45) -/
  nodeIdx : Byte
  /-- TREE: NONE, or the postorder node list of the current tree (R42) -/
  tree : Option (List NodeRec)
  /-- CODE: NONE, or a bit sequence for each symbol (R46) -/
  code : Option (SymTable Bits)
  /-- DMEM: the bytes written since reset (R48, R392) -/
  mem : Memory
  /-- MODEL'S OWN: which draw of the unspecified power-on bytes is in force (R392, log 2) -/
  draw : Nat
  /-- MODEL'S OWN: the operations the host still performs, in its program order (R30, R95, log 5) -/
  host : List HostOp
  /-- MODEL'S OWN: how many host steps may still come before the command in flight completes (R402, log 6) -/
  delay : Nat
  /-- MODEL'S OWN: the delays of the commands still to be issued, the next first (R402, log 6) -/
  delays : List Nat
  /-- MODEL'S OWN: the value the last host read returned (R82, R84, R85, log 5) -/
  rdata : Word
  deriving DecidableEq, Repr

/-- The state right after reset (R391).  `DMEM_AW` is the OPEN parameter at the value the spec's own
vectors use (log 1); nothing is listed in memory (R392); the host has no operation pending. -/
def State.reset : State where
  cfg := { dmemAw := 16, regBase := 0, dmemBase := 0 }
  ie := false
  busy := false
  done := false
  err := false
  accErr := false
  errCode := 0
  cmd := 0
  src := 0
  slen := 0
  dst := 0
  dcap := 0
  cnt := 0
  res0 := 0
  res1 := 0
  res2 := 0
  errInfo := 0
  hist := Vector.replicate 256 0
  histIdx := 0
  codeIdx := 0
  nodeIdx := 0
  tree := none
  code := none
  mem := []
  draw := 0
  host := []
  delay := 0
  delays := []
  rdata := 0

end Sys2Proof.Machine
end

