-- ==== Sys2Proof/Machine/Ops.lean ====
section
/-! DEFINITION. The operations every command is built from: data memory, symbol tables, byte and bit
lists, the errors with their codes, and the command protocol: issue, finish and raise
(spec/40_command.md R150, R157; spec/60_exceptions.md R351, R352). -/

namespace Sys2Proof.Machine

/-! ### Data memory (R48, R392) -/

/-- What an address that memory does not list holds, as data: no value, nothing has written it since
reset.  A read then takes the free value `Config.dmemPowerOn` (log 2, log 3). -/
def Memory.unlisted : Option Byte := none

/-- The canonical form of memory: addresses strictly rising, and no entry equal to what an unlisted
address holds. -/
abbrev Memory.wf (m : Memory) : Prop :=
  m.Pairwise (fun x y => x.1 < y.1) ∧ ∀ c ∈ m, some c.2 ≠ Memory.unlisted

/-- The byte written last at an address, if any was. -/
def Memory.get? : Memory → Nat → Option Byte
  | [], _ => Memory.unlisted
  | (k, v) :: rest, a => if k = a then some v else Memory.get? rest a

/-- `DMEM[a] <- b`, keeping the canonical form. -/
def Memory.set : Memory → Nat → Byte → Memory
  | [], a, b => [(a, b)]
  | (k, v) :: rest, a, b =>
    if a < k then (a, b) :: (k, v) :: rest
    else if a = k then (a, b) :: rest
    else (k, v) :: Memory.set rest a b

/-- R13 `MemWrite(a, n, l)` with `n = len(l)`: `DMEM[a+i] <- l[i]`. -/
def Memory.write : Memory → Nat → List Byte → Memory
  | m, _, [] => m
  | m, a, b :: l => Memory.write (m.set a b) (a + 1) l

/-- R9, R48: `DMEM_SIZE`. -/
def State.dmemSize (s : State) : Nat := 2 ^ s.cfg.dmemAw

/-- R13 `DMEM[a]`: what was written last, or the unspecified power-on byte (R392). -/
def State.dmem (s : State) (a : Nat) : Byte := (s.mem.get? a).getD (Config.dmemPowerOn s.draw a)

/-- R13 `MemRead(a, n)`. -/
def State.memRead (s : State) (a n : Nat) : List Byte := (List.range n).map fun i => s.dmem (a + i)

/-! ### Symbol tables (R40, R46) -/

/-- The 256 symbols in ascending order. -/
def allSymbols : List Byte := (List.range 256).map (BitVec.ofNat 8)

/-- The entry of a symbol. -/
def SymTable.at {α : Type} (t : SymTable α) (s : Byte) : α := t[s.toNat]'s.isLt

/-- The table with one entry replaced. -/
def SymTable.put {α : Type} (t : SymTable α) (s : Byte) (x : α) : SymTable α := t.set s.toNat x s.isLt

/-- The table of a function of the symbol. -/
@[irreducible] def SymTable.tabulate {α : Type} (f : Byte → α) : SymTable α :=
  ⟨(allSymbols.map f).toArray, by simp [allSymbols]⟩

/-- The symbols with their entries, in ascending order of the symbols. -/
def SymTable.entries {α : Type} (t : SymTable α) : List (Byte × α) := allSymbols.zip t.toList

/-- The table with every entry replaced by a function of the symbol and the old entry. -/
@[irreducible] def SymTable.update {α : Type} (t : SymTable α) (f : Byte → α → α) : SymTable α :=
  ⟨(t.entries.map fun e => f e.1 e.2).toArray, by simp [SymTable.entries, allSymbols]⟩

/-! ### Byte and bit lists -/

/-- R12 `ceil8(n)`: the number of bytes that hold `n` bits. -/
def ceil8 (n : Nat) : Nat := (n + 7) / 8

/-- R84, R126: the number a little-endian byte list stands for, least significant byte first. -/
def leNat : List Byte → Nat
  | [] => 0
  | b :: l => b.toNat + 2 ^ 8 * leNat l

/-- R84, R321: the `n` low bytes of a word, least significant byte first. -/
def leBytes (n : Nat) (v : Word) : List Byte := (List.range n).map fun i => v.extractLsb' (8 * i) 8

/-- The number whose `n` bits are the first `n` of the sequence, the first the most significant; a
sequence that ends early is continued with zeros (R127, R47). -/
def msbNat : Nat → Bits → Nat
  | 0, _ => 0
  | n + 1, bs => (bs.headD false).toNat * 2 ^ n + msbNat n bs.tail

/-- R88: the bits of one byte, the most significant first. -/
def bitsOfByte (b : Byte) : Bits := (List.range 8).map fun t => b.getLsbD (7 - t)

/-- R88: the bits of a byte list in stream order: bit `p` is bit `7 - (p mod 8)` of byte `p div 8`. -/
def bitsOfBytes (l : List Byte) : Bits := l.flatMap bitsOfByte

/-! ### Errors (R352) -/

/-- Which of a command's two memory ranges (R360). -/
inductive Side where
  | source | destination
  deriving DecidableEq, Repr

/-- The errors of R352 with what each reports in ERRINFO. -/
inductive CmdErr where
  | emptyInput
  | symsetMismatch (x : Nat)
  | truncatedStream (k : Nat)
  | malformedTree (i : Nat)
  | headerOverflow (n : Nat)
  | illegalCmd (w : Word)
  | range (side : Side)
  | dstFull (m : Nat)
  | overlap
  | noTree
  | noCodes
  | noCode (i : Nat)
  | histOverflow (s : Byte)
  | hdrTruncated (n : Nat)
  deriving DecidableEq, Repr

/-- R352: the code in STATUS.ERRCODE. -/
def CmdErr.code : CmdErr → Byte
  | .emptyInput => 0x01
  | .symsetMismatch _ => 0x02
  | .truncatedStream _ => 0x03
  | .malformedTree _ => 0x04
  | .headerOverflow _ => 0x05
  | .illegalCmd _ => 0x10
  | .range _ => 0x11
  | .dstFull _ => 0x12
  | .overlap => 0x13
  | .noTree => 0x14
  | .noCodes => 0x15
  | .noCode _ => 0x16
  | .histOverflow _ => 0x17
  | .hdrTruncated _ => 0x18

/-- R352: the number an error reports. -/
def CmdErr.info : CmdErr → Nat
  | .emptyInput | .overlap | .noTree | .noCodes => 0
  | .range .source => 0
  | .range .destination => 1
  | .symsetMismatch n | .truncatedStream n | .malformedTree n | .headerOverflow n
  | .dstFull n | .noCode n | .hdrTruncated n => n
  | .illegalCmd w => w.toNat
  | .histOverflow s => s.toNat

/-- R351: ERRINFO after an error.  A number that does not fit its 32 bits (DST_FULL of 2^32 bytes with
DMEM_AW = 32 is the only one) leaves a free value: the spec states none (log 4). -/
def CmdErr.infoWord (e : CmdErr) : Word :=
  if e.info < 2 ^ 32 then BitVec.ofNat 32 e.info else Config.errInfoUnfit e.info

/-! ### A command's outcome (R14, R156) -/

/-- Why a command's pseudocode ends early. -/
inductive Stop where
  /-- R13 `raise E(info)`: an outcome of the block -/
  | raised (e : CmdErr)
  /-- the model stops (see `Fault`) -/
  | faulted (f : Fault)
  deriving DecidableEq, Repr

/-- What a command that succeeds hands to `finish`: the state with its listed updates, and the three
result values (R157). -/
structure Completion where
  state : State
  r0 : Nat
  r1 : Nat
  r2 : Nat
  deriving DecidableEq, Repr

/-- A command's pseudocode, run as a function of the state. -/
abbrev Cmd (α : Type) := Except Stop α

/-- R13 `raise E(info)` inside a command. -/
def raiseErr {α : Type} (e : CmdErr) : Cmd α := .error (.raised e)

/-- `if c then raise E(info)`. -/
def raiseIf (c : Bool) (e : CmdErr) : Cmd Unit := if c then raiseErr e else .ok ()

/-- R157 `finish(r0, r1, r2)`: the end of a successful command. -/
def finish (s : State) (r0 r1 r2 : Nat) : State :=
  { s with
    res0 := BitVec.ofNat 32 r0
    res1 := BitVec.ofNat 32 r1
    res2 := BitVec.ofNat 32 r2
    errCode := 0
    done := true
    busy := false }

/-- R351 `raise E(info)`: the block's one form of exception entry (R371).  It changes ERRCODE, ERRINFO,
ERR and BUSY and nothing else; there is no mode, no saved state and no handler. -/
def raise (e : CmdErr) (s : State) : State :=
  { s with errCode := e.code, errInfo := e.infoWord, err := true, busy := false }

/-- R156: the completion step of a command ends in `finish` with the command's updates, or in `raise`
with none of them. -/
def conclude (s : State) (c : Cmd Completion) : Host.Outcome State Fault Refusal :=
  match c with
  | .ok k => .next (finish k.state k.r0 k.r1 k.r2)
  | .error (.raised e) => .next (raise e s)
  | .error (.faulted f) => .fault f

/-- R150: what the issue of the word `w` does to the registers. -/
def acceptWord (s : State) (w : Word) : State :=
  { s with
    cmd := w
    busy := true
    done := false
    err := false
    errCode := 0
    res0 := 0
    res1 := 0
    res2 := 0
    errInfo := 0 }

/-- R150: command issue.  The command's duration, which the spec leaves open (R402), is the next of the
environment's delays (log 6). -/
def issue (s : State) (w : Word) : State :=
  { acceptWord s w with delay := s.delays.headD 0, delays := s.delays.tail }

/-- R372: what the host does to leave an error: it writes 1 to STATUS.DONE, STATUS.ERR or STATUS.ACCERR.
Each of these fields whose bit is 1 in the written word is cleared, and no other field changes (R35). -/
def clearFlags (s : State) (v : Word) : State :=
  { s with
    done := s.done && !v.getLsbD 1
    err := s.err && !v.getLsbD 2
    accErr := s.accErr && !v.getLsbD 3 }

end Sys2Proof.Machine
end

