-- ==== Sys2Proof/Machine/Operands.lean ====
section
/-! DEFINITION. The operands of commands: the argument registers as natural numbers
(spec/30_encoding.md R115, R116) and the checks every command shares (spec/40_command.md R152 to R155). -/

namespace Sys2Proof.Machine

/-- R152 `InRange(a, n)`, on natural numbers, without wrap-around. -/
def State.inRange (s : State) (a n : Nat) : Bool := a + n ≤ s.dmemSize

/-- R153 `Overlap(a, n, b, m)`: the two byte ranges share a byte. -/
def overlap (a n b m : Nat) : Bool := 0 < n ∧ 0 < m ∧ a < b + m ∧ b < a + n

/-- R154 `checkSrc(n)`. -/
def checkSrc (s : State) (n : Nat) : Cmd Unit := raiseIf (!s.inRange s.src.toNat n) (.range .source)

/-- R155 `checkDst(m, src_n)`: the range, the capacity, the overlap, in this order. -/
def checkDst (s : State) (m srcN : Nat) : Cmd Unit := do
  raiseIf (!s.inRange s.dst.toNat m) (.range .destination)
  raiseIf (s.dcap.toNat < m) (.dstFull m)
  raiseIf (overlap s.src.toNat srcN s.dst.toNat m) .overlap

/-- `MemRead(SRC, SLEN)`. -/
def State.srcBytes (s : State) : List Byte := s.memRead s.src.toNat s.slen.toNat

/-- `MemWrite(DST, len(l), l)`. -/
def State.storeDst (s : State) (l : List Byte) : State := { s with mem := s.mem.write s.dst.toNat l }

/-- `if TREE = NONE then raise NO_TREE(0)`, and the node list otherwise (R363). -/
def needTree (s : State) : Cmd (List NodeRec) :=
  match s.tree with
  | none => raiseErr .noTree
  | some recs => .ok recs

/-- `if CODE = NONE then raise NO_CODES(0)`, and the code table otherwise (R364). -/
def needCodes (s : State) : Cmd (SymTable Bits) :=
  match s.code with
  | none => raiseErr .noCodes
  | some tab => .ok tab

end Sys2Proof.Machine
end

