-- ==== Sys2Proof/Machine/Histogram.lean ====
section
/-! DEFINITION. The frequency histogram accumulator: HIST_CLEAR and HIST_ACC
(spec/41_histogram.md R180 to R184). -/

namespace Sys2Proof.Machine

/-- R181: every counter zero. -/
def emptyHist : SymTable Word := SymTable.tabulate fun _ => 0

/-- R40: the present symbols of a histogram, ascending. -/
def present (h : SymTable Word) : List Byte := (h.entries.filter fun e => e.2 ≠ 0).map Prod.fst

/-- R180: `hist(S)`, the table of a byte sequence: the exact occurrence count of every symbol. -/
def histOf (data : List Byte) : SymTable Word := SymTable.tabulate fun s => BitVec.ofNat 32 (data.count s)

/-- R182: the least symbol whose counter would pass 2^32 - 1. -/
def firstOverflow (h : SymTable Word) (data : List Byte) : Option Byte :=
  (h.entries.find? fun e => e.2.toNat + data.count e.1 > 0xFFFFFFFF).map Prod.fst

/-- R182: `HIST[s] <- HIST[s] + c[s]` for every symbol. -/
def addCounts (h : SymTable Word) (data : List Byte) : SymTable Word :=
  h.update fun s n => BitVec.ofNat 32 (n.toNat + data.count s)

/-- HIST_CLEAR, R181: set every histogram counter to zero. -/
def execHistClear (s : State) : Host.Outcome State Fault Refusal :=
  conclude s (.ok { state := { s with hist := emptyHist }, r0 := 0, r1 := 0, r2 := 0 })

/-- HIST_ACC's pseudocode, R182. -/
def histAccCmd (s : State) : Cmd Completion := do
  checkSrc s s.slen.toNat
  let data := s.srcBytes
  match firstOverflow s.hist data with
  | some x => raiseErr (.histOverflow x)
  | none =>
    let h := addCounts s.hist data
    .ok { state := { s with hist := h }, r0 := 0, r1 := s.slen.toNat, r2 := (present h).length }

/-- HIST_ACC, R182: add the occurrence counts of SLEN bytes at SRC to the histogram. -/
def execHistAcc (s : State) : Host.Outcome State Fault Refusal := conclude s (histAccCmd s)

end Sys2Proof.Machine
end

