-- ==== Sys2Proof/Machine/TreeBuilder.lean ====
section
/-! DEFINITION. The Huffman tree builder: the symbol order, the merge policy, the postorder numbering,
and BUILD (spec/42_tree_builder.md R200 to R209). -/

namespace Sys2Proof.Machine

/-- R201: symbol `a` comes before symbol `b`: the greater count first, and among equal counts the
smaller symbol. -/
def ranksBefore (h : SymTable Word) (a b : Byte) : Bool :=
  (h.at b).toNat < (h.at a).toNat ∨ ((h.at a).toNat = (h.at b).toNat ∧ a.toNat ≤ b.toNat)

/-- R201: `order(H)`, the present symbols sorted by count descending, then symbol ascending. -/
def order (h : SymTable Word) : List Byte := (present h).insertionSort fun a b => ranksBefore h a b

/-- R202: one turn of the loop: remove the two tail nodes, put their parent at the head (the first
removed is the left child).  A queue of fewer than two nodes is left as it is. -/
def mergeOnce (q : List HTree) : List HTree :=
  match q.reverse with
  | a :: b :: rest => .node a b :: rest.reverse
  | _ => q

/-- R202: the loop.  Each turn shortens the queue by one, so as many turns as the queue has nodes are
enough to leave one. -/
def mergeLoop : Nat → List HTree → List HTree
  | 0, q => q
  | n + 1, q => mergeLoop n (mergeOnce q)

/-- R202 to R204: `build(H)`; no tree for an empty table, two leaves of the one symbol for a table with
one symbol. -/
def build (h : SymTable Word) : Option HTree :=
  match order h with
  | [] => none
  | [s] => some (.node (.leaf s) (.leaf s))
  | syms => (mergeLoop syms.length (syms.map .leaf)).head?

/-- R15: `k(T)`, the number of Nodes. -/
def HTree.nodes : HTree → Nat
  | .leaf _ => 0
  | .node l r => l.nodes + r.nodes + 1

/-- R205: the two bytes that describe a child, given the number of the child if it is a Node. -/
def childField (t : HTree) (number : Nat) : Byte × Byte :=
  match t with
  | .leaf s => (0x00, s)
  | .node _ _ => (0x01, BitVec.ofNat 8 number)

/-- R205 `number(T, n0)`: the records of the Nodes in postorder, numbered from `n0`, and the next free
number. -/
def HTree.number : HTree → Nat → List NodeRec × Nat
  | .leaf _, n0 => ([], n0)
  | .node l r, n0 =>
    let (ll, n1) := l.number n0
    let (lr, n2) := r.number n1
    let (lk, lv) := childField l (n1 - 1)
    let (rk, rv) := childField r (n2 - 1)
    (ll ++ lr ++ [⟨lk, lv, rk, rv⟩], n2 + 1)

/-- R205 `rec(T)`: the postorder node list of a tree. -/
def HTree.records (t : HTree) : List NodeRec := (t.number 0).1

/-- R204: `build(HIST)` inside a command. -/
def buildCmd (h : SymTable Word) : Cmd HTree :=
  match build h with
  | none => raiseErr .emptyInput
  | some t => .ok t

/-- BUILD's pseudocode, R207. -/
def buildStoreCmd (s : State) : Cmd Completion := do
  let t ← buildCmd s.hist
  let recs := t.records
  raiseIf (255 < recs.length) (.headerOverflow recs.length)
  .ok { state := { s with tree := some recs, code := none }, r0 := 0, r1 := 0, r2 := recs.length }

/-- BUILD, R207: build the tree of the current histogram and store its postorder node list. -/
def execBuild (s : State) : Host.Outcome State Fault Refusal := conclude s (buildStoreCmd s)

end Sys2Proof.Machine
end

