-- ==== Sys2Proof/Machine/SerDes.lean ====
section
/-! DEFINITION. The tree node serializer and deserializer: the image of a node list, the parser, and
SERIALIZE and DESERIALIZE (spec/44_serdes.md R240 to R247). -/

namespace Sys2Proof.Machine

/-- R242 `bytes(rec)`: the four bytes of a record (R120). -/
def NodeRec.bytes (r : NodeRec) : List Byte := [r.lk, r.lv, r.rk, r.rv]

/-- R242 `image(recs)`: the serialized tree image (R124). -/
def image (recs : List NodeRec) : List Byte := BitVec.ofNat 8 recs.length :: recs.flatMap NodeRec.bytes

/-- R244: one child of a record: a leaf, or the most recent subtree not yet taken, whose number must be
the value byte (R243).  `none` is MALFORMED_TREE at this record. -/
def takeChild (kind value : Byte) (st : List (Nat × HTree)) : Option (HTree × List (Nat × HTree)) :=
  if kind = 0x01 then
    match st with
    | [] => none
    | (j, t) :: rest => if j = value.toNat then some (t, rest) else none
  else some (.leaf value, st)

/-- R244: the loop body for record `i`: the boolean bytes, then the right child, then the left. -/
def parseRecord (i : Nat) (r : NodeRec) (st : List (Nat × HTree)) : Option (List (Nat × HTree)) :=
  if 0x01 < r.lk.toNat ∨ 0x01 < r.rk.toNat then none
  else
    match takeChild r.rk r.rv st with
    | none => none
    | some (right, st1) =>
      match takeChild r.lk r.lv st1 with
      | none => none
      | some (left, st2) => some ((i, .node left right) :: st2)

/-- R244: the loop over the records from index `i` on, the top of the stack first; `.error` holds the
index of the record at fault. -/
def parseLoop : Nat → List NodeRec → List (Nat × HTree) → Except Nat (List (Nat × HTree))
  | _, [], st => .ok st
  | i, r :: rest, st =>
    match parseRecord i r st with
    | none => .error i
    | some st' => parseLoop (i + 1) rest st'

/-- R244 `parse(recs)`: the tree of a node list, or the index that MALFORMED_TREE reports. -/
def parse (recs : List NodeRec) : Except Nat HTree :=
  match parseLoop 0 recs [] with
  | .error i => .error i
  | .ok [(_, t)] => .ok t
  | .ok _ => .error recs.length

/-- `T <- treeOf(recs)` for the list TREE holds (R43).  A list that is no tree's cannot be there in a
run (R43), and the spec gives no effect for it: the model stops. -/
def treeOf (recs : List NodeRec) : Cmd HTree :=
  match parse recs with
  | .ok t => .ok t
  | .error _ => .error (.faulted .treeStoreInvalid)

/-- `T <- parse(recs)`, which may raise MALFORMED_TREE(i). -/
def parseCmd (recs : List NodeRec) : Cmd HTree :=
  match parse recs with
  | .ok t => .ok t
  | .error i => raiseErr (.malformedTree i)

/-- R245: the `n` records that lie at byte address `a`, four bytes each. -/
def State.recordsAt (s : State) (a n : Nat) : List NodeRec :=
  (List.range n).map fun i =>
    ⟨s.dmem (a + 4 * i), s.dmem (a + 4 * i + 1), s.dmem (a + 4 * i + 2), s.dmem (a + 4 * i + 3)⟩

/-- SERIALIZE's pseudocode, R241. -/
def serializeCmd (s : State) : Cmd Completion := do
  let recs ← needTree s
  let n := recs.length
  raiseIf (255 < n) (.headerOverflow n)
  checkDst s (1 + 4 * n) 0
  .ok { state := s.storeDst (image recs), r0 := 1 + 4 * n, r1 := 0, r2 := n }

/-- SERIALIZE, R241: write the serialized tree image of the current tree to DMEM. -/
def execSerialize (s : State) : Host.Outcome State Fault Refusal := conclude s (serializeCmd s)

/-- DESERIALIZE's pseudocode, R245. -/
def deserializeCmd (s : State) : Cmd Completion := do
  checkSrc s s.slen.toNat
  raiseIf (s.slen.toNat < 1) (.hdrTruncated 1)
  let n := (s.dmem s.src.toNat).toNat
  raiseIf (s.slen.toNat < 1 + 4 * n) (.hdrTruncated (1 + 4 * n))
  let recs := s.recordsAt (s.src.toNat + 1) n
  let _ ← parseCmd recs
  .ok { state := { s with tree := some recs, code := none }, r0 := 0, r1 := 1 + 4 * n, r2 := n }

/-- DESERIALIZE, R245: read a serialized tree image from DMEM into the tree store. -/
def execDeserialize (s : State) : Host.Outcome State Fault Refusal := conclude s (deserializeCmd s)

end Sys2Proof.Machine
end

