-- ==== Sys2Proof/Machine/CodeTable.lean ====
section
/-! DEFINITION. The code-table generator: GEN_CODES (spec/43_code_table.md R220 to R225). -/

namespace Sys2Proof.Machine

/-- R222 `walk(T, p)`: depth first, left before right; a later leaf of the same symbol overwrites. -/
def HTree.walk : HTree → Bits → SymTable Bits → SymTable Bits
  | .leaf s, p, tab => tab.put s p
  | .node l r, p, tab => r.walk (p ++ [true]) (l.walk (p ++ [false]) tab)

/-- R222 `codes(T)`. -/
def HTree.codes (t : HTree) : SymTable Bits := t.walk [] (SymTable.tabulate fun _ => [])

/-- R223: the number of symbols with a code. -/
def codeCount (tab : SymTable Bits) : Nat := (tab.toList.filter fun c => c ≠ []).length

/-- R223: the greatest code length. -/
def maxCodeLen (tab : SymTable Bits) : Nat := tab.toList.foldl (fun m c => max m c.length) 0

/-- GEN_CODES's pseudocode, R223. -/
def genCodesCmd (s : State) : Cmd Completion := do
  let recs ← needTree s
  let t ← treeOf recs
  let tab := t.codes
  .ok { state := { s with code := some tab }, r0 := 0, r1 := 0, r2 := codeCount tab ||| (maxCodeLen tab <<< 16) }

/-- GEN_CODES, R223: derive the code table of the current tree and store it. -/
def execGenCodes (s : State) : Host.Outcome State Fault Refusal := conclude s (genCodesCmd s)

end Sys2Proof.Machine
end

