-- ==== Sys2Proof/Machine/BitPack.lean ====
section
/-! DEFINITION. The bit packer and unpacker: PACK and UNPACK (spec/45_bitpack.md R270 to R277). -/

namespace Sys2Proof.Machine

/-- R271: the codes of the bytes from offset `i` on, concatenated; NO_CODE at the first byte without one. -/
def encodeFrom (tab : SymTable Bits) : Nat → List Byte → Cmd Bits
  | _, [] => .ok []
  | i, b :: data =>
    if tab.at b = [] then raiseErr (.noCode i)
    else do
      let rest ← encodeFrom tab (i + 1) data
      .ok (tab.at b ++ rest)

/-- R271: `m` bytes from a bit sequence, the first bit the most significant of the first byte, zeros
after the last bit (R127). -/
def bytesOfBits : Nat → Bits → List Byte
  | 0, _ => []
  | m + 1, bs => BitVec.ofNat 8 (msbNat 8 bs) :: bytesOfBits m (bs.drop 8)

/-- R271 `packbits(data, tab)`: the packed bytes and the pad count. -/
def packbits (data : List Byte) (tab : SymTable Bits) : Cmd (List Byte × Nat) := do
  let bits ← encodeFrom tab 0 data
  let m := ceil8 bits.length
  .ok (bytesOfBits m bits, 8 * m - bits.length)

/-- R272: one symbol: from the root down, 0 to the left and 1 to the right, until a Leaf; the symbol and
the bits left, or `none` where the bits end first. -/
def HTree.descend : HTree → Bits → Option (Byte × Bits)
  | .leaf s, bs => some (s, bs)
  | .node _ _, [] => none
  | .node l r, b :: bs => if b then r.descend bs else l.descend bs

/-- R272: `n` more symbols after the `k` already out. -/
def decodeFrom (t : HTree) : Nat → Nat → Bits → Cmd (List Byte × Bits)
  | 0, _, bs => .ok ([], bs)
  | n + 1, k, bs =>
    match t.descend bs with
    | none => raiseErr (.truncatedStream k)
    | some (sym, bs1) => do
      let (out, bs2) ← decodeFrom t n (k + 1) bs1
      .ok (sym :: out, bs2)

/-- R272 `unpackbits(T, bytes, L)`: the symbols, the bits used and the bytes consumed. -/
def unpackbits (t : HTree) (bytes : List Byte) (l : Nat) : Cmd (List Byte × Nat × Nat) := do
  let (out, rest) ← decodeFrom t l 0 (bitsOfBytes bytes)
  let used := 8 * bytes.length - rest.length
  .ok (out, used, ceil8 used)

/-- PACK's pseudocode, R273. -/
def packCmd (s : State) : Cmd Completion := do
  let tab ← needCodes s
  checkSrc s s.slen.toNat
  let (out, pad) ← packbits s.srcBytes tab
  checkDst s out.length s.slen.toNat
  .ok { state := s.storeDst out, r0 := out.length, r1 := s.slen.toNat, r2 := pad }

/-- PACK, R273: encode SLEN bytes at SRC with the current code table and write the packed bytes at DST. -/
def execPack (s : State) : Host.Outcome State Fault Refusal := conclude s (packCmd s)

/-- UNPACK's pseudocode, R276. -/
def unpackCmd (s : State) : Cmd Completion := do
  let recs ← needTree s
  checkSrc s s.slen.toNat
  checkDst s s.cnt.toNat s.slen.toNat
  let t ← treeOf recs
  let (out, used, consumed) ← unpackbits t s.srcBytes s.cnt.toNat
  .ok { state := s.storeDst out, r0 := s.cnt.toNat, r1 := consumed, r2 := 8 * consumed - used }

/-- UNPACK, R276: decode CNT symbols from the packed bytes at SRC with the current tree and write them
at DST. -/
def execUnpack (s : State) : Host.Outcome State Fault Refusal := conclude s (unpackCmd s)

end Sys2Proof.Machine
end

