-- ==== Sys2Proof/Machine/Optimizer.lean ====
section
/-! DEFINITION. The tree optimizer: OPTIMIZE (spec/46_optimizer.md R300 to R304). -/

namespace Sys2Proof.Machine

/-- R301: the leaf positions in DFS order, each with its depth (the root has depth `d`) and symbol. -/
def HTree.positions : HTree → Nat → List (Nat × Byte)
  | .leaf s, d => [(d, s)]
  | .node l r, d => l.positions (d + 1) ++ r.positions (d + 1)

/-- R301: the symbols of the leaves in DFS order. -/
def HTree.leafSyms (t : HTree) : List Byte := (t.positions 0).map Prod.snd

/-- R302: the tree with its leaves' symbols replaced, in DFS order, by those of a list; what the list
has left over comes back.  (The list of a whole tree is as long as the tree has leaves.) -/
def HTree.relabel : HTree → List Byte → HTree × List Byte
  | .leaf s, [] => (.leaf s, [])
  | .leaf _, x :: xs => (.leaf x, xs)
  | .node l r, xs =>
    let (l', ys) := l.relabel xs
    let (r', zs) := r.relabel ys
    (.node l' r', zs)

/-- R302: position `i` comes before position `j`: the smaller depth first, then the smaller number. -/
def shallower (depths : List Nat) (i j : Nat) : Bool :=
  depths.getD i 0 < depths.getD j 0 ∨ (depths.getD i 0 = depths.getD j 0 ∧ i ≤ j)

/-- R302 `pi`: the position numbers sorted by depth ascending, then by number ascending. -/
def positionOrder (depths : List Nat) : List Nat :=
  (List.range depths.length).insertionSort fun i j => shallower depths i j

/-- R302: `newsym[pi[k]] = sigma[k]`, the new symbol of each position in DFS order. -/
def assignSyms (pi : List Nat) (sigma : List Byte) : List Byte :=
  (pi.zip sigma).foldl (fun acc p => acc.set p.1 p.2) (List.replicate pi.length 0)

/-- R302: the least symbol in exactly one of the leaf set and the set of present symbols. -/
def firstMismatch (syms : List Byte) (h : SymTable Word) : Option Byte :=
  (h.entries.find? fun e => decide (e.1 ∈ syms) != decide (e.2 ≠ 0)).map Prod.fst

/-- R302: the least symbol on two or more leaves. -/
def firstRepeat (syms : List Byte) : Option Byte := allSymbols.find? fun s => 2 ≤ syms.count s

/-- R302 `optimize(T, H)`: a tree of the same shape, and the number of positions whose symbol changed. -/
def optimize (t : HTree) (h : SymTable Word) : Cmd (HTree × Nat) :=
  let syms := t.leafSyms
  match firstMismatch syms h with
  | some x => raiseErr (.symsetMismatch x.toNat)
  | none =>
    if (present h).length = 1 then .ok (t, 0)
    else
      match firstRepeat syms with
      | some x => raiseErr (.symsetMismatch (0x100 ||| x.toNat))
      | none =>
        let pi := positionOrder ((t.positions 0).map Prod.fst)
        let newSyms := assignSyms pi (order h)
        .ok ((t.relabel newSyms).1, ((newSyms.zip syms).filter fun p => p.1 ≠ p.2).length)

/-- OPTIMIZE's pseudocode, R303. -/
def optimizeCmd (s : State) : Cmd Completion := do
  let recs ← needTree s
  let t ← treeOf recs
  let (t', changed) ← optimize t s.hist
  .ok { state := { s with tree := some t'.records, code := none }, r0 := 0, r1 := 0, r2 := changed }

/-- OPTIMIZE, R303: reassign the current tree's leaf symbols to the current histogram. -/
def execOptimize (s : State) : Host.Outcome State Fault Refusal := conclude s (optimizeCmd s)

end Sys2Proof.Machine
end

