-- ==== Sys2Proof/Machine/Codec.lean ====
section
/-! DEFINITION. The composite commands COMPRESS, COMPRESS.O and DECOMPRESS on the four-part stream
(spec/47_codec.md R320 to R325; spec/30_encoding.md R125, R126). -/

namespace Sys2Proof.Machine

/-- R321: `if O = 1 then (T, x) <- optimize(T, H)`. -/
def optimizeIf (o : Bool) (t : HTree) (h : SymTable Word) : Cmd HTree :=
  if o then do
    let (t', _) ← optimize t h
    .ok t'
  else .ok t

/-- R125: the compressed stream: node count and records, the original length, the packed bits. -/
def stream (recs : List NodeRec) (len : Word) (packed : List Byte) : List Byte :=
  image recs ++ leBytes 4 len ++ packed

/-- COMPRESS's pseudocode, R321; `o` is the O bit. -/
def compressCmd (o : Bool) (s : State) : Cmd Completion := do
  checkSrc s s.slen.toNat
  raiseIf (s.slen = 0) .emptyInput
  let data := s.srcBytes
  let h := histOf data
  let t0 ← buildCmd h
  let t ← optimizeIf o t0 h
  let recs := t.records
  raiseIf (255 < recs.length) (.headerOverflow recs.length)
  let tab := t.codes
  let (packed, pad) ← packbits data tab
  let out := stream recs s.slen packed
  checkDst s out.length s.slen.toNat
  .ok { state := { s.storeDst out with hist := h, tree := some recs, code := some tab }
        r0 := out.length, r1 := s.slen.toNat, r2 := pad }

/-- COMPRESS, R321 with O = 0: compress SLEN bytes at SRC into a four-part stream at DST. -/
def execCompress (s : State) : Host.Outcome State Fault Refusal := conclude s (compressCmd false s)

/-- COMPRESS.O, R321 with O = 1: the same with the optimizer after the builder. -/
def execCompressO (s : State) : Host.Outcome State Fault Refusal := conclude s (compressCmd true s)

/-- DECOMPRESS's pseudocode, R324. -/
def decompressCmd (s : State) : Cmd Completion := do
  checkSrc s s.slen.toNat
  raiseIf (s.slen.toNat < 1) (.hdrTruncated 1)
  let n := (s.dmem s.src.toNat).toNat
  raiseIf (s.slen.toNat < 5 + 4 * n) (.hdrTruncated (5 + 4 * n))
  let recs := s.recordsAt (s.src.toNat + 1) n
  let t ← parseCmd recs
  let l := leNat (s.memRead (s.src.toNat + 1 + 4 * n) 4)
  checkDst s l s.slen.toNat
  let (out, used, consumed) ←
    unpackbits t (s.memRead (s.src.toNat + 5 + 4 * n) (s.slen.toNat - 5 - 4 * n)) l
  .ok { state := { s.storeDst out with tree := some recs, code := none }
        r0 := l, r1 := 5 + 4 * n + consumed, r2 := 8 * consumed - used }

/-- DECOMPRESS, R324: decode a four-part stream of SLEN bytes at SRC and write the original bytes at DST. -/
def execDecompress (s : State) : Host.Outcome State Fault Refusal := conclude s (decompressCmd s)

end Sys2Proof.Machine
end

