-- ==== Sys2Proof/Machine/Protocol.lean ====
section
/-! DEFINITION. NOP (spec/40_command.md R158). -/

namespace Sys2Proof.Machine

/-- NOP, R158: complete with no effect. -/
def execNop (s : State) : Host.Outcome State Fault Refusal :=
  conclude s (.ok { state := s, r0 := 0, r1 := 0, r2 := 0 })

end Sys2Proof.Machine
end

