-- ==== Sys2Proof/Machine/Dispatch.lean ====
section
/-! DEFINITION. Each command's meaning: its completion step (spec/40_command.md R151, R156). -/

namespace Sys2Proof.Machine

def exec (i : Instr) (s : State) : Host.Outcome State Fault Refusal :=
  match i with
  | .nop => Sys2Proof.Machine.execNop s
  | .histClear => Sys2Proof.Machine.execHistClear s
  | .histAcc => Sys2Proof.Machine.execHistAcc s
  | .build => Sys2Proof.Machine.execBuild s
  | .genCodes => Sys2Proof.Machine.execGenCodes s
  | .serialize => Sys2Proof.Machine.execSerialize s
  | .deserialize => Sys2Proof.Machine.execDeserialize s
  | .pack => Sys2Proof.Machine.execPack s
  | .unpack => Sys2Proof.Machine.execUnpack s
  | .optimize => Sys2Proof.Machine.execOptimize s
  | .compress => Sys2Proof.Machine.execCompress s
  | .compressO => Sys2Proof.Machine.execCompressO s
  | .decompress => Sys2Proof.Machine.execDecompress s

end Sys2Proof.Machine
end

