-- ==== Sys2Proof/Machine/Flags.lean ====
section
/-! DEFINITION. STATUS and CTRL as the host reads them, and the interrupt output
(spec/10_state.md R34, R35, R39, R50).  TREE_VALID and CODE_VALID are views of TREE and CODE,
never stored twice. -/

namespace Sys2Proof.Machine

/-- R35: STATUS.TREE_VALID. -/
def State.treeValid (s : State) : Bool := s.tree.isSome

/-- R35: STATUS.CODE_VALID. -/
def State.codeValid (s : State) : Bool := s.code.isSome

/-- R35: STATUS, from bit 31 down: reserved, ERRCODE, reserved, CODE_VALID, TREE_VALID, ACCERR, ERR,
DONE, BUSY. -/
def State.statusWord (s : State) : Word :=
  0#16 ++ s.errCode ++ 0#2 ++ BitVec.ofBool s.codeValid ++ BitVec.ofBool s.treeValid
    ++ BitVec.ofBool s.accErr ++ BitVec.ofBool s.err ++ BitVec.ofBool s.done ++ BitVec.ofBool s.busy

/-- R34: CTRL. -/
def State.ctrlWord (s : State) : Word := 0#31 ++ BitVec.ofBool s.ie

/-- R39: TREEINFO, with NCOUNT in its low byte. -/
def State.treeInfoWord (s : State) : Word :=
  0#24 ++ (match s.tree with
    | none => 0#8
    | some recs => BitVec.ofNat 8 recs.length)

/-- R50: the interrupt output, level-sensitive. -/
def State.irq (s : State) : Bool := s.ie && (s.done || s.err)

end Sys2Proof.Machine
end

