-- ==== Sys2Proof/Machine/HostBus.lean ====
section
/-! DEFINITION. The HOST agent: the register map, host accesses to the two targets, refused accesses,
the reset input, and which agent moves next (spec/10_state.md R30 to R51; spec/20_memory.md R80 to R86,
R92; spec/70_reset_and_hazards.md R390 to R402). -/

namespace Sys2Proof.Machine

/-- The registers of R32. -/
inductive Reg where
  | id | ctrl | status | cmd | src | slen | dst | dcap | cnt | res0 | res1 | res2 | errInfo | treeInfo
  | histIdx | histData | codeIdx | codeLen
  | codeBits (k : Fin 8)
  | nodeIdx | nodeData
  deriving DecidableEq, Repr

/-- R32: the register at an offset; `none` for an offset that is reserved (R51) or no multiple of 4. -/
def Reg.ofOffset? (off : Byte) : Option Reg :=
  match off.toNat with
  | 0x00 => some .id
  | 0x04 => some .ctrl
  | 0x08 => some .status
  | 0x0C => some .cmd
  | 0x10 => some .src
  | 0x14 => some .slen
  | 0x18 => some .dst
  | 0x1C => some .dcap
  | 0x20 => some .cnt
  | 0x24 => some .res0
  | 0x28 => some .res1
  | 0x2C => some .res2
  | 0x30 => some .errInfo
  | 0x34 => some .treeInfo
  | 0x40 => some .histIdx
  | 0x44 => some .histData
  | 0x48 => some .codeIdx
  | 0x4C => some .codeLen
  | 0x50 => some (.codeBits 0)
  | 0x54 => some (.codeBits 1)
  | 0x58 => some (.codeBits 2)
  | 0x5C => some (.codeBits 3)
  | 0x60 => some (.codeBits 4)
  | 0x64 => some (.codeBits 5)
  | 0x68 => some (.codeBits 6)
  | 0x6C => some (.codeBits 7)
  | 0x70 => some .nodeIdx
  | 0x74 => some .nodeData
  | _ => none

/-- The width of an access in bytes. -/
def Width.bytes : Width → Nat
  | .w8 => 1
  | .w16 => 2
  | .w32 => 4

/-! ### Register reads (R82) -/

/-- R33: ID: MAGIC, VERSION and AW. -/
def State.idWord (s : State) : Word := 0x4843#16 ++ 0x01#8 ++ BitVec.ofNat 8 s.cfg.dmemAw

/-- R47: the code in the CODE window: the entry of CODE_IDX, empty when CODE = NONE. -/
def State.windowCode (s : State) : Bits :=
  match s.code with
  | none => []
  | some tab => tab.at s.codeIdx

/-- R47: CODE_BITSk: bit `31 - j` is the code's bit `32k + j`, 0 past its end. -/
def State.codeBitsWord (s : State) (k : Fin 8) : Word := BitVec.ofNat 32 (msbNat 32 (s.windowCode.drop (32 * k.val)))

/-- R45: NODE_DATA: the record of NODE_IDX, its first byte the least significant; 0 when there is none. -/
def State.nodeDataWord (s : State) : Word :=
  match (s.tree.getD [])[s.nodeIdx.toNat]? with
  | none => 0
  | some r => r.rv ++ r.rk ++ r.lv ++ r.lk

/-- What a performed read of a register returns (R33 to R50). -/
def State.regValue (s : State) : Reg → Word
  | .id => s.idWord
  | .ctrl => s.ctrlWord
  | .status => s.statusWord
  | .cmd => s.cmd
  | .src => s.src
  | .slen => s.slen
  | .dst => s.dst
  | .dcap => s.dcap
  | .cnt => s.cnt
  | .res0 => s.res0
  | .res1 => s.res1
  | .res2 => s.res2
  | .errInfo => s.errInfo
  | .treeInfo => s.treeInfoWord
  | .histIdx => s.histIdx.setWidth 32
  | .histData => s.hist.at s.histIdx
  | .codeIdx => s.codeIdx.setWidth 32
  | .codeLen => (BitVec.ofNat 8 s.windowCode.length).setWidth 32
  | .codeBits k => s.codeBitsWord k
  | .nodeIdx => s.nodeIdx.setWidth 32
  | .nodeData => s.nodeDataWord

/-- R41, R82: the side effect of a performed read: HIST_DATA advances HIST_IDX, modulo 256. -/
def State.afterRead (s : State) : Reg → State
  | .histData => { s with histIdx := s.histIdx + 1 }
  | .id | .ctrl | .status | .cmd | .src | .slen | .dst | .dcap | .cnt | .res0 | .res1 | .res2 | .errInfo
  | .treeInfo | .histIdx | .codeIdx | .codeLen | .codeBits _ | .nodeIdx | .nodeData => s

/-! ### Register writes (R83) -/

/-- A performed write of a register: R34 CTRL, R35 STATUS, R36 and R150 CMD, R37 the argument registers,
R41, R45 and R47 the windows; a write of a read-only register is ignored. -/
def State.writeReg (s : State) (r : Reg) (v : Word) : State :=
  match r with
  | .ctrl => { s with ie := v.getLsbD 0 }
  | .status => clearFlags s v
  | .cmd => issue s v
  | .src => { s with src := v }
  | .slen => { s with slen := v }
  | .dst => { s with dst := v }
  | .dcap => { s with dcap := v }
  | .cnt => { s with cnt := v }
  | .histIdx => { s with histIdx := v.extractLsb' 0 8 }
  | .histData => { s with hist := s.hist.put s.histIdx v, histIdx := s.histIdx + 1 }
  | .codeIdx => { s with codeIdx := v.extractLsb' 0 8 }
  | .nodeIdx => { s with nodeIdx := v.extractLsb' 0 8 }
  | .id | .res0 | .res1 | .res2 | .errInfo | .treeInfo | .codeLen | .codeBits _ | .nodeData => s

/-! ### Accesses (R81 to R86) -/

/-- R81, R51: the register an access reaches: 32 bits wide, at an aligned offset that is not reserved. -/
def regTarget (off : Byte) (w : Width) : Option Reg :=
  if w = .w32 ∧ off.toNat % 4 = 0 then Reg.ofOffset? off else none

/-- R86: the registers that may be read while BUSY = 1. -/
def readableWhileBusy (r : Reg) : Bool := r = .id ∨ r = .ctrl ∨ r = .status

/-- R86: the registers that may be written while BUSY = 1. -/
def writableWhileBusy (r : Reg) : Bool := r = .ctrl ∨ r = .status

/-- R84, R86: a memory access is performed: the block is idle, the address is aligned to the width, and
the bytes lie in DMEM. -/
def memAccessOk (s : State) (a : Nat) (w : Width) : Bool :=
  !s.busy ∧ a % w.bytes = 0 ∧ a + w.bytes ≤ s.dmemSize

/-- R85: a refused write sets STATUS.ACCERR and does nothing else. -/
def refuseWrite (s : State) : State := { s with accErr := true }

/-- R85: a refused read sets STATUS.ACCERR and returns 0. -/
def refuseRead (s : State) : State := { s with accErr := true, rdata := 0 }

/-- A host read of the register target. -/
def hostReadReg (s : State) (off : Byte) (w : Width) : State :=
  match regTarget off w with
  | none => refuseRead s
  | some r =>
    if s.busy && !readableWhileBusy r then refuseRead s
    else { s.afterRead r with rdata := s.regValue r }

/-- A host write of the register target. -/
def hostWriteReg (s : State) (off : Byte) (w : Width) (v : Word) : State :=
  match regTarget off w with
  | none => refuseWrite s
  | some r => if s.busy && !writableWhileBusy r then refuseWrite s else s.writeReg r v

/-- R84: a host read of the memory target, little-endian. -/
def hostReadMem (s : State) (a : Nat) (w : Width) : State :=
  if memAccessOk s a w then { s with rdata := BitVec.ofNat 32 (leNat (s.memRead a w.bytes)) } else refuseRead s

/-- R84: a host write of the memory target, little-endian. -/
def hostWriteMem (s : State) (a : Nat) (w : Width) (v : Word) : State :=
  if memAccessOk s a w then { s with mem := s.mem.write a (leBytes w.bytes v) } else refuseWrite s

/-- R390, R393: the reset input: every piece of the block's state at its reset value, the command in
flight abandoned, and a new draw of the memory's bytes (R392).  The OPEN parameters and the host's side
of the bus are no state of the block. -/
def resetBlock (s : State) : State :=
  { State.reset with cfg := s.cfg, draw := s.draw + 1, host := s.host, delays := s.delays, rdata := s.rdata }

/-! ### Which agent moves (R30, R156, R402) -/

/-- The CORE agent moves: a command is in flight and no host step is to come before its completion. -/
def coreTurn (s : State) : Bool := s.busy && (s.delay = 0 || s.host.isEmpty)

/-- One operation of the host, the rest of its operations and the countdown of R402 already in `s`.
`wait` reads STATUS and stays in front while BUSY = 1 (R118). -/
def hostOp (op : HostOp) (s : State) : State :=
  match op with
  | .readReg off w => hostReadReg s off w
  | .writeReg off w v => hostWriteReg s off w v
  | .readMem a w => hostReadMem s a w
  | .writeMem a w v => hostWriteMem s a w v
  | .wait =>
    let t := { s with rdata := s.statusWord }
    if s.busy then { t with host := .wait :: s.host } else t
  | .reset => resetBlock s

/-- The HOST agent's step: its next operation, or nothing when it has none: the block is then idle
(R394, R404). -/
def hostTurn (s : State) : State :=
  match s.host with
  | [] => s
  | op :: rest => hostOp op { s with host := rest, delay := s.delay - 1 }

/-! ### Host programs (R118, R119) -/

/-- R118 `wb a, b0, b1, ...`: byte writes from `a` on. -/
def byteWrites (a : Nat) (l : List Byte) : List HostOp :=
  l.zipIdx.map fun p => .writeMem (a + p.2) .w8 (p.1.setWidth 32)

/-- R118 `rb a, n`: `n` byte reads from `a` on. -/
def byteReads (a n : Nat) : List HostOp := (List.range n).map fun i => .readMem (a + i) .w8

/-- R119 `cmd <MNEMONIC> [src=v] [slen=v] [dst=v] [dcap=v] [cnt=v]`: the given operands' writes, in this
order, the write of CMD, and `wait`. -/
def cmdOps (i : Instr) (src slen dst dcap cnt : Option Word) : List HostOp :=
  let arg (off : Byte) (v : Option Word) : List HostOp := (v.map (HostOp.writeReg off .w32)).toList
  arg 0x10 src ++ arg 0x14 slen ++ arg 0x18 dst ++ arg 0x1C dcap ++ arg 0x20 cnt ++
    [.writeReg 0x0C .w32 (encode i), .wait]

end Sys2Proof.Machine
end

