-- ==== Sys2Proof/Machine/Step.lean ====
section
/-! DEFINITION. One step of the machine: the completion step of the command in flight, or one operation
of the host (spec/10_state.md R30; spec/40_command.md R151, R156). -/

namespace Sys2Proof.Machine

/-- R151, R156: the completion step: decode the word in CMD; an illegal word raises ILLEGAL_CMD. -/
def complete (s : State) : Host.Outcome State Fault Refusal :=
  match decode s.cmd with
  | .ok i => exec i s
  | .error _ => .next (raise (.illegalCmd s.cmd) s)

/-- One step. -/
def step (s : State) : Host.Outcome State Fault Refusal :=
  if coreTurn s then complete s else .next (hostTurn s)

/-- The state in which the very next step is the completion step of the command word that
spec/opcode_table.json numbers `w`: the word issued (R150) with no host step to come before its
completion.  The block fetches nothing (R98): issuing is how a command comes to run. -/
def State.withFetchWord (s : State) (nbits w : Nat) : State :=
  { acceptWord s (BitVec.ofNat 32 (w % 2 ^ nbits)) with delay := 0 }

end Sys2Proof.Machine
end

