-- ==== Sys2Proof/Safety.lean ====
section
/-! DEFINITION. What a good state and a safe run are: the invariants of spec/10_state.md R35, R42 to R44,
R46, R48, spec/60_exceptions.md R352, R357, and spec/40_command.md R150, put together. -/

namespace Sys2Proof.Machine

/-- R42, R43, R44: what the tree store may hold: a list of 1 to 255 records that parses. -/
def TreeStoreOk (tree : Option (List NodeRec)) : Prop :=
  ∀ recs, tree = some recs → 1 ≤ recs.length ∧ recs.length ≤ 255 ∧ ∃ t, parse recs = .ok t

/-- R46: a code table is the table of the tree that the tree store holds. -/
def CodeStoreOk (tree : Option (List NodeRec)) (code : Option (SymTable Bits)) : Prop :=
  ∀ tab, code = some tab → ∃ recs t, tree = some recs ∧ parse recs = .ok t ∧ tab = t.codes

/-- R352, R357: the codes STATUS.ERRCODE may hold; HEADER_OVERFLOW, 0x05, is never written. -/
def writtenErrCodes : List Byte :=
  [0x00, 0x01, 0x02, 0x03, 0x04, 0x10, 0x11, 0x12, 0x13, 0x14, 0x15, 0x16, 0x17, 0x18]

/-- The states a run can be in. -/
structure Inv (s : State) : Prop where
  /-- R9: DMEM_AW is 8 to 32. -/
  cfg : s.cfg.wellFormed = true
  /-- Memory keeps its canonical form. -/
  mem : s.mem.wf
  /-- R48: only addresses of DMEM were ever written. -/
  memRange : ∀ c ∈ s.mem, c.1 < s.dmemSize
  /-- R42, R43. -/
  tree : TreeStoreOk s.tree
  /-- R46. -/
  code : CodeStoreOk s.tree s.code
  /-- R35: DONE and ERR are never 1 together. -/
  flags : ¬(s.done = true ∧ s.err = true)
  /-- R150: while a command is in flight the completion fields are clear. -/
  busy : s.busy = true → s.done = false ∧ s.err = false ∧ s.errCode = 0 ∧
    s.res0 = 0 ∧ s.res1 = 0 ∧ s.res2 = 0 ∧ s.errInfo = 0
  /-- R352. -/
  errCode : s.errCode ∈ writtenErrCodes

/-- R157, written out for the statements: what a success adds to the state `s` that holds the command's
own updates. -/
def succeeded (s : State) (r0 r1 r2 : Word) : State :=
  { s with res0 := r0, res1 := r1, res2 := r2, errCode := 0, done := true, busy := false }

/-- R351, written out for the statements: what an error with a code and an information word leaves. -/
def failed (s : State) (code : Byte) (info : Word) : State :=
  { s with errCode := code, errInfo := info, err := true, busy := false }

/-- What no command changes: the registers the host alone writes (R34, R36, R37, R41, R45, R47),
STATUS.ACCERR (R85), and everything outside the block. -/
structure CommandKeeps (s t : State) : Prop where
  cfg : t.cfg = s.cfg
  ie : t.ie = s.ie
  accErr : t.accErr = s.accErr
  cmd : t.cmd = s.cmd
  src : t.src = s.src
  slen : t.slen = s.slen
  dst : t.dst = s.dst
  dcap : t.dcap = s.dcap
  cnt : t.cnt = s.cnt
  histIdx : t.histIdx = s.histIdx
  codeIdx : t.codeIdx = s.codeIdx
  nodeIdx : t.nodeIdx = s.nodeIdx
  draw : t.draw = s.draw
  host : t.host = s.host
  delay : t.delay = s.delay
  delays : t.delays = s.delays
  rdata : t.rdata = s.rdata

/-- The codes a command may leave in ERRCODE, by the table of R352 and the check orders of R368, in the
order of the checks; 0 is success.  HEADER_OVERFLOW (0x05) stands in the pseudocode of BUILD, SERIALIZE and COMPRESS. -/
def errCodesOf : Instr → List Byte
  | .nop | .histClear => [0x00]
  | .histAcc => [0x00, 0x11, 0x17]
  | .build => [0x00, 0x01, 0x05]
  | .genCodes => [0x00, 0x14]
  | .serialize => [0x00, 0x14, 0x05, 0x11, 0x12]
  | .deserialize => [0x00, 0x11, 0x18, 0x04]
  | .pack => [0x00, 0x15, 0x11, 0x16, 0x12, 0x13]
  | .unpack => [0x00, 0x14, 0x11, 0x12, 0x13, 0x03]
  | .optimize => [0x00, 0x14, 0x02]
  | .compress | .compressO => [0x00, 0x11, 0x01, 0x05, 0x12, 0x13]
  | .decompress => [0x00, 0x11, 0x18, 0x04, 0x12, 0x13, 0x03]

/-- The command COMPRESS with a given O bit (R321). -/
def compressInstr (o : Bool) : Instr := if o then .compressO else .compress

/-- The state after the host's next operation has been taken from its list (R95). -/
def afterTake (s : State) (rest : List HostOp) : State := { s with host := rest, delay := s.delay - 1 }

/-- R81, R84, R86: the accesses that the block performs. -/
def performed (s : State) : HostOp → Bool
  | .readReg off w =>
    w = .w32 ∧ off.toNat % 4 = 0 ∧ off.toNat < 0x78 ∧ off ≠ 0x38 ∧ off ≠ 0x3C ∧
      (s.busy = true → off = 0x00 ∨ off = 0x04 ∨ off = 0x08)
  | .writeReg off w _ =>
    w = .w32 ∧ off.toNat % 4 = 0 ∧ off.toNat < 0x78 ∧ off ≠ 0x38 ∧ off ≠ 0x3C ∧
      (s.busy = true → off = 0x04 ∨ off = 0x08)
  | .readMem a w | .writeMem a w _ =>
    s.busy = false ∧ a % w.bytes = 0 ∧ a + w.bytes ≤ s.dmemSize
  | .wait | .reset => true

/-- A safe run: it never stops, whatever its length. -/
def SafeRun (s : State) : Prop := ∀ n, ∃ t, Host.Core.run Sys2Proof.core n s = .next t

end Sys2Proof.Machine
end

