-- ==== Sys2Proof/Certificates/Slice0/Obligations.lean ====
section
/-! DEFINITION. The statements for the provers.  In each, a number of bytes or an address is a natural
number read from a register with `toNat` (spec/30_encoding.md R116), DMEM_SIZE is `s.dmemSize`, and the
DMEM byte at an address is `s.dmem`.  No statement rests on the value of a free value or of a
DESIGN CHOICE. -/

open Sys2Proof Sys2Proof.Machine

/-! ### Command words -/

/-- R112. A word is legal by its three fields, which is to be one of the 13 words of the opcode table; the
decoder accepts exactly the legal words; exactly one row of the table selects a legal word, and it is the
decoder's choice. -/
def Obligations.LegalWordsSelectOneRow : Prop :=
  ∀ w : Word,
    (WellFormed.legalWord w = true ↔ w.extractLsb' 9 23 = 0 ∧ w.extractLsb' 0 8 ≤ 0x0B ∧
      (w.getLsbD 8 = false ∨ w.extractLsb' 0 8 = 0x0A)) ∧
    (WellFormed.legalWord w = true ↔ w ∈ opcodeTable.map OpcodeRow.word) ∧
    (WellFormed.legalWord w = true →
      ∃ i, decode w = .ok i ∧ (opcodeTable.filter fun r => r.selects w).map OpcodeRow.instr = [i]) ∧
    (WellFormed.legalWord w = false →
      (∃ e, decode w = .error e) ∧ (opcodeTable.filter fun r => r.selects w) = [])

/-- Decoding the word of a well-formed command gives the command back, and a word that decodes is the
word of its command: no bit of a legal word is dropped and no two words share a command. -/
def Obligations.DecodeEncodeAgree : Prop :=
  (∀ i : Instr, i.wellFormed = true → decode (encode i) = .ok i) ∧
  (∀ (w : Word) (i : Instr), decode w = .ok i → w = encode i)

/-- Words written out from the encoding of R110 and R111, and the illegal words of vector V31. -/
def Obligations.SpecWordsDecode : Prop :=
  decode 0x00000000 = .ok .nop ∧ decode 0x00000002 = .ok .histAcc ∧ decode 0x00000003 = .ok .build ∧
  decode 0x00000004 = .ok .genCodes ∧ decode 0x00000005 = .ok .serialize ∧ decode 0x00000007 = .ok .pack ∧
  decode 0x00000009 = .ok .optimize ∧ decode 0x0000000A = .ok .compress ∧
  decode 0x0000010A = .ok .compressO ∧ decode 0x0000000B = .ok .decompress ∧
  decode 0x0000000C = .error .reservedOpcode ∧ decode 0x000000FF = .error .reservedOpcode ∧
  decode 0x00000109 = .error .optimizeFlag ∧ decode 0x00000100 = .error .optimizeFlag ∧
  decode 0x00000200 = .error .reservedBits ∧ decode 0x80000000 = .error .reservedBits ∧
  decode 0x0000020A = .error .reservedBits

/-! ### The command protocol -/

/-- R151, R156. While a command is in flight and the host has no step left before its completion, the
step is the meaning of the command that CMD's word decodes to; in every other state it is the host's
step.  (When the core moves is the model's reading of the open duration: log 6.) -/
def Obligations.StepRunsTheDecodedCommand : Prop :=
  (∀ s : State, coreTurn s = true ↔ s.busy = true ∧ (s.delay = 0 ∨ s.host = [])) ∧
  (∀ (s : State) (i : Instr), coreTurn s = true → decode s.cmd = .ok i → i.wellFormed = true →
    step s = exec i s) ∧
  (∀ s : State, coreTurn s = false → step s = .next (hostTurn s))

/-- R359. The completion of an illegal word is ILLEGAL_CMD with the word in ERRINFO, and nothing else,
whatever the state and the arguments. -/
def Obligations.IllegalWordRaisesIllegalCmd : Prop :=
  ∀ s : State, coreTurn s = true → WellFormed.legalWord s.cmd = false →
    step s = .next (failed s 0x10 s.cmd)

/-- R150. The host's write of any word to CMD while the block is idle: the one step sets CMD and BUSY,
clears DONE, ERR, ERRCODE, RES0 to RES2 and ERRINFO, leaves IRQ at 0, and changes nothing else of the
block.  While a command is in flight the write is refused and issues nothing.  (`delay` and `delays` are the
model's clock for R402: log 6.) -/
def Obligations.IssueAcceptsEveryWord : Prop :=
  ∀ (s : State) (w : Word) (rest : List HostOp), s.host = .writeReg 0x0C .w32 w :: rest →
    (s.busy = false →
      ∃ t, step s = .next t ∧ t.irq = false ∧
        t = { s with
          cmd := w, busy := true, done := false, err := false, errCode := 0, res0 := 0, res1 := 0, res2 := 0
          errInfo := 0, host := rest, delay := s.delays.headD 0, delays := s.delays.tail }) ∧
    (s.busy = true → coreTurn s = false → step s = .next { afterTake s rest with accErr := true })

/-- R351. A completion step that goes on ends in exactly one of two ways: in an error, which writes
ERRCODE, ERRINFO, ERR and BUSY and leaves all other state as it was; or in a success, which changes only
HIST, TREE, CODE, DMEM, the result registers and the completion fields. -/
def Obligations.CompletionFinishesOrRaises : Prop :=
  ∀ (i : Instr) (s t : State), exec i s = .next t →
    (∃ code info, code ≠ 0 ∧ t = failed s code info) ∨
    (∃ r0 r1 r2, t = succeeded { s with hist := t.hist, tree := t.tree, code := t.code, mem := t.mem } r0 r1 r2)

/-- R352, R368. A command ends with one of its own error codes, or with success. -/
def Obligations.CommandsRaiseOnlyTheirErrors : Prop :=
  ∀ (i : Instr) (s t : State), exec i s = .next t → t.errCode ∈ errCodesOf i

/-! ### What commands leave unchanged -/

/-- The frame of the commands that store nothing: NOP, HIST_CLEAR, HIST_ACC, BUILD, GEN_CODES, DESERIALIZE
and OPTIMIZE.  All of DMEM, the registers the host alone writes, and whichever of HIST, TREE and CODE the
command does not write. -/
def Obligations.NonStoringCommandsFrame : Prop :=
  ∀ (i : Instr) (s t : State),
    i ∈ [Instr.nop, .histClear, .histAcc, .build, .genCodes, .deserialize, .optimize] →
    exec i s = .next t →
    CommandKeeps s t ∧ (∀ a, t.dmem a = s.dmem a) ∧
    (i ∉ [Instr.histClear, .histAcc] → t.hist = s.hist) ∧
    (i ∉ [Instr.build, .deserialize, .optimize] → t.tree = s.tree) ∧
    (i ∉ [Instr.build, .genCodes, .deserialize, .optimize] → t.code = s.code)

/-- The frame of the commands that store: SERIALIZE, PACK, UNPACK, COMPRESS, COMPRESS.O and DECOMPRESS.
A success stores RES0 bytes from DST on and leaves every other byte of DMEM; an error leaves all of it.
HIST changes only under COMPRESS, TREE and CODE only under COMPRESS and DECOMPRESS. -/
def Obligations.StoringCommandsFrame : Prop :=
  ∀ (i : Instr) (s t : State),
    i ∈ [Instr.serialize, .pack, .unpack, .compress, .compressO, .decompress] →
    exec i s = .next t →
    CommandKeeps s t ∧
    (∀ a, (t.errCode ≠ 0 ∨ a < s.dst.toNat ∨ s.dst.toNat + t.res0.toNat ≤ a) → t.dmem a = s.dmem a) ∧
    (i ∉ [Instr.compress, .compressO] → t.hist = s.hist) ∧
    (i ∉ [Instr.compress, .compressO, .decompress] → t.tree = s.tree ∧ t.code = s.code)

/-! ### NOP and the histogram -/

/-- R158. NOP completes in every state, with no effect beyond the completion. -/
def Obligations.NopCompletes : Prop :=
  decode 0x00000000 = .ok .nop ∧ ∀ s : State, exec .nop s = .next (succeeded s 0 0 0)

/-- R181. HIST_CLEAR completes in every state; every counter is then 0 and nothing else has changed. -/
def Obligations.HistClearZeroesEveryCounter : Prop :=
  decode 0x00000001 = .ok .histClear ∧
  ∀ s : State, ∃ t, exec .histClear s = .next t ∧ (∀ x : Byte, t.hist.at x = 0) ∧
    t = succeeded { s with hist := t.hist } 0 0 0

/-- R182. HIST_ACC: the source range is checked first; then the least symbol whose counter would pass
2^32 - 1 is reported and no counter changes; else every counter grows by its symbol's occurrences. -/
def Obligations.HistAccAddsTheCounts : Prop :=
  decode 0x00000002 = .ok .histAcc ∧
  ∀ s : State,
    (s.dmemSize < s.src.toNat + s.slen.toNat → exec .histAcc s = .next (failed s 0x11 0)) ∧
    (s.src.toNat + s.slen.toNat ≤ s.dmemSize →
      (∀ x : Byte, 0xFFFFFFFF < (s.hist.at x).toNat + s.srcBytes.count x →
        (∀ y : Byte, y.toNat < x.toNat → (s.hist.at y).toNat + s.srcBytes.count y ≤ 0xFFFFFFFF) →
        exec .histAcc s = .next (failed s 0x17 (x.setWidth 32))) ∧
      ((∀ x : Byte, (s.hist.at x).toNat + s.srcBytes.count x ≤ 0xFFFFFFFF) →
        ∃ t, exec .histAcc s = .next t ∧
          (∀ x : Byte, (t.hist.at x).toNat = (s.hist.at x).toNat + s.srcBytes.count x) ∧
          t = succeeded { s with hist := t.hist } 0 s.slen
            (BitVec.ofNat 32 (allSymbols.filter fun x => t.hist.at x ≠ 0).length)))

/-- R183. HIST_CLEAR and then HIST_ACC leave the exact table of the source bytes; a second HIST_ACC over
another source leaves the table of the concatenation, as long as no counter overflows. -/
def Obligations.HistogramOfConcatenation : Prop :=
  ∀ (s t : State) (a n : Word), exec .histClear s = .next t →
    s.src.toNat + s.slen.toNat ≤ s.dmemSize →
    ∃ u, exec .histAcc t = .next u ∧
      (∀ x : Byte, (u.hist.at x).toNat = s.srcBytes.count x) ∧
      (a.toNat + n.toNat ≤ s.dmemSize →
        (∀ x : Byte, (s.srcBytes ++ s.memRead a.toNat n.toNat).count x ≤ 0xFFFFFFFF) →
        ∃ v, exec .histAcc { u with src := a, slen := n } = .next v ∧
          ∀ x : Byte, (v.hist.at x).toNat = (s.srcBytes ++ s.memRead a.toNat n.toNat).count x)

/-! ### The tree builder -/

/-- R201. The symbol order lists each present symbol once, a greater count first and among equal counts
the smaller symbol; its first symbol is the first to reach the maximum count in a scan from symbol 0. -/
def Obligations.OrderIsByCountThenSymbol : Prop :=
  ∀ h : SymTable Word,
    (order h).Nodup ∧ (∀ x, x ∈ order h ↔ h.at x ≠ 0) ∧
    (order h).Pairwise (fun a b =>
      (h.at b).toNat < (h.at a).toNat ∨ ((h.at a).toNat = (h.at b).toNat ∧ a.toNat < b.toNat)) ∧
    (∀ done x rest, order h = done ++ x :: rest →
      (∀ y, h.at y ≠ 0 → y ∉ done → (h.at y).toNat ≤ (h.at x).toNat) ∧
      (∀ y, y.toNat < x.toNat → h.at y ≠ 0 → y ∉ done → (h.at y).toNat < (h.at x).toNat))

/-- R203. One present symbol gives a root with two leaves of that symbol. -/
def Obligations.OneSymbolGivesTwoLeaves : Prop :=
  ∀ (h : SymTable Word) (x : Byte), (∀ y, h.at y ≠ 0 ↔ y = x) →
    build h = some (.node (.leaf x) (.leaf x))

/-- R206. A tree built from `m >= 2` present symbols has each of them on exactly one leaf, `m - 1` internal
nodes, and every leaf at depth floor(log2 m) or ceil(log2 m); the tree depends on the order alone. -/
def Obligations.BuiltTreesAreBalanced : Prop :=
  (∀ h : SymTable Word, 2 ≤ (order h).length →
    ∃ t, build h = some t ∧ t.leafSyms.Perm (order h) ∧ t.nodes + 1 = (order h).length ∧
      ∀ p ∈ t.positions 0, p.1 = Nat.log 2 (order h).length ∨ p.1 = Nat.clog 2 (order h).length) ∧
  (∀ h h' : SymTable Word, order h = order h' → build h = build h')

/-- R207. BUILD: an empty table is EMPTY_INPUT and changes nothing else; any other table is built, its node
list of 1 to 255 records stored, and the code table discarded.  The list parses back to the tree. -/
def Obligations.BuildStoresTheBuiltTree : Prop :=
  decode 0x00000003 = .ok .build ∧
  ∀ s : State,
    ((∀ x : Byte, s.hist.at x = 0) → exec .build s = .next (failed s 0x01 0)) ∧
    ((∃ x : Byte, s.hist.at x ≠ 0) →
      ∃ t, build s.hist = some t ∧ 1 ≤ t.records.length ∧ t.records.length ≤ 255 ∧
        parse t.records = .ok t ∧
        exec .build s = .next
          (succeeded { s with tree := some t.records, code := none } 0 0 (BitVec.ofNat 32 t.records.length)))

/-! ### Node lists -/

/-- R205. `rec(T)` has one record for each Node, in postorder: the records of the left subtree, those of
the right subtree, and last the root's, which names a leaf child by its symbol and an internal child by
its postorder number. -/
def Obligations.RecordsArePostorder : Prop :=
  ∀ l r : HTree,
    (HTree.node l r).records.length = (HTree.node l r).nodes ∧
    ∃ rr, (HTree.node l r).records = l.records ++ rr ++
        [⟨(childField l (l.nodes - 1)).1, (childField l (l.nodes - 1)).2,
          (childField r (l.nodes + r.nodes - 1)).1, (childField r (l.nodes + r.nodes - 1)).2⟩] ∧
      rr = (r.number l.nodes).1 ∧ rr.length = r.nodes

/-- R246. Parsing the node list of a tree of at most 255 Nodes gives the tree, and a list that parses is
the node list of its tree. -/
def Obligations.RecordsAndParseAreInverse : Prop :=
  (∀ l r : HTree, (HTree.node l r).nodes ≤ 255 → parse (HTree.node l r).records = .ok (.node l r)) ∧
  (∀ (recs : List NodeRec) (t : HTree), recs.length ≤ 255 → parse recs = .ok t → t.records = recs)

/-- R356. What makes a node list malformed at record `i`, the records before it being in order: a boolean
byte above 0x01, an internal child with no subtree to take, or a value that is not the subtree's number;
and a list that does not end with exactly one subtree is reported with the node count. -/
def Obligations.MalformedListsAreReported : Prop :=
  parse [] = .error 0 ∧
  ∀ (good : List NodeRec) (r : NodeRec) (rest : List NodeRec) (st : List (Nat × HTree)),
    parseLoop 0 good [] = .ok st →
    (1 < r.lk.toNat ∨ 1 < r.rk.toNat → parse (good ++ r :: rest) = .error good.length) ∧
    (r.lk.toNat ≤ 1 → r.rk = 1 → (∀ j u st', st = (j, u) :: st' → j ≠ r.rv.toNat) →
      parse (good ++ r :: rest) = .error good.length) ∧
    (r.lk = 1 → r.rk = 0 → (∀ j u st', st = (j, u) :: st' → j ≠ r.lv.toNat) →
      parse (good ++ r :: rest) = .error good.length) ∧
    (r.lk = 1 → r.rk = 1 → (∀ j u k v st', st = (j, u) :: (k, v) :: st' → k ≠ r.lv.toNat) →
      parse (good ++ r :: rest) = .error good.length) ∧
    (st.length ≠ 1 → parse good = .error good.length)

/-- R241. SERIALIZE: no tree, a list too long for its count byte (no run reaches it), a destination outside
DMEM and a destination too small are errors, in this order; else the image of the node list lies at DST: the
count, then the four bytes of each record. -/
def Obligations.SerializeWritesTheImage : Prop :=
  decode 0x00000005 = .ok .serialize ∧
  ∀ s : State,
    (s.tree = none → exec .serialize s = .next (failed s 0x14 0)) ∧
    (∀ recs, s.tree = some recs → 255 < recs.length → recs.length < 2 ^ 32 →
      exec .serialize s = .next (failed s 0x05 (BitVec.ofNat 32 recs.length))) ∧
    (∀ recs, s.tree = some recs → recs.length ≤ 255 →
      (s.dmemSize < s.dst.toNat + (1 + 4 * recs.length) → exec .serialize s = .next (failed s 0x11 1)) ∧
      (s.dst.toNat + (1 + 4 * recs.length) ≤ s.dmemSize →
        (s.dcap.toNat < 1 + 4 * recs.length →
          exec .serialize s = .next (failed s 0x12 (BitVec.ofNat 32 (1 + 4 * recs.length)))) ∧
        (1 + 4 * recs.length ≤ s.dcap.toNat →
          ∃ t, exec .serialize s = .next t ∧
            t.dmem s.dst.toNat = BitVec.ofNat 8 recs.length ∧
            (∀ (i : Nat) (r : NodeRec), recs[i]? = some r →
              t.dmem (s.dst.toNat + 1 + 4 * i) = r.lk ∧ t.dmem (s.dst.toNat + 2 + 4 * i) = r.lv ∧
              t.dmem (s.dst.toNat + 3 + 4 * i) = r.rk ∧ t.dmem (s.dst.toNat + 4 + 4 * i) = r.rv) ∧
            (∀ a, a < s.dst.toNat ∨ s.dst.toNat + (1 + 4 * recs.length) ≤ a → t.dmem a = s.dmem a) ∧
            t = succeeded { s with mem := t.mem } (BitVec.ofNat 32 (1 + 4 * recs.length)) 0
              (BitVec.ofNat 32 recs.length))))

/-- R245. DESERIALIZE: the source range, the header's length and the node list are checked in this order;
a list that parses becomes TREE, and CODE becomes NONE. -/
def Obligations.DeserializeReadsTheImage : Prop :=
  decode 0x00000006 = .ok .deserialize ∧
  ∀ (s : State) (n : Nat) (recs : List NodeRec),
    n = (s.dmem s.src.toNat).toNat → recs.length = n →
    (∀ (i : Nat) (r : NodeRec), recs[i]? = some r →
      r.lk = s.dmem (s.src.toNat + 1 + 4 * i) ∧ r.lv = s.dmem (s.src.toNat + 2 + 4 * i) ∧
      r.rk = s.dmem (s.src.toNat + 3 + 4 * i) ∧ r.rv = s.dmem (s.src.toNat + 4 + 4 * i)) →
    (s.dmemSize < s.src.toNat + s.slen.toNat → exec .deserialize s = .next (failed s 0x11 0)) ∧
    (s.src.toNat + s.slen.toNat ≤ s.dmemSize →
      (s.slen = 0 → exec .deserialize s = .next (failed s 0x18 1)) ∧
      (s.slen ≠ 0 → s.slen.toNat < 1 + 4 * n →
        exec .deserialize s = .next (failed s 0x18 (BitVec.ofNat 32 (1 + 4 * n)))) ∧
      (1 + 4 * n ≤ s.slen.toNat →
        (∀ i, parse recs = .error i → exec .deserialize s = .next (failed s 0x04 (BitVec.ofNat 32 i))) ∧
        (∀ t, parse recs = .ok t →
          exec .deserialize s = .next
            (succeeded { s with tree := some recs, code := none } 0 (BitVec.ofNat 32 (1 + 4 * n))
              (BitVec.ofNat 32 n)))))

/-- The document's property that serializing and then deserializing a tree gives the same tree, at the
level of the two commands: DESERIALIZE of what SERIALIZE has just written leaves TREE as it was. -/
def Obligations.SerializeThenDeserialize : Prop :=
  ∀ (s t : State), TreeStoreOk s.tree → exec .serialize s = .next t → t.errCode = 0 →
    s.dst.toNat + s.dcap.toNat ≤ s.dmemSize →
    ∃ u, exec .deserialize { t with src := s.dst, slen := s.dcap } = .next u ∧ u.errCode = 0 ∧
      u.tree = s.tree ∧ u.code = none ∧ u.res1 = t.res0

/-! ### Code tables -/

/-- R221, R222. Following a symbol's code from the root, 0 to the left and 1 to the right, ends at a leaf
of that symbol, and of the leaves that carry it at the last one in depth-first order; a symbol at no leaf
has the empty code. -/
def Obligations.CodesFollowTheTree : Prop :=
  ∀ (l r : HTree) (x : Byte),
    (x ∈ (HTree.node l r).leafSyms →
      (HTree.node l r).descend ((HTree.node l r).codes.at x) = some (x, []) ∧
      ∀ p : Bits, (HTree.node l r).descend p = some (x, []) →
        p = (HTree.node l r).codes.at x ∨
        List.Lex (fun a b => a = false ∧ b = true) p ((HTree.node l r).codes.at x)) ∧
    (x ∉ (HTree.node l r).leafSyms → (HTree.node l r).codes.at x = [])

/-- R224. Codes are not empty and at most as long as the tree has Nodes; when no two leaves carry the same
symbol, no code begins another symbol's code; a single-symbol tree gives its symbol the code 1. -/
def Obligations.CodesArePrefixFree : Prop :=
  (∀ (l r : HTree) (x : Byte), x ∈ (HTree.node l r).leafSyms →
    1 ≤ ((HTree.node l r).codes.at x).length ∧
    ((HTree.node l r).codes.at x).length ≤ (HTree.node l r).nodes) ∧
  (∀ (l r : HTree) (x y : Byte), (HTree.node l r).leafSyms.Nodup → x ≠ y →
    x ∈ (HTree.node l r).leafSyms → y ∈ (HTree.node l r).leafSyms →
    ¬ (HTree.node l r).codes.at x <+: (HTree.node l r).codes.at y) ∧
  (∀ x : Byte, (HTree.node (.leaf x) (.leaf x)).codes.at x = [true])

/-- R223. GEN_CODES: NO_TREE without a tree; else the tree's code table becomes CODE, and RES2 holds the
number of symbols with a code and, from bit 16 on, the greatest code length. -/
def Obligations.GenCodesStoresTheCodeTable : Prop :=
  decode 0x00000004 = .ok .genCodes ∧
  ∀ s : State,
    (s.tree = none → exec .genCodes s = .next (failed s 0x14 0)) ∧
    (∀ recs t, s.tree = some recs → recs.length ≤ 255 → parse recs = .ok t →
      ∃ (n longest : Nat),
        n = (allSymbols.filter fun x => t.codes.at x ≠ []).length ∧ n ≤ 256 ∧
        (∀ x, (t.codes.at x).length ≤ longest) ∧ (∃ x, (t.codes.at x).length = longest) ∧ longest ≤ 255 ∧
        exec .genCodes s = .next
          (succeeded { s with code := some t.codes } 0 0 (BitVec.ofNat 32 (n + longest * 2 ^ 16))))

/-! ### Packing and unpacking -/

/-- R273. PACK: no code table, the source range, the first byte without a code, the destination range, the
capacity and the overlap are the errors, in this order; else the concatenated codes of the source bytes
lie at DST, the first bit the most significant of the first byte, zeros after the last. -/
def Obligations.PackWritesTheCodeBits : Prop :=
  decode 0x00000007 = .ok .pack ∧
  ∀ s : State,
    (s.code = none → exec .pack s = .next (failed s 0x15 0)) ∧
    (∀ tab, s.code = some tab →
      (s.dmemSize < s.src.toNat + s.slen.toNat → exec .pack s = .next (failed s 0x11 0)) ∧
      (s.src.toNat + s.slen.toNat ≤ s.dmemSize →
        (∀ i : Nat, i < s.slen.toNat → tab.at (s.dmem (s.src.toNat + i)) = [] →
          (∀ j < i, tab.at (s.dmem (s.src.toNat + j)) ≠ []) →
          exec .pack s = .next (failed s 0x16 (BitVec.ofNat 32 i))) ∧
        (∀ (bits : Bits) (m : Nat), (∀ b ∈ s.srcBytes, tab.at b ≠ []) →
          bits = s.srcBytes.flatMap (fun b => tab.at b) → m = (bits.length + 7) / 8 →
          (s.dmemSize < s.dst.toNat + m → exec .pack s = .next (failed s 0x11 1)) ∧
          (s.dst.toNat + m ≤ s.dmemSize → s.dcap.toNat < m → m < 2 ^ 32 →
            exec .pack s = .next (failed s 0x12 (BitVec.ofNat 32 m))) ∧
          (s.dst.toNat + m ≤ s.dmemSize → m ≤ s.dcap.toNat →
            (overlap s.src.toNat s.slen.toNat s.dst.toNat m = true →
              exec .pack s = .next (failed s 0x13 0)) ∧
            (overlap s.src.toNat s.slen.toNat s.dst.toNat m = false →
              ∃ t, exec .pack s = .next t ∧
                (∀ p, p < 8 * m →
                  (t.dmem (s.dst.toNat + p / 8)).getLsbD (7 - p % 8) = bits.getD p false) ∧
                (∀ a, a < s.dst.toNat ∨ s.dst.toNat + m ≤ a → t.dmem a = s.dmem a) ∧
                t = succeeded { s with mem := t.mem } (BitVec.ofNat 32 m) s.slen
                  (BitVec.ofNat 32 (8 * m - bits.length)))))))

/-- R272. Decoding `L` symbols from a byte list: either the stream begins with the paths of `L` leaves, and
their symbols, the bits of the paths and the bytes that hold them are the answer; or it runs out inside
the path of symbol number `k < L`, and the answer is TRUNCATED_STREAM(k). -/
def Obligations.UnpackbitsDecodesOrRunsOut : Prop :=
  ∀ (l r : HTree) (bytes : List Byte) (count : Nat),
    (∃ (paths : List Bits) (out : List Byte) (rest : Bits),
      paths.length = count ∧
      paths.map (HTree.node l r).descend = out.map (fun x => some (x, [])) ∧
      bitsOfBytes bytes = paths.flatten ++ rest ∧
      unpackbits (.node l r) bytes count = .ok (out, paths.flatten.length, (paths.flatten.length + 7) / 8)) ∨
    (∃ (k : Nat) (paths : List Bits) (out : List Byte) (rest : Bits),
      k < count ∧ paths.length = k ∧
      paths.map (HTree.node l r).descend = out.map (fun x => some (x, [])) ∧
      bitsOfBytes bytes = paths.flatten ++ rest ∧ (HTree.node l r).descend rest = none ∧
      unpackbits (.node l r) bytes count = .error (.raised (.truncatedStream k)))

/-- R276. UNPACK: no tree, the source range, the destination range for CNT bytes, the capacity, the overlap
and a stream that runs out are the errors, in this order; else the CNT decoded symbols lie at DST. -/
def Obligations.UnpackWritesTheSymbols : Prop :=
  decode 0x00000008 = .ok .unpack ∧
  ∀ s : State,
    (s.tree = none → exec .unpack s = .next (failed s 0x14 0)) ∧
    (∀ recs t, s.tree = some recs → parse recs = .ok t →
      (s.dmemSize < s.src.toNat + s.slen.toNat → exec .unpack s = .next (failed s 0x11 0)) ∧
      (s.src.toNat + s.slen.toNat ≤ s.dmemSize →
        (s.dmemSize < s.dst.toNat + s.cnt.toNat → exec .unpack s = .next (failed s 0x11 1)) ∧
        (s.dst.toNat + s.cnt.toNat ≤ s.dmemSize →
          (s.dcap.toNat < s.cnt.toNat → exec .unpack s = .next (failed s 0x12 s.cnt)) ∧
          (s.cnt.toNat ≤ s.dcap.toNat →
            (overlap s.src.toNat s.slen.toNat s.dst.toNat s.cnt.toNat = true →
              exec .unpack s = .next (failed s 0x13 0)) ∧
            (overlap s.src.toNat s.slen.toNat s.dst.toNat s.cnt.toNat = false →
              (∀ k, unpackbits t s.srcBytes s.cnt.toNat = .error (.raised (.truncatedStream k)) →
                exec .unpack s = .next (failed s 0x03 (BitVec.ofNat 32 k))) ∧
              (∀ out used consumed, unpackbits t s.srcBytes s.cnt.toNat = .ok (out, used, consumed) →
                ∃ u, exec .unpack s = .next u ∧
                  (∀ i : Nat, i < s.cnt.toNat → some (u.dmem (s.dst.toNat + i)) = out[i]?) ∧
                  (∀ a, a < s.dst.toNat ∨ s.dst.toNat + s.cnt.toNat ≤ a → u.dmem a = s.dmem a) ∧
                  u = succeeded { s with mem := u.mem } s.cnt (BitVec.ofNat 32 consumed)
                    (BitVec.ofNat 32 (8 * consumed - used))))))))

/-- R277. Unpacking what was packed with the code table of a tree gives the data back, uses exactly the
bits that are no pad, and consumes every byte.  (The rule asks for distinct leaf symbols, or for the
single-symbol tree; it holds for every tree whose root is a Node.) -/
def Obligations.UnpackInvertsPack : Prop :=
  ∀ (l r : HTree) (data out : List Byte) (pad : Nat),
    packbits data (HTree.node l r).codes = .ok (out, pad) →
    pad < 8 ∧
    unpackbits (.node l r) out data.length = .ok (data, 8 * out.length - pad, out.length)

/-! ### The optimizer -/

/-- R302, R304. The optimizer keeps the shape: the same depth at every position, the same records but for
the value bytes of leaf children, and the same symbols on the leaves. -/
def Obligations.OptimizeKeepsTheShape : Prop :=
  ∀ (l r t' : HTree) (h : SymTable Word) (n : Nat), optimize (.node l r) h = .ok (t', n) →
    (t'.positions 0).map Prod.fst = ((HTree.node l r).positions 0).map Prod.fst ∧
    t'.leafSyms.Perm (HTree.node l r).leafSyms ∧
    t'.records.length = (HTree.node l r).records.length ∧
    ∀ (i : Nat) (a b : NodeRec), (HTree.node l r).records[i]? = some a → t'.records[i]? = some b →
      a.lk = b.lk ∧ a.rk = b.rk ∧ (a.lk = 1 → a.lv = b.lv) ∧ (a.rk = 1 → a.rv = b.rv)

/-- R304. The weighted code length of the optimizer's tree is the least over all assignments of its symbols
to its positions. -/
def Obligations.OptimizeMinimisesTheWeightedLength : Prop :=
  ∀ (l r t' : HTree) (h : SymTable Word) (n : Nat), optimize (.node l r) h = .ok (t', n) →
    ∀ syms : List Byte, syms.Perm (HTree.node l r).leafSyms →
      ((t'.positions 0).map fun p => p.1 * (h.at p.2).toNat).sum ≤
      (((((HTree.node l r).positions 0).map Prod.fst).zip syms).map fun p => p.1 * (h.at p.2).toNat).sum

/-- R304. The optimizer leaves its own result unchanged, with count 0. -/
def Obligations.OptimizeIsIdempotent : Prop :=
  ∀ (l r t' : HTree) (h : SymTable Word) (n : Nat), optimize (.node l r) h = .ok (t', n) →
    optimize t' h = .ok (t', 0)

/-- R302. With two or more symbols present, the optimizer pairs the positions, the smaller depth first and
among equal depths the first in DFS order, with the symbols, the greater count first and among equal counts
the smaller symbol. -/
def Obligations.OptimizeAssignsPairwise : Prop :=
  ∀ (l r t' : HTree) (h : SymTable Word) (n : Nat), optimize (.node l r) h = .ok (t', n) →
    2 ≤ (allSymbols.filter fun y => h.at y ≠ 0).length →
    ∀ (i j di dj : Nat) (x y : Byte),
      (t'.positions 0)[i]? = some (di, x) → (t'.positions 0)[j]? = some (dj, y) →
      (di < dj ∨ (di = dj ∧ i < j)) →
      (h.at y).toNat < (h.at x).toNat ∨ ((h.at x).toNat = (h.at y).toNat ∧ x.toNat < y.toNat)

/-- R354. SYMSET_MISMATCH: the least symbol in exactly one of the leaf set and the set of present symbols;
or, when the sets agree and two or more symbols are present, 0x100 and the least symbol on two or more
leaves.  Nothing else changes. -/
def Obligations.SymbolSetMismatchIsReported : Prop :=
  ∀ (s : State) (recs : List NodeRec) (t : HTree) (x : Byte),
    s.tree = some recs → parse recs = .ok t →
    (¬ (x ∈ t.leafSyms ↔ s.hist.at x ≠ 0) →
      (∀ y : Byte, y.toNat < x.toNat → (y ∈ t.leafSyms ↔ s.hist.at y ≠ 0)) →
      exec .optimize s = .next (failed s 0x02 (x.setWidth 32))) ∧
    ((∀ y : Byte, y ∈ t.leafSyms ↔ s.hist.at y ≠ 0) →
      2 ≤ (allSymbols.filter fun y => s.hist.at y ≠ 0).length →
      2 ≤ t.leafSyms.count x → (∀ y : Byte, y.toNat < x.toNat → t.leafSyms.count y < 2) →
      exec .optimize s = .next (failed s 0x02 (0x100 + x.setWidth 32)))

/-- R303. OPTIMIZE completes when its tree's leaf symbols are the present symbols and either one symbol is
present or no symbol is on two leaves; the optimized tree's node list becomes TREE, CODE becomes NONE, and
RES2 counts the positions whose symbol changed.  Without a tree it is NO_TREE; where `optimize` finds a
mismatch it is SYMSET_MISMATCH. -/
def Obligations.OptimizeReassignsTheLeaves : Prop :=
  decode 0x00000009 = .ok .optimize ∧
  ∀ s : State,
    (s.tree = none → exec .optimize s = .next (failed s 0x14 0)) ∧
    (∀ recs t x, s.tree = some recs → parse recs = .ok t →
      optimize t s.hist = .error (.raised (.symsetMismatch x)) →
      exec .optimize s = .next (failed s 0x02 (BitVec.ofNat 32 x))) ∧
    (∀ recs t, s.tree = some recs → parse recs = .ok t →
      (∀ y : Byte, y ∈ t.leafSyms ↔ s.hist.at y ≠ 0) →
      ((allSymbols.filter fun y => s.hist.at y ≠ 0).length = 1 ∨ t.leafSyms.Nodup) →
      ∃ t' n, optimize t s.hist = .ok (t', n) ∧
        n = ((t'.leafSyms.zip t.leafSyms).filter fun p => p.1 ≠ p.2).length ∧
        exec .optimize s = .next
          (succeeded { s with tree := some t'.records, code := none } 0 0 (BitVec.ofNat 32 n)))

/-! ### COMPRESS and DECOMPRESS -/

/-- R321. COMPRESS and COMPRESS.O: the source range, an empty input, the destination range, the capacity
and the overlap are the errors, in this order; nothing inside can fail.  A success writes the node count,
the records, the length and the packed bits, and replaces HIST, TREE and CODE. -/
def Obligations.CompressWritesTheStream : Prop :=
  decode 0x0000000A = .ok (compressInstr false) ∧ decode 0x0000010A = .ok (compressInstr true) ∧
  ∀ (s : State) (o : Bool),
    (s.dmemSize < s.src.toNat + s.slen.toNat → exec (compressInstr o) s = .next (failed s 0x11 0)) ∧
    (s.src.toNat + s.slen.toNat ≤ s.dmemSize →
      (s.slen = 0 → exec (compressInstr o) s = .next (failed s 0x01 0)) ∧
      (s.slen ≠ 0 →
        ∃ (h : SymTable Word) (t0 t : HTree) (packed out : List Byte) (pad : Nat),
          (∀ x : Byte, (h.at x).toNat = s.srcBytes.count x) ∧ build h = some t0 ∧
          (o = false → t = t0) ∧ (o = true → ∃ n, optimize t0 h = .ok (t, n)) ∧
          1 ≤ t.records.length ∧ t.records.length ≤ 255 ∧ parse t.records = .ok t ∧
          packbits s.srcBytes t.codes = .ok (packed, pad) ∧
          out = [BitVec.ofNat 8 t.records.length] ++ t.records.flatMap (fun r => [r.lk, r.lv, r.rk, r.rv]) ++
            [s.slen.extractLsb' 0 8, s.slen.extractLsb' 8 8, s.slen.extractLsb' 16 8,
              s.slen.extractLsb' 24 8] ++ packed ∧
          (s.dmemSize < s.dst.toNat + out.length → exec (compressInstr o) s = .next (failed s 0x11 1)) ∧
          (s.dst.toNat + out.length ≤ s.dmemSize → s.dcap.toNat < out.length → out.length < 2 ^ 32 →
            exec (compressInstr o) s = .next (failed s 0x12 (BitVec.ofNat 32 out.length))) ∧
          (s.dst.toNat + out.length ≤ s.dmemSize → out.length ≤ s.dcap.toNat →
            (overlap s.src.toNat s.slen.toNat s.dst.toNat out.length = true →
              exec (compressInstr o) s = .next (failed s 0x13 0)) ∧
            (overlap s.src.toNat s.slen.toNat s.dst.toNat out.length = false →
              ∃ u, exec (compressInstr o) s = .next u ∧
                (∀ i : Nat, i < out.length → some (u.dmem (s.dst.toNat + i)) = out[i]?) ∧
                (∀ a, a < s.dst.toNat ∨ s.dst.toNat + out.length ≤ a → u.dmem a = s.dmem a) ∧
                u = succeeded { s with
                    hist := h, tree := some t.records, code := some t.codes, mem := u.mem }
                  (BitVec.ofNat 32 out.length) s.slen (BitVec.ofNat 32 pad)))))

/-- R322. A COMPRESS that succeeds leaves the HIST, TREE, CODE and DMEM that HIST_CLEAR, HIST_ACC, BUILD,
OPTIMIZE (for O = 1), GEN_CODES, SERIALIZE at DST, the four length bytes and PACK behind them leave. -/
def Obligations.CompressIsTheUnitSequence : Prop :=
  ∀ (s t : State) (o : Bool), s.cfg.wellFormed = true →
    exec (compressInstr o) s = .next t → t.errCode = 0 →
    ∃ s1 s2 s3 s4 s5 s6 s7 n,
      exec .histClear s = .next s1 ∧ exec .histAcc s1 = .next s2 ∧ s2.errCode = 0 ∧
      exec .build s2 = .next s3 ∧ s3.errCode = 0 ∧
      (if o then exec .optimize s3 = .next s4 ∧ s4.errCode = 0 else s4 = s3) ∧
      exec .genCodes s4 = .next s5 ∧ s5.errCode = 0 ∧
      exec .serialize s5 = .next s6 ∧ s6.errCode = 0 ∧ n = s6.res0.toNat ∧
      exec .pack { s6 with
          mem := s6.mem.write (s.dst.toNat + n) [s.slen.extractLsb' 0 8, s.slen.extractLsb' 8 8,
            s.slen.extractLsb' 16 8, s.slen.extractLsb' 24 8]
          dst := BitVec.ofNat 32 (s.dst.toNat + n + 4)
          dcap := BitVec.ofNat 32 (s.dcap.toNat - (n + 4)) } = .next s7 ∧ s7.errCode = 0 ∧
      t.hist = s7.hist ∧ t.tree = s7.tree ∧ t.code = s7.code ∧ (∀ a, t.dmem a = s7.dmem a) ∧
      t.res0.toNat = n + 4 + s7.res0.toNat ∧ t.res2 = s7.res2

/-- R324. DECOMPRESS: the source range, the header's length, the node list, the destination range for the
declared length, the capacity, the overlap and a stream that runs out are the errors, in this order; else
the decoded bytes lie at DST, the node list becomes TREE and CODE becomes NONE. -/
def Obligations.DecompressWritesTheBytes : Prop :=
  decode 0x0000000B = .ok .decompress ∧
  ∀ (s : State) (n len : Nat) (recs : List NodeRec),
    n = (s.dmem s.src.toNat).toNat → recs.length = n →
    (∀ (i : Nat) (r : NodeRec), recs[i]? = some r →
      r.lk = s.dmem (s.src.toNat + 1 + 4 * i) ∧ r.lv = s.dmem (s.src.toNat + 2 + 4 * i) ∧
      r.rk = s.dmem (s.src.toNat + 3 + 4 * i) ∧ r.rv = s.dmem (s.src.toNat + 4 + 4 * i)) →
    len = (s.dmem (s.src.toNat + 1 + 4 * n)).toNat + (s.dmem (s.src.toNat + 2 + 4 * n)).toNat * 2 ^ 8 +
      (s.dmem (s.src.toNat + 3 + 4 * n)).toNat * 2 ^ 16 +
      (s.dmem (s.src.toNat + 4 + 4 * n)).toNat * 2 ^ 24 →
    (s.dmemSize < s.src.toNat + s.slen.toNat → exec .decompress s = .next (failed s 0x11 0)) ∧
    (s.src.toNat + s.slen.toNat ≤ s.dmemSize →
      (s.slen = 0 → exec .decompress s = .next (failed s 0x18 1)) ∧
      (s.slen ≠ 0 → s.slen.toNat < 5 + 4 * n →
        exec .decompress s = .next (failed s 0x18 (BitVec.ofNat 32 (5 + 4 * n)))) ∧
      (5 + 4 * n ≤ s.slen.toNat →
        (∀ i, parse recs = .error i → exec .decompress s = .next (failed s 0x04 (BitVec.ofNat 32 i))) ∧
        (∀ t, parse recs = .ok t →
          (s.dmemSize < s.dst.toNat + len → exec .decompress s = .next (failed s 0x11 1)) ∧
          (s.dst.toNat + len ≤ s.dmemSize →
            (s.dcap.toNat < len → exec .decompress s = .next (failed s 0x12 (BitVec.ofNat 32 len))) ∧
            (len ≤ s.dcap.toNat →
              (overlap s.src.toNat s.slen.toNat s.dst.toNat len = true →
                exec .decompress s = .next (failed s 0x13 0)) ∧
              (overlap s.src.toNat s.slen.toNat s.dst.toNat len = false →
                ∀ bytes, bytes = s.memRead (s.src.toNat + 5 + 4 * n) (s.slen.toNat - (5 + 4 * n)) →
                  (∀ k, unpackbits t bytes len = .error (.raised (.truncatedStream k)) →
                    exec .decompress s = .next (failed s 0x03 (BitVec.ofNat 32 k))) ∧
                  (∀ out used consumed, unpackbits t bytes len = .ok (out, used, consumed) →
                    ∃ u, exec .decompress s = .next u ∧
                      (∀ i : Nat, i < len → some (u.dmem (s.dst.toNat + i)) = out[i]?) ∧
                      (∀ a, a < s.dst.toNat ∨ s.dst.toNat + len ≤ a → u.dmem a = s.dmem a) ∧
                      u = succeeded { s with tree := some recs, code := none, mem := u.mem }
                        (BitVec.ofNat 32 len) (BitVec.ofNat 32 (5 + 4 * n + consumed))
                        (BitVec.ofNat 32 (8 * consumed - used)))))))))

/-- R325. DECOMPRESS of the stream that COMPRESS (with either O bit) has just written gives the input bytes
back, with RES0 their number and RES1 the stream's length. -/
def Obligations.DecompressInvertsCompress : Prop :=
  ∀ (s t : State) (o : Bool) (d c : Word), exec (compressInstr o) s = .next t → t.errCode = 0 →
    d.toNat + s.slen.toNat ≤ s.dmemSize → s.slen.toNat ≤ c.toNat →
    overlap s.dst.toNat t.res0.toNat d.toNat s.slen.toNat = false →
    ∃ u, exec .decompress { t with src := s.dst, slen := t.res0, dst := d, dcap := c } = .next u ∧
      u.errCode = 0 ∧ u.done = true ∧ u.memRead d.toNat s.slen.toNat = s.srcBytes ∧
      (∀ a, a < d.toNat ∨ d.toNat + s.slen.toNat ≤ a → u.dmem a = t.dmem a) ∧
      u.res0 = s.slen ∧ u.res1 = t.res0

/-! ### The shared checks -/

/-- R153. Two ranges overlap exactly when they share a byte address; an empty range overlaps nothing. -/
def Obligations.OverlapIsASharedByte : Prop :=
  ∀ a n b m : Nat,
    (overlap a n b m = true ↔ 0 < n ∧ 0 < m ∧ a < b + m ∧ b < a + n) ∧
    (overlap a n b m = true ↔ ∃ x, a ≤ x ∧ x < a + n ∧ b ≤ x ∧ x < b + m)

/-- R89. What a command does depends on DMEM through its source range alone: with other bytes anywhere
else, every register, HIST, TREE and CODE come out the same, and so does every byte it stores. -/
def Obligations.CommandsReadOnlyTheirSource : Prop :=
  ∀ (i : Instr) (s t : State) (m : Memory), exec i s = .next t →
    (∀ a, s.src.toNat ≤ a → a < s.src.toNat + s.slen.toNat →
      State.dmem { s with mem := m } a = s.dmem a) →
    ∃ t', exec i { s with mem := m } = .next t' ∧ t' = { t with mem := t'.mem } ∧
      ∀ a, t'.dmem a = t.dmem a ∨ (t'.dmem a = State.dmem { s with mem := m } a ∧ t.dmem a = s.dmem a)

/-! ### The host's accesses -/

/-- R85, R86. An access that is not performed (too narrow, misaligned, reserved, outside DMEM, or locked
while BUSY = 1) has no effect but ACCERR, and a refused read returns 0; IRQ does not move. -/
def Obligations.RefusedAccessesOnlySetAccerr : Prop :=
  ∀ (s : State) (op : HostOp) (rest : List HostOp),
    coreTurn s = false → s.host = op :: rest → performed s op = false →
    ∃ t, step s = .next t ∧ t.irq = s.irq ∧
      (∀ off w, op = .readReg off w → t = { afterTake s rest with accErr := true, rdata := 0 }) ∧
      (∀ a w, op = .readMem a w → t = { afterTake s rest with accErr := true, rdata := 0 }) ∧
      (∀ off w v, op = .writeReg off w v → t = { afterTake s rest with accErr := true }) ∧
      (∀ a w v, op = .writeMem a w v → t = { afterTake s rest with accErr := true })

/-- R82. A performed register read returns the register and changes nothing else of the block, but for
HIST_DATA, which advances HIST_IDX. -/
def Obligations.RegisterReadsReturnTheRegisters : Prop :=
  ∀ (s : State) (off : Byte) (rest : List HostOp),
    coreTurn s = false → s.host = .readReg off .w32 :: rest → performed s (.readReg off .w32) = true →
    ∃ v, step s = .next { afterTake s rest with
        rdata := v, histIdx := if off = 0x44 then s.histIdx + 1 else s.histIdx } ∧
      (off = 0x00 → v = s.idWord) ∧ (off = 0x04 → v = (BitVec.ofBool s.ie).setWidth 32) ∧
      (off = 0x08 → v = s.statusWord) ∧ (off = 0x0C → v = s.cmd) ∧ (off = 0x10 → v = s.src) ∧ (off = 0x14 → v = s.slen) ∧
      (off = 0x18 → v = s.dst) ∧ (off = 0x1C → v = s.dcap) ∧ (off = 0x20 → v = s.cnt) ∧
      (off = 0x24 → v = s.res0) ∧ (off = 0x28 → v = s.res1) ∧ (off = 0x2C → v = s.res2) ∧
      (off = 0x30 → v = s.errInfo) ∧ (off = 0x34 → v = s.treeInfoWord) ∧
      (off = 0x40 → v = s.histIdx.setWidth 32) ∧ (off = 0x44 → v = s.hist.at s.histIdx) ∧
      (off = 0x48 → v = s.codeIdx.setWidth 32) ∧
      (off = 0x4C → v = BitVec.ofNat 32 (s.windowCode.length % 256)) ∧
      (∀ k : Fin 8, off = BitVec.ofNat 8 (0x50 + 4 * k.val) → v = s.codeBitsWord k) ∧
      (off = 0x70 → v = s.nodeIdx.setWidth 32) ∧ (off = 0x74 → v = s.nodeDataWord)

/-- R83. A performed register write (of another register than CMD and STATUS, which have their own
statements) updates the writable fields of the register and nothing else of the block; a write of a
read-only register is ignored and does not set ACCERR. -/
def Obligations.RegisterWritesUpdateTheFields : Prop :=
  ∀ (s : State) (off : Byte) (v : Word) (rest : List HostOp),
    coreTurn s = false → s.host = .writeReg off .w32 v :: rest →
    performed s (.writeReg off .w32 v) = true →
    (off = 0x04 → step s = .next { afterTake s rest with ie := v.getLsbD 0 }) ∧
    (off = 0x10 → step s = .next { afterTake s rest with src := v }) ∧
    (off = 0x14 → step s = .next { afterTake s rest with slen := v }) ∧
    (off = 0x18 → step s = .next { afterTake s rest with dst := v }) ∧
    (off = 0x1C → step s = .next { afterTake s rest with dcap := v }) ∧
    (off = 0x20 → step s = .next { afterTake s rest with cnt := v }) ∧
    (off = 0x40 → step s = .next { afterTake s rest with histIdx := v.extractLsb' 0 8 }) ∧
    (off = 0x44 → ∃ h : SymTable Word,
      (∀ x : Byte, h.at x = if x = s.histIdx then v else s.hist.at x) ∧
      step s = .next { afterTake s rest with hist := h, histIdx := s.histIdx + 1 }) ∧
    (off = 0x48 → step s = .next { afterTake s rest with codeIdx := v.extractLsb' 0 8 }) ∧
    (off = 0x70 → step s = .next { afterTake s rest with nodeIdx := v.extractLsb' 0 8 }) ∧
    (off ∈ [0x00#8, 0x24#8, 0x28#8, 0x2C#8, 0x30#8, 0x34#8, 0x4C#8, 0x50#8, 0x54#8, 0x58#8, 0x5C#8, 0x60#8,
        0x64#8, 0x68#8, 0x6C#8, 0x74#8] →
      step s = .next (afterTake s rest))

/-- R35. The fields of STATUS stand at their bits, reserved bits read 0, TREE_VALID and CODE_VALID follow
TREE and CODE; a write of STATUS, busy or not, clears each of DONE, ERR and ACCERR whose bit is 1 in the
written word and leaves every other field. -/
def Obligations.StatusFieldsAndTheirClearing : Prop :=
  (∀ s : State,
    s.statusWord.getLsbD 0 = s.busy ∧ s.statusWord.getLsbD 1 = s.done ∧ s.statusWord.getLsbD 2 = s.err ∧
    s.statusWord.getLsbD 3 = s.accErr ∧ s.statusWord.getLsbD 4 = s.tree.isSome ∧
    s.statusWord.getLsbD 5 = s.code.isSome ∧ s.statusWord.extractLsb' 6 2 = 0 ∧
    s.statusWord.extractLsb' 8 8 = s.errCode ∧ s.statusWord.extractLsb' 16 16 = 0) ∧
  (∀ (s : State) (v : Word) (rest : List HostOp),
    coreTurn s = false → s.host = .writeReg 0x08 .w32 v :: rest →
    step s = .next { afterTake s rest with
      done := s.done && !v.getLsbD 1, err := s.err && !v.getLsbD 2, accErr := s.accErr && !v.getLsbD 3 })

/-- R50. IRQ is CTRL.IE and (DONE or ERR); it moves only when one of those three bits does; ACCERR does not
drive it; it is 0 after reset. -/
def Obligations.InterruptFollowsCompletion : Prop :=
  (∀ s : State, s.irq = true ↔ s.ie = true ∧ (s.done = true ∨ s.err = true)) ∧
  (∀ s t : State, s.ie = t.ie → s.done = t.done → s.err = t.err → s.irq = t.irq) ∧
  (∀ (s : State) (b : Bool), State.irq { s with accErr := b } = s.irq) ∧ State.reset.irq = false

/-- R33, R39. ID holds MAGIC, VERSION and DMEM_AW, the same before and after reset; TREEINFO holds the number
of records of the tree store. -/
def Obligations.IdentificationAndTreeInfo : Prop :=
  (∀ s : State, s.cfg.wellFormed = true →
    s.idWord.extractLsb' 16 16 = 0x4843 ∧ s.idWord.extractLsb' 8 8 = 0x01 ∧
    (s.idWord.extractLsb' 0 8).toNat = s.cfg.dmemAw ∧ (resetBlock s).idWord = s.idWord) ∧
  (∀ s : State, TreeStoreOk s.tree →
    (s.tree = none → s.treeInfoWord = 0) ∧
    (∀ recs, s.tree = some recs → s.treeInfoWord.toNat = recs.length)) ∧
  State.reset.treeInfoWord = 0

/-- R45. NODE_DATA reads the record of NODE_IDX, its four bytes little-endian, and 0 where there is none. -/
def Obligations.NodeWindowReadsTheRecord : Prop :=
  ∀ s : State,
    (s.tree = none → s.nodeDataWord = 0) ∧
    (∀ recs, s.tree = some recs →
      (recs.length ≤ s.nodeIdx.toNat → s.nodeDataWord = 0) ∧
      (∀ r, recs[s.nodeIdx.toNat]? = some r →
        s.nodeDataWord.toNat =
          r.lk.toNat + r.lv.toNat * 2 ^ 8 + r.rk.toNat * 2 ^ 16 + r.rv.toNat * 2 ^ 24))

/-- R47. The CODE window reads the code of CODE_IDX: bit `31 - j` of CODE_BITSk is the code's bit `32k + j`,
0 past its end, and all of it is 0 when CODE = NONE. -/
def Obligations.CodeWindowReadsTheCode : Prop :=
  ∀ s : State,
    (s.code = none → s.windowCode = []) ∧ (∀ tab, s.code = some tab → s.windowCode = tab.at s.codeIdx) ∧
    ∀ (k : Fin 8) (j : Nat), j < 32 →
      (s.codeBitsWord k).getLsbD (31 - j) = s.windowCode.getD (32 * k.val + j) false

/-- R84. Host accesses of DMEM: a performed write of `W` bytes at `a` sets byte `a + i` to bits `8i+7:8i` of
the value and no other byte; a performed read returns the bytes little-endian, the rest of the word 0, and
changes nothing; any other access is refused. -/
def Obligations.DmemAccessesAreLittleEndian : Prop :=
  ∀ (s : State) (a : Nat) (w : Width) (rest : List HostOp), coreTurn s = false →
    (s.host = .readMem a w :: rest →
      (performed s (.readMem a w) = true →
        ∃ v : Word, step s = .next { afterTake s rest with rdata := v } ∧
          (∀ i : Nat, i < w.bytes → v.extractLsb' (8 * i) 8 = s.dmem (a + i)) ∧ v.toNat < 2 ^ (8 * w.bytes)) ∧
      (performed s (.readMem a w) = false →
        step s = .next { afterTake s rest with accErr := true, rdata := 0 })) ∧
    (∀ v : Word, s.host = .writeMem a w v :: rest →
      (performed s (.writeMem a w v) = true →
        ∃ t, step s = .next t ∧ t = { afterTake s rest with mem := t.mem } ∧
          (∀ i : Nat, i < w.bytes → t.dmem (a + i) = v.extractLsb' (8 * i) 8) ∧
          (∀ b, b < a ∨ a + w.bytes ≤ b → t.dmem b = s.dmem b)) ∧
      (performed s (.writeMem a w v) = false →
        step s = .next { afterTake s rest with accErr := true }))

/-! ### Reset -/

/-- R391. The state after reset: the values the rule lists, as the host reads them.  (DMEM is unspecified:
nothing is said of it.) -/
def Obligations.ResetValues : Prop :=
  State.reset.idWord.extractLsb' 8 24 = 0x484301 ∧
  (State.reset.cfg.dmemAw = 16 → State.reset.idWord = 0x48430110) ∧
  (∀ s : State, (resetBlock s).idWord = s.idWord) ∧ State.reset.ctrlWord = 0 ∧ State.reset.statusWord = 0 ∧
  State.reset.cmd = 0 ∧
  State.reset.src = 0 ∧ State.reset.slen = 0 ∧ State.reset.dst = 0 ∧ State.reset.dcap = 0 ∧
  State.reset.cnt = 0 ∧ State.reset.res0 = 0 ∧ State.reset.res1 = 0 ∧ State.reset.res2 = 0 ∧
  State.reset.errInfo = 0 ∧ State.reset.treeInfoWord = 0 ∧ (∀ x : Byte, State.reset.hist.at x = 0) ∧
  State.reset.histIdx = 0 ∧ State.reset.codeIdx = 0 ∧ State.reset.nodeIdx = 0 ∧
  State.reset.tree = none ∧ State.reset.code = none ∧ State.reset.windowCode = [] ∧
  (∀ k : Fin 8, State.reset.codeBitsWord k = 0) ∧ State.reset.nodeDataWord = 0 ∧
  State.reset.busy = false ∧ State.reset.irq = false

/-- R390, R393. The reset input, in any state in which the host's step comes, a command in flight or not:
one step leaves the reset value in every register and array, and no command in flight.  (The OPEN
parameters, the host's remaining operations and the number of the power-on draw are the model's: logs 1, 2,
5, 6.) -/
def Obligations.ResetAbandonsTheCommand : Prop :=
  ∀ (s : State) (rest : List HostOp), coreTurn s = false → s.host = .reset :: rest →
    ∃ t, step s = .next t ∧
      t = { State.reset with
        cfg := s.cfg, mem := t.mem, draw := t.draw, host := rest, delays := s.delays, rdata := t.rdata }

/-! ### Invariants and whole runs -/

/-- The reset state meets the invariant. -/
def Obligations.ResetStateIsGood : Prop := Inv State.reset

/-- Every step, from every state that meets the invariant, leaves a state that meets it: memory stays
canonical and inside DMEM (R48), TREE is the node list of a tree (R43, R44), CODE is the code table of
TREE (R46), DONE and ERR are never 1 together (R35), a command in flight has its completion fields clear
(R150), and ERRCODE holds a code of R352, never HEADER_OVERFLOW (R357). -/
def Obligations.StepKeepsTheInvariant : Prop :=
  ∀ s t : State, Inv s → step s = .next t → Inv t

/-- From a state that meets the invariant no run ever stops: no behaviour of the block hangs, no step is a
fault and none is refused. -/
def Obligations.GoodStatesNeverStop : Prop := ∀ s : State, Inv s → SafeRun s

/-- R402. A command in flight completes, unless a reset comes first: after at most `delay` host steps, none
of which changes CMD, the arguments, HIST, TREE, CODE or a byte of DMEM, the completion step runs. -/
def Obligations.CommandInFlightCompletes : Prop :=
  ∀ s : State, s.busy = true → (∀ op ∈ s.host, op ≠ .reset) →
    ∃ n t, n ≤ s.delay ∧ Host.Core.run Sys2Proof.core n s = .next t ∧ coreTurn t = true ∧
      t.cmd = s.cmd ∧ t.src = s.src ∧ t.slen = s.slen ∧ t.dst = s.dst ∧ t.dcap = s.dcap ∧ t.cnt = s.cnt ∧
      t.hist = s.hist ∧ t.tree = s.tree ∧ t.code = s.code ∧ (∀ a, t.dmem a = s.dmem a) ∧
      step t = complete t

/-- R46, R399. A command that changes TREE, other than COMPRESS, leaves CODE = NONE, and PACK then fails
with NO_CODES; HIST_CLEAR and HIST_ACC leave TREE and CODE. -/
def Obligations.TreeChangeDiscardsTheCodeTable : Prop :=
  (∀ (i : Instr) (s t : State), i ≠ .compress → i ≠ .compressO → exec i s = .next t → t.tree ≠ s.tree →
    t.code = none ∧ exec .pack t = .next (failed t 0x15 0)) ∧
  (∀ (i : Instr) (s t : State), i = .histClear ∨ i = .histAcc → exec i s = .next t →
    t.tree = s.tree ∧ t.code = s.code)

/-- R80. Where the platform places the two targets is of no consequence: with other bases the step does the
same. -/
def Obligations.PlatformBasesDoNotMatter : Prop :=
  ∀ (s t : State) (r d : Nat), step s = .next t →
    step { s with cfg := { s.cfg with regBase := r, dmemBase := d } } =
      .next { t with cfg := { t.cfg with regBase := r, dmemBase := d } }
end

