-- ==== Sys2Proof/Laws/State.lean ====
section
/-! SUPPORT. The fields of State after each named update: one lemma per field per update, so that no
later proof unfolds a record update. -/

namespace Sys2Proof.Machine

/-! ### finish -/

@[simp] theorem finish_cfg (s : State) (a b c : Nat) : (finish s a b c).cfg = s.cfg := rfl
@[simp] theorem finish_ie (s : State) (a b c : Nat) : (finish s a b c).ie = s.ie := rfl
@[simp] theorem finish_busy (s : State) (a b c : Nat) : (finish s a b c).busy = false := rfl
@[simp] theorem finish_done (s : State) (a b c : Nat) : (finish s a b c).done = true := rfl
@[simp] theorem finish_err (s : State) (a b c : Nat) : (finish s a b c).err = s.err := rfl
@[simp] theorem finish_accErr (s : State) (a b c : Nat) : (finish s a b c).accErr = s.accErr := rfl
@[simp] theorem finish_errCode (s : State) (a b c : Nat) : (finish s a b c).errCode = 0 := rfl
@[simp] theorem finish_cmd (s : State) (a b c : Nat) : (finish s a b c).cmd = s.cmd := rfl
@[simp] theorem finish_src (s : State) (a b c : Nat) : (finish s a b c).src = s.src := rfl
@[simp] theorem finish_slen (s : State) (a b c : Nat) : (finish s a b c).slen = s.slen := rfl
@[simp] theorem finish_dst (s : State) (a b c : Nat) : (finish s a b c).dst = s.dst := rfl
@[simp] theorem finish_dcap (s : State) (a b c : Nat) : (finish s a b c).dcap = s.dcap := rfl
@[simp] theorem finish_cnt (s : State) (a b c : Nat) : (finish s a b c).cnt = s.cnt := rfl
@[simp] theorem finish_res0 (s : State) (a b c : Nat) : (finish s a b c).res0 = BitVec.ofNat 32 a := rfl
@[simp] theorem finish_res1 (s : State) (a b c : Nat) : (finish s a b c).res1 = BitVec.ofNat 32 b := rfl
@[simp] theorem finish_res2 (s : State) (a b c : Nat) : (finish s a b c).res2 = BitVec.ofNat 32 c := rfl
@[simp] theorem finish_errInfo (s : State) (a b c : Nat) : (finish s a b c).errInfo = s.errInfo := rfl
@[simp] theorem finish_hist (s : State) (a b c : Nat) : (finish s a b c).hist = s.hist := rfl
@[simp] theorem finish_histIdx (s : State) (a b c : Nat) : (finish s a b c).histIdx = s.histIdx := rfl
@[simp] theorem finish_codeIdx (s : State) (a b c : Nat) : (finish s a b c).codeIdx = s.codeIdx := rfl
@[simp] theorem finish_nodeIdx (s : State) (a b c : Nat) : (finish s a b c).nodeIdx = s.nodeIdx := rfl
@[simp] theorem finish_tree (s : State) (a b c : Nat) : (finish s a b c).tree = s.tree := rfl
@[simp] theorem finish_code (s : State) (a b c : Nat) : (finish s a b c).code = s.code := rfl
@[simp] theorem finish_mem (s : State) (a b c : Nat) : (finish s a b c).mem = s.mem := rfl
@[simp] theorem finish_draw (s : State) (a b c : Nat) : (finish s a b c).draw = s.draw := rfl
@[simp] theorem finish_host (s : State) (a b c : Nat) : (finish s a b c).host = s.host := rfl
@[simp] theorem finish_delay (s : State) (a b c : Nat) : (finish s a b c).delay = s.delay := rfl
@[simp] theorem finish_delays (s : State) (a b c : Nat) : (finish s a b c).delays = s.delays := rfl
@[simp] theorem finish_rdata (s : State) (a b c : Nat) : (finish s a b c).rdata = s.rdata := rfl

/-! ### raise -/

@[simp] theorem raise_cfg (e : CmdErr) (s : State) : (raise e s).cfg = s.cfg := rfl
@[simp] theorem raise_ie (e : CmdErr) (s : State) : (raise e s).ie = s.ie := rfl
@[simp] theorem raise_busy (e : CmdErr) (s : State) : (raise e s).busy = false := rfl
@[simp] theorem raise_done (e : CmdErr) (s : State) : (raise e s).done = s.done := rfl
@[simp] theorem raise_err (e : CmdErr) (s : State) : (raise e s).err = true := rfl
@[simp] theorem raise_accErr (e : CmdErr) (s : State) : (raise e s).accErr = s.accErr := rfl
@[simp] theorem raise_errCode (e : CmdErr) (s : State) : (raise e s).errCode = e.code := rfl
@[simp] theorem raise_cmd (e : CmdErr) (s : State) : (raise e s).cmd = s.cmd := rfl
@[simp] theorem raise_src (e : CmdErr) (s : State) : (raise e s).src = s.src := rfl
@[simp] theorem raise_slen (e : CmdErr) (s : State) : (raise e s).slen = s.slen := rfl
@[simp] theorem raise_dst (e : CmdErr) (s : State) : (raise e s).dst = s.dst := rfl
@[simp] theorem raise_dcap (e : CmdErr) (s : State) : (raise e s).dcap = s.dcap := rfl
@[simp] theorem raise_cnt (e : CmdErr) (s : State) : (raise e s).cnt = s.cnt := rfl
@[simp] theorem raise_res0 (e : CmdErr) (s : State) : (raise e s).res0 = s.res0 := rfl
@[simp] theorem raise_res1 (e : CmdErr) (s : State) : (raise e s).res1 = s.res1 := rfl
@[simp] theorem raise_res2 (e : CmdErr) (s : State) : (raise e s).res2 = s.res2 := rfl
@[simp] theorem raise_errInfo (e : CmdErr) (s : State) : (raise e s).errInfo = e.infoWord := rfl
@[simp] theorem raise_hist (e : CmdErr) (s : State) : (raise e s).hist = s.hist := rfl
@[simp] theorem raise_histIdx (e : CmdErr) (s : State) : (raise e s).histIdx = s.histIdx := rfl
@[simp] theorem raise_codeIdx (e : CmdErr) (s : State) : (raise e s).codeIdx = s.codeIdx := rfl
@[simp] theorem raise_nodeIdx (e : CmdErr) (s : State) : (raise e s).nodeIdx = s.nodeIdx := rfl
@[simp] theorem raise_tree (e : CmdErr) (s : State) : (raise e s).tree = s.tree := rfl
@[simp] theorem raise_code (e : CmdErr) (s : State) : (raise e s).code = s.code := rfl
@[simp] theorem raise_mem (e : CmdErr) (s : State) : (raise e s).mem = s.mem := rfl
@[simp] theorem raise_draw (e : CmdErr) (s : State) : (raise e s).draw = s.draw := rfl
@[simp] theorem raise_host (e : CmdErr) (s : State) : (raise e s).host = s.host := rfl
@[simp] theorem raise_delay (e : CmdErr) (s : State) : (raise e s).delay = s.delay := rfl
@[simp] theorem raise_delays (e : CmdErr) (s : State) : (raise e s).delays = s.delays := rfl
@[simp] theorem raise_rdata (e : CmdErr) (s : State) : (raise e s).rdata = s.rdata := rfl

/-! ### acceptWord -/

@[simp] theorem acceptWord_cfg (s : State) (w : Word) : (acceptWord s w).cfg = s.cfg := rfl
@[simp] theorem acceptWord_ie (s : State) (w : Word) : (acceptWord s w).ie = s.ie := rfl
@[simp] theorem acceptWord_busy (s : State) (w : Word) : (acceptWord s w).busy = true := rfl
@[simp] theorem acceptWord_done (s : State) (w : Word) : (acceptWord s w).done = false := rfl
@[simp] theorem acceptWord_err (s : State) (w : Word) : (acceptWord s w).err = false := rfl
@[simp] theorem acceptWord_accErr (s : State) (w : Word) : (acceptWord s w).accErr = s.accErr := rfl
@[simp] theorem acceptWord_errCode (s : State) (w : Word) : (acceptWord s w).errCode = 0 := rfl
@[simp] theorem acceptWord_cmd (s : State) (w : Word) : (acceptWord s w).cmd = w := rfl
@[simp] theorem acceptWord_src (s : State) (w : Word) : (acceptWord s w).src = s.src := rfl
@[simp] theorem acceptWord_slen (s : State) (w : Word) : (acceptWord s w).slen = s.slen := rfl
@[simp] theorem acceptWord_dst (s : State) (w : Word) : (acceptWord s w).dst = s.dst := rfl
@[simp] theorem acceptWord_dcap (s : State) (w : Word) : (acceptWord s w).dcap = s.dcap := rfl
@[simp] theorem acceptWord_cnt (s : State) (w : Word) : (acceptWord s w).cnt = s.cnt := rfl
@[simp] theorem acceptWord_res0 (s : State) (w : Word) : (acceptWord s w).res0 = 0 := rfl
@[simp] theorem acceptWord_res1 (s : State) (w : Word) : (acceptWord s w).res1 = 0 := rfl
@[simp] theorem acceptWord_res2 (s : State) (w : Word) : (acceptWord s w).res2 = 0 := rfl
@[simp] theorem acceptWord_errInfo (s : State) (w : Word) : (acceptWord s w).errInfo = 0 := rfl
@[simp] theorem acceptWord_hist (s : State) (w : Word) : (acceptWord s w).hist = s.hist := rfl
@[simp] theorem acceptWord_histIdx (s : State) (w : Word) : (acceptWord s w).histIdx = s.histIdx := rfl
@[simp] theorem acceptWord_codeIdx (s : State) (w : Word) : (acceptWord s w).codeIdx = s.codeIdx := rfl
@[simp] theorem acceptWord_nodeIdx (s : State) (w : Word) : (acceptWord s w).nodeIdx = s.nodeIdx := rfl
@[simp] theorem acceptWord_tree (s : State) (w : Word) : (acceptWord s w).tree = s.tree := rfl
@[simp] theorem acceptWord_code (s : State) (w : Word) : (acceptWord s w).code = s.code := rfl
@[simp] theorem acceptWord_mem (s : State) (w : Word) : (acceptWord s w).mem = s.mem := rfl
@[simp] theorem acceptWord_draw (s : State) (w : Word) : (acceptWord s w).draw = s.draw := rfl
@[simp] theorem acceptWord_host (s : State) (w : Word) : (acceptWord s w).host = s.host := rfl
@[simp] theorem acceptWord_delay (s : State) (w : Word) : (acceptWord s w).delay = s.delay := rfl
@[simp] theorem acceptWord_delays (s : State) (w : Word) : (acceptWord s w).delays = s.delays := rfl
@[simp] theorem acceptWord_rdata (s : State) (w : Word) : (acceptWord s w).rdata = s.rdata := rfl

/-! ### issue -/

@[simp] theorem issue_cfg (s : State) (w : Word) : (issue s w).cfg = s.cfg := rfl
@[simp] theorem issue_ie (s : State) (w : Word) : (issue s w).ie = s.ie := rfl
@[simp] theorem issue_busy (s : State) (w : Word) : (issue s w).busy = true := rfl
@[simp] theorem issue_done (s : State) (w : Word) : (issue s w).done = false := rfl
@[simp] theorem issue_err (s : State) (w : Word) : (issue s w).err = false := rfl
@[simp] theorem issue_accErr (s : State) (w : Word) : (issue s w).accErr = s.accErr := rfl
@[simp] theorem issue_errCode (s : State) (w : Word) : (issue s w).errCode = 0 := rfl
@[simp] theorem issue_cmd (s : State) (w : Word) : (issue s w).cmd = w := rfl
@[simp] theorem issue_src (s : State) (w : Word) : (issue s w).src = s.src := rfl
@[simp] theorem issue_slen (s : State) (w : Word) : (issue s w).slen = s.slen := rfl
@[simp] theorem issue_dst (s : State) (w : Word) : (issue s w).dst = s.dst := rfl
@[simp] theorem issue_dcap (s : State) (w : Word) : (issue s w).dcap = s.dcap := rfl
@[simp] theorem issue_cnt (s : State) (w : Word) : (issue s w).cnt = s.cnt := rfl
@[simp] theorem issue_res0 (s : State) (w : Word) : (issue s w).res0 = 0 := rfl
@[simp] theorem issue_res1 (s : State) (w : Word) : (issue s w).res1 = 0 := rfl
@[simp] theorem issue_res2 (s : State) (w : Word) : (issue s w).res2 = 0 := rfl
@[simp] theorem issue_errInfo (s : State) (w : Word) : (issue s w).errInfo = 0 := rfl
@[simp] theorem issue_hist (s : State) (w : Word) : (issue s w).hist = s.hist := rfl
@[simp] theorem issue_histIdx (s : State) (w : Word) : (issue s w).histIdx = s.histIdx := rfl
@[simp] theorem issue_codeIdx (s : State) (w : Word) : (issue s w).codeIdx = s.codeIdx := rfl
@[simp] theorem issue_nodeIdx (s : State) (w : Word) : (issue s w).nodeIdx = s.nodeIdx := rfl
@[simp] theorem issue_tree (s : State) (w : Word) : (issue s w).tree = s.tree := rfl
@[simp] theorem issue_code (s : State) (w : Word) : (issue s w).code = s.code := rfl
@[simp] theorem issue_mem (s : State) (w : Word) : (issue s w).mem = s.mem := rfl
@[simp] theorem issue_draw (s : State) (w : Word) : (issue s w).draw = s.draw := rfl
@[simp] theorem issue_host (s : State) (w : Word) : (issue s w).host = s.host := rfl
@[simp] theorem issue_delay (s : State) (w : Word) : (issue s w).delay = s.delays.headD 0 := rfl
@[simp] theorem issue_delays (s : State) (w : Word) : (issue s w).delays = s.delays.tail := rfl
@[simp] theorem issue_rdata (s : State) (w : Word) : (issue s w).rdata = s.rdata := rfl

/-! ### clearFlags -/

@[simp] theorem clearFlags_cfg (s : State) (v : Word) : (clearFlags s v).cfg = s.cfg := rfl
@[simp] theorem clearFlags_ie (s : State) (v : Word) : (clearFlags s v).ie = s.ie := rfl
@[simp] theorem clearFlags_busy (s : State) (v : Word) : (clearFlags s v).busy = s.busy := rfl
@[simp] theorem clearFlags_done (s : State) (v : Word) : (clearFlags s v).done = (s.done && !v.getLsbD 1) := rfl
@[simp] theorem clearFlags_err (s : State) (v : Word) : (clearFlags s v).err = (s.err && !v.getLsbD 2) := rfl
@[simp] theorem clearFlags_accErr (s : State) (v : Word) : (clearFlags s v).accErr = (s.accErr && !v.getLsbD 3) := rfl
@[simp] theorem clearFlags_errCode (s : State) (v : Word) : (clearFlags s v).errCode = s.errCode := rfl
@[simp] theorem clearFlags_cmd (s : State) (v : Word) : (clearFlags s v).cmd = s.cmd := rfl
@[simp] theorem clearFlags_src (s : State) (v : Word) : (clearFlags s v).src = s.src := rfl
@[simp] theorem clearFlags_slen (s : State) (v : Word) : (clearFlags s v).slen = s.slen := rfl
@[simp] theorem clearFlags_dst (s : State) (v : Word) : (clearFlags s v).dst = s.dst := rfl
@[simp] theorem clearFlags_dcap (s : State) (v : Word) : (clearFlags s v).dcap = s.dcap := rfl
@[simp] theorem clearFlags_cnt (s : State) (v : Word) : (clearFlags s v).cnt = s.cnt := rfl
@[simp] theorem clearFlags_res0 (s : State) (v : Word) : (clearFlags s v).res0 = s.res0 := rfl
@[simp] theorem clearFlags_res1 (s : State) (v : Word) : (clearFlags s v).res1 = s.res1 := rfl
@[simp] theorem clearFlags_res2 (s : State) (v : Word) : (clearFlags s v).res2 = s.res2 := rfl
@[simp] theorem clearFlags_errInfo (s : State) (v : Word) : (clearFlags s v).errInfo = s.errInfo := rfl
@[simp] theorem clearFlags_hist (s : State) (v : Word) : (clearFlags s v).hist = s.hist := rfl
@[simp] theorem clearFlags_histIdx (s : State) (v : Word) : (clearFlags s v).histIdx = s.histIdx := rfl
@[simp] theorem clearFlags_codeIdx (s : State) (v : Word) : (clearFlags s v).codeIdx = s.codeIdx := rfl
@[simp] theorem clearFlags_nodeIdx (s : State) (v : Word) : (clearFlags s v).nodeIdx = s.nodeIdx := rfl
@[simp] theorem clearFlags_tree (s : State) (v : Word) : (clearFlags s v).tree = s.tree := rfl
@[simp] theorem clearFlags_code (s : State) (v : Word) : (clearFlags s v).code = s.code := rfl
@[simp] theorem clearFlags_mem (s : State) (v : Word) : (clearFlags s v).mem = s.mem := rfl
@[simp] theorem clearFlags_draw (s : State) (v : Word) : (clearFlags s v).draw = s.draw := rfl
@[simp] theorem clearFlags_host (s : State) (v : Word) : (clearFlags s v).host = s.host := rfl
@[simp] theorem clearFlags_delay (s : State) (v : Word) : (clearFlags s v).delay = s.delay := rfl
@[simp] theorem clearFlags_delays (s : State) (v : Word) : (clearFlags s v).delays = s.delays := rfl
@[simp] theorem clearFlags_rdata (s : State) (v : Word) : (clearFlags s v).rdata = s.rdata := rfl

/-! ### storeDst -/

@[simp] theorem storeDst_cfg (s : State) (l : List Byte) : (s.storeDst l).cfg = s.cfg := rfl
@[simp] theorem storeDst_ie (s : State) (l : List Byte) : (s.storeDst l).ie = s.ie := rfl
@[simp] theorem storeDst_busy (s : State) (l : List Byte) : (s.storeDst l).busy = s.busy := rfl
@[simp] theorem storeDst_done (s : State) (l : List Byte) : (s.storeDst l).done = s.done := rfl
@[simp] theorem storeDst_err (s : State) (l : List Byte) : (s.storeDst l).err = s.err := rfl
@[simp] theorem storeDst_accErr (s : State) (l : List Byte) : (s.storeDst l).accErr = s.accErr := rfl
@[simp] theorem storeDst_errCode (s : State) (l : List Byte) : (s.storeDst l).errCode = s.errCode := rfl
@[simp] theorem storeDst_cmd (s : State) (l : List Byte) : (s.storeDst l).cmd = s.cmd := rfl
@[simp] theorem storeDst_src (s : State) (l : List Byte) : (s.storeDst l).src = s.src := rfl
@[simp] theorem storeDst_slen (s : State) (l : List Byte) : (s.storeDst l).slen = s.slen := rfl
@[simp] theorem storeDst_dst (s : State) (l : List Byte) : (s.storeDst l).dst = s.dst := rfl
@[simp] theorem storeDst_dcap (s : State) (l : List Byte) : (s.storeDst l).dcap = s.dcap := rfl
@[simp] theorem storeDst_cnt (s : State) (l : List Byte) : (s.storeDst l).cnt = s.cnt := rfl
@[simp] theorem storeDst_res0 (s : State) (l : List Byte) : (s.storeDst l).res0 = s.res0 := rfl
@[simp] theorem storeDst_res1 (s : State) (l : List Byte) : (s.storeDst l).res1 = s.res1 := rfl
@[simp] theorem storeDst_res2 (s : State) (l : List Byte) : (s.storeDst l).res2 = s.res2 := rfl
@[simp] theorem storeDst_errInfo (s : State) (l : List Byte) : (s.storeDst l).errInfo = s.errInfo := rfl
@[simp] theorem storeDst_hist (s : State) (l : List Byte) : (s.storeDst l).hist = s.hist := rfl
@[simp] theorem storeDst_histIdx (s : State) (l : List Byte) : (s.storeDst l).histIdx = s.histIdx := rfl
@[simp] theorem storeDst_codeIdx (s : State) (l : List Byte) : (s.storeDst l).codeIdx = s.codeIdx := rfl
@[simp] theorem storeDst_nodeIdx (s : State) (l : List Byte) : (s.storeDst l).nodeIdx = s.nodeIdx := rfl
@[simp] theorem storeDst_tree (s : State) (l : List Byte) : (s.storeDst l).tree = s.tree := rfl
@[simp] theorem storeDst_code (s : State) (l : List Byte) : (s.storeDst l).code = s.code := rfl
@[simp] theorem storeDst_mem (s : State) (l : List Byte) : (s.storeDst l).mem = s.mem.write s.dst.toNat l := rfl
@[simp] theorem storeDst_draw (s : State) (l : List Byte) : (s.storeDst l).draw = s.draw := rfl
@[simp] theorem storeDst_host (s : State) (l : List Byte) : (s.storeDst l).host = s.host := rfl
@[simp] theorem storeDst_delay (s : State) (l : List Byte) : (s.storeDst l).delay = s.delay := rfl
@[simp] theorem storeDst_delays (s : State) (l : List Byte) : (s.storeDst l).delays = s.delays := rfl
@[simp] theorem storeDst_rdata (s : State) (l : List Byte) : (s.storeDst l).rdata = s.rdata := rfl

end Sys2Proof.Machine
end

