-- ==== Sys2Proof/Laws/Memory.lean ====
section
/-! SUPPORT. The laws of data memory: a read after a write, the canonical form, the addresses listed
(spec/10_state.md R48; spec/00_scope.md R13). -/

namespace Sys2Proof.Machine

/-- A read after a write: the written byte at its address, the old byte everywhere else. -/
theorem Memory.get?_set (m : Memory) (a a' : Nat) (b : Byte) :
    (m.set a b).get? a' = if a' = a then some b else m.get? a' := by
  induction m with
  | nil => by_cases h : a = a' <;> simp [Memory.set, Memory.get?, h, eq_comm]
  | cons c m ih =>
    obtain ⟨k, v⟩ := c
    simp only [Memory.set]
    split
    · by_cases h : a = a' <;> simp [Memory.get?, h, eq_comm]
    · split
      · next hk => subst hk; by_cases h : a = a' <;> simp [Memory.get?, h, eq_comm]
      · next hk =>
        simp only [Memory.get?, ih]
        by_cases h : k = a' <;> simp [h]
        intro h'; omega

/-- The addresses a write lists: the address itself and those listed before. -/
theorem Memory.mem_set {m : Memory} {a : Nat} {b : Byte} {c : Host.Cell} (h : c ∈ m.set a b) :
    c = (a, b) ∨ c ∈ m := by
  induction m with
  | nil => simpa [Memory.set] using h
  | cons d m ih =>
    obtain ⟨k, v⟩ := d
    simp only [Memory.set] at h
    split at h
    · simpa using h
    · split at h
      · rcases List.mem_cons.1 h with h | h
        · exact .inl h
        · exact .inr (List.mem_cons_of_mem _ h)
      · rcases List.mem_cons.1 h with h | h
        · exact .inr (h ▸ List.mem_cons_self)
        · exact (ih h).imp id (List.mem_cons_of_mem _)

/-- A write keeps the addresses strictly rising. -/
theorem Memory.set_sorted {m : Memory} (a : Nat) (b : Byte) (h : m.Pairwise (fun x y => x.1 < y.1)) :
    (m.set a b).Pairwise (fun x y => x.1 < y.1) := by
  induction m with
  | nil => simp [Memory.set]
  | cons d m ih =>
    obtain ⟨k, v⟩ := d
    rw [List.pairwise_cons] at h
    simp only [Memory.set]
    split
    · next hlt =>
      refine List.pairwise_cons.2 ⟨fun c hc => ?_, List.pairwise_cons.2 h⟩
      rcases List.mem_cons.1 hc with hc | hc
      · subst hc; exact hlt
      · exact Nat.lt_trans hlt (h.1 c hc)
    · split
      · next heq => subst heq; exact List.pairwise_cons.2 h
      · next hnlt hne =>
        refine List.pairwise_cons.2 ⟨fun c hc => ?_, ih h.2⟩
        rcases Memory.mem_set hc with hc | hc
        · subst hc
          show k < a
          omega
        · exact h.1 c hc

/-- A write keeps the canonical form. -/
theorem Memory.set_wf {m : Memory} (a : Nat) (b : Byte) (h : m.wf) : (m.set a b).wf :=
  ⟨Memory.set_sorted a b h.1, fun _ _ => by simp [Memory.unlisted]⟩

/-- `MemWrite` keeps the canonical form. -/
theorem Memory.write_wf {m : Memory} (a : Nat) (l : List Byte) (h : m.wf) : (m.write a l).wf := by
  induction l generalizing m a with
  | nil => exact h
  | cons b l ih => exact ih (a + 1) (Memory.set_wf a b h)

/-- The empty memory is canonical. -/
theorem Memory.nil_wf : Memory.wf [] := by decide

/-- Two canonical memories with the same bytes are the same list. -/
theorem Memory.ext_of_wf {m m' : Memory} (h : m.wf) (h' : m'.wf) (e : ∀ a, m.get? a = m'.get? a) : m = m' := by
  have below : ∀ (m : Memory) (a : Nat), (∀ c ∈ m, a < c.1) → m.get? a = none := by
    intro m a hm
    induction m with
    | nil => rfl
    | cons c m ih =>
      have hc := hm c List.mem_cons_self
      simp only [Memory.get?]
      rw [if_neg (by omega)]
      exact ih fun d hd => hm d (List.mem_cons_of_mem _ hd)
  induction m generalizing m' with
  | nil =>
    cases m' with
    | nil => rfl
    | cons c m' => have := e c.1; simp [Memory.get?, Memory.unlisted] at this
  | cons c m ih =>
    cases m' with
    | nil => have := e c.1; simp [Memory.get?, Memory.unlisted] at this
    | cons c' m' =>
      obtain ⟨hc, hm⟩ := List.pairwise_cons.1 h.1
      obtain ⟨hc', hm'⟩ := List.pairwise_cons.1 h'.1
      have hk : c.1 = c'.1 := by
        rcases Nat.lt_trichotomy c.1 c'.1 with hlt | heq | hlt
        · have := e c.1
          rw [below (c' :: m') c.1 (fun d hd => by
            rcases List.mem_cons.1 hd with hd | hd
            · exact hd ▸ hlt
            · exact Nat.lt_trans hlt (hc' d hd))] at this
          simp [Memory.get?] at this
        · exact heq
        · have := e c'.1
          rw [below (c :: m) c'.1 (fun d hd => by
            rcases List.mem_cons.1 hd with hd | hd
            · exact hd ▸ hlt
            · exact Nat.lt_trans hlt (hc d hd))] at this
          simp [Memory.get?] at this
      have hv : c.2 = c'.2 := by have := e c.1; simpa [Memory.get?, hk] using this
      have htail : m = m' := by
        refine ih ⟨hm, fun d hd => h.2 d (List.mem_cons_of_mem _ hd)⟩
          ⟨hm', fun d hd => h'.2 d (List.mem_cons_of_mem _ hd)⟩ fun a => ?_
        by_cases ha : c.1 = a
        · subst ha
          rw [below m _ hc, below m' _ (hk ▸ hc')]
        · have := e a
          simpa [Memory.get?, ha, hk ▸ ha] using this
      rw [htail, Prod.ext hk hv]

/-- `MemWrite` of a list in two parts. -/
theorem Memory.write_append (m : Memory) (a : Nat) (l l' : List Byte) :
    m.write a (l ++ l') = (m.write a l).write (a + l.length) l' := by
  induction l generalizing m a with
  | nil => simp [Memory.write]
  | cons b l ih => simp [Memory.write, ih, Nat.add_assoc, Nat.add_comm 1]

/-- `MemWrite` followed by a read: the byte of the list inside the range, the old byte outside. -/
theorem Memory.get?_write (m : Memory) (a a' : Nat) (l : List Byte) :
    (m.write a l).get? a' = if a ≤ a' ∧ a' < a + l.length then l[a' - a]? else m.get? a' := by
  induction l generalizing m a with
  | nil =>
    rw [if_neg (by simp)]
    rfl
  | cons b l ih =>
    rw [Memory.write, ih, Memory.get?_set]
    simp only [List.length_cons]
    by_cases h : a' = a
    · subst h; simp
    · by_cases hin : a + 1 ≤ a' ∧ a' < a + 1 + l.length
      · rw [if_pos hin, if_pos (by omega), show a' - a = (a' - (a + 1)) + 1 by omega, List.getElem?_cons_succ]
      · rw [if_neg hin, if_neg h, if_neg (by omega)]

/-- The addresses `MemWrite` lists lie in its range or were listed before. -/
theorem Memory.mem_write {m : Memory} {a : Nat} {l : List Byte} {c : Host.Cell} (h : c ∈ m.write a l) :
    (a ≤ c.1 ∧ c.1 < a + l.length) ∨ c ∈ m := by
  induction l generalizing m a with
  | nil => exact .inr h
  | cons b l ih =>
    rcases ih h with h | h
    · left; simp only [List.length_cons]; omega
    · rcases Memory.mem_set h with h | h
      · left; subst h; simp
      · exact .inr h

/-- Two states with the same memory and draw read the same bytes. -/
theorem dmem_congr {s t : State} (hm : t.mem = s.mem) (hd : t.draw = s.draw) : t.dmem = s.dmem := by
  funext a; simp [State.dmem, hm, hd]

/-- A byte of DMEM after a command stored a list at DST. -/
theorem storeDst_dmem (s : State) (l : List Byte) (a : Nat) :
    (s.storeDst l).dmem a =
      if s.dst.toNat ≤ a ∧ a < s.dst.toNat + l.length then l.getD (a - s.dst.toNat) 0 else s.dmem a := by
  simp only [State.dmem, storeDst_mem, storeDst_draw, Memory.get?_write]
  split
  · next h =>
    have : a - s.dst.toNat < l.length := by omega
    simp [this]
  · rfl

/-- A byte of DMEM inside what a command stored. -/
theorem storeDst_dmem_in (s : State) (l : List Byte) {i : Nat} (h : i < l.length) :
    (s.storeDst l).dmem (s.dst.toNat + i) = l[i] := by
  rw [storeDst_dmem, if_pos (by omega)]
  simp [h]

/-- A byte of DMEM outside what a command stored. -/
theorem storeDst_dmem_out (s : State) (l : List Byte) {a : Nat}
    (h : a < s.dst.toNat ∨ s.dst.toNat + l.length ≤ a) : (s.storeDst l).dmem a = s.dmem a := by
  rw [storeDst_dmem, if_neg (by omega)]

@[simp] theorem memRead_length (s : State) (a n : Nat) : (s.memRead a n).length = n := by simp [State.memRead]

@[simp] theorem srcBytes_length (s : State) : s.srcBytes.length = s.slen.toNat := by simp [State.srcBytes]

theorem memRead_getElem (s : State) (a n i : Nat) (h : i < (s.memRead a n).length) :
    (s.memRead a n)[i] = s.dmem (a + i) := by simp [State.memRead]

/-- `MemRead` depends on the bytes of its range alone. -/
theorem memRead_congr {s t : State} {a n : Nat} (h : ∀ i < n, t.dmem (a + i) = s.dmem (a + i)) :
    t.memRead a n = s.memRead a n := by
  apply List.ext_getElem (by simp)
  intro i hi hi'
  simpa [memRead_getElem] using h i (by simpa using hi)

/-- `MemRead` of what a command has just stored. -/
theorem memRead_storeDst (s : State) (l : List Byte) :
    (s.storeDst l).memRead s.dst.toNat l.length = l := by
  apply List.ext_getElem (by simp)
  intro i hi hi'
  rw [memRead_getElem, storeDst_dmem_in s l hi']

theorem memRead_getElem? (s : State) {a n i : Nat} (h : i < n) : (s.memRead a n)[i]? = some (s.dmem (a + i)) := by
  simp [State.memRead, h]

end Sys2Proof.Machine
end

