-- ==== Sys2Proof/Laws/Command.lean ====
section
/-! SUPPORT. The laws of the command protocol: what `conclude`, the shared checks and each command's
pseudocode can answer (spec/40_command.md R152 to R157; spec/60_exceptions.md R351). -/

namespace Sys2Proof.Machine

variable {α β : Type}

@[simp] theorem cmd_bind_ok (a : α) (f : α → Cmd β) : ((.ok a : Cmd α) >>= f) = f a := rfl

@[simp] theorem cmd_bind_error (e : Stop) (f : α → Cmd β) : ((.error e : Cmd α) >>= f) = .error e := rfl

@[simp] theorem cmd_bind_raiseErr (e : CmdErr) (f : α → Cmd β) : ((raiseErr e : Cmd α) >>= f) = raiseErr e := rfl

/-- A command that succeeds: both its parts did. -/
theorem cmd_bind_eq_ok {x : Cmd α} {f : α → Cmd β} {b : β} : (x >>= f) = .ok b ↔ ∃ a, x = .ok a ∧ f a = .ok b := by
  cases x <;> simp

/-- A command that ends early: its first part did, or its second. -/
theorem cmd_bind_eq_error {x : Cmd α} {f : α → Cmd β} {e : Stop} :
    (x >>= f) = .error e ↔ x = .error e ∨ ∃ a, x = .ok a ∧ f a = .error e := by
  cases x <;> simp

@[simp] theorem raiseIf_eq_ok {c : Bool} {e : CmdErr} {u : Unit} : raiseIf c e = .ok u ↔ c = false := by
  cases c <;> simp [raiseIf, raiseErr]

@[simp] theorem raiseIf_eq_error {c : Bool} {e : CmdErr} {x : Stop} :
    raiseIf c e = .error x ↔ c = true ∧ x = .raised e := by
  cases c <;> simp [raiseIf, raiseErr, eq_comm]

@[simp] theorem raiseIf_false (e : CmdErr) : raiseIf false e = .ok () := rfl

@[simp] theorem raiseIf_true (e : CmdErr) : raiseIf true e = raiseErr e := rfl

@[simp] theorem inRange_iff (s : State) (a n : Nat) : s.inRange a n = true ↔ a + n ≤ s.dmemSize := by
  simp [State.inRange]

theorem overlap_iff (a n b m : Nat) : overlap a n b m = true ↔ 0 < n ∧ 0 < m ∧ a < b + m ∧ b < a + n := by
  simp [overlap]

/-- R154: `checkSrc` passes when the source range lies in DMEM. -/
@[simp] theorem checkSrc_eq_ok {s : State} {n : Nat} {u : Unit} :
    checkSrc s n = .ok u ↔ s.src.toNat + n ≤ s.dmemSize := by
  simp [checkSrc, State.inRange]

/-- R155: `checkDst` passes when the destination range lies in DMEM, is within DCAP, and shares no byte
with the source range. -/
@[simp] theorem checkDst_eq_ok {s : State} {m n : Nat} {u : Unit} :
    checkDst s m n = .ok u ↔
      s.dst.toNat + m ≤ s.dmemSize ∧ m ≤ s.dcap.toNat ∧ overlap s.src.toNat n s.dst.toNat m = false := by
  simp [checkDst, State.inRange, cmd_bind_eq_ok]

/-- R156: a completion step that goes on ended in `raise` with no update, or in `finish`. -/
theorem conclude_next {s t : State} {c : Cmd Completion} (h : conclude s c = .next t) :
    (∃ e, c = .error (.raised e) ∧ t = raise e s) ∨
    (∃ k, c = .ok k ∧ t = finish k.state k.r0 k.r1 k.r2) := by
  match c, h with
  | .ok k, h => exact .inr ⟨k, rfl, by simpa [conclude, eq_comm] using h⟩
  | .error (.raised e), h => exact .inl ⟨e, rfl, by simpa [conclude, eq_comm] using h⟩

@[simp] theorem conclude_ok (s : State) (k : Completion) :
    conclude s (.ok k) = .next (finish k.state k.r0 k.r1 k.r2) := rfl

@[simp] theorem conclude_raiseErr (s : State) (e : CmdErr) : conclude s (raiseErr e) = .next (raise e s) := rfl

@[simp] theorem needTree_eq_ok {s : State} {recs : List NodeRec} : needTree s = .ok recs ↔ s.tree = some recs := by
  cases h : s.tree <;> simp [needTree, h, raiseErr]

@[simp] theorem needCodes_eq_ok {s : State} {tab : SymTable Bits} : needCodes s = .ok tab ↔ s.code = some tab := by
  cases h : s.code <;> simp [needCodes, h, raiseErr]

@[simp] theorem treeOf_eq_ok {recs : List NodeRec} {t : HTree} : treeOf recs = .ok t ↔ parse recs = .ok t := by
  cases h : parse recs <;> simp [treeOf, h]

@[simp] theorem parseCmd_eq_ok {recs : List NodeRec} {t : HTree} : parseCmd recs = .ok t ↔ parse recs = .ok t := by
  cases h : parse recs <;> simp [parseCmd, h, raiseErr]

@[simp] theorem buildCmd_eq_ok {h : SymTable Word} {t : HTree} : buildCmd h = .ok t ↔ build h = some t := by
  cases e : build h <;> simp [buildCmd, e, raiseErr]

/-- R154: `checkSrc` outside DMEM is RANGE, the source side. -/
theorem checkSrc_fails {s : State} {n : Nat} (h : s.dmemSize < s.src.toNat + n) :
    checkSrc s n = raiseErr (.range .source) := by
  simp [checkSrc, State.inRange, show ¬ s.src.toNat + n ≤ s.dmemSize by omega]

/-- R155: `checkDst` outside DMEM is RANGE, the destination side. -/
theorem checkDst_range {s : State} {m n : Nat} (h : s.dmemSize < s.dst.toNat + m) :
    checkDst s m n = raiseErr (.range .destination) := by
  simp [checkDst, State.inRange, show ¬ s.dst.toNat + m ≤ s.dmemSize by omega]

/-- R155: `checkDst` inside DMEM and over the capacity is DST_FULL. -/
theorem checkDst_full {s : State} {m n : Nat} (h : s.dst.toNat + m ≤ s.dmemSize) (hc : s.dcap.toNat < m) :
    checkDst s m n = raiseErr (.dstFull m) := by
  simp [checkDst, State.inRange, h, hc]

/-- R155: `checkDst` with a shared byte is OVERLAP, after the other two checks. -/
theorem checkDst_overlap {s : State} {m n : Nat} (h : s.dst.toNat + m ≤ s.dmemSize) (hc : m ≤ s.dcap.toNat)
    (ho : overlap s.src.toNat n s.dst.toNat m = true) : checkDst s m n = raiseErr .overlap := by
  simp [checkDst, State.inRange, h, ho, show ¬ s.dcap.toNat < m by omega]

/-- R351: an error whose number fits ERRINFO leaves that number there. -/
theorem infoWord_of_fits {e : CmdErr} (h : e.info < 2 ^ 32) : e.infoWord = BitVec.ofNat 32 e.info := by
  rw [CmdErr.infoWord, if_pos h]

/-! ### What each command's success says -/

theorem histAccCmd_eq_ok {s : State} {k : Completion} (h : histAccCmd s = .ok k) :
    s.src.toNat + s.slen.toNat ≤ s.dmemSize ∧ firstOverflow s.hist s.srcBytes = none ∧
    k = ⟨{ s with hist := addCounts s.hist s.srcBytes }, 0, s.slen.toNat,
      (present (addCounts s.hist s.srcBytes)).length⟩ := by
  simp only [histAccCmd, cmd_bind_eq_ok, checkSrc_eq_ok] at h
  obtain ⟨-, hr, h⟩ := h
  cases ho : firstOverflow s.hist s.srcBytes <;> simp [ho, raiseErr] at h
  exact ⟨hr, rfl, h.symm⟩

theorem buildStoreCmd_eq_ok {s : State} {k : Completion} (h : buildStoreCmd s = .ok k) :
    ∃ t, build s.hist = some t ∧ t.records.length ≤ 255 ∧
      k = ⟨{ s with tree := some t.records, code := none }, 0, 0, t.records.length⟩ := by
  simp only [buildStoreCmd, cmd_bind_eq_ok, buildCmd_eq_ok, raiseIf_eq_ok, decide_eq_false_iff_not] at h
  obtain ⟨t, ht, -, hn, h⟩ := h
  exact ⟨t, ht, by omega, by simpa [eq_comm] using h⟩

theorem genCodesCmd_eq_ok {s : State} {k : Completion} (h : genCodesCmd s = .ok k) :
    ∃ recs t, s.tree = some recs ∧ parse recs = .ok t ∧
      k = ⟨{ s with code := some t.codes }, 0, 0, codeCount t.codes ||| (maxCodeLen t.codes <<< 16)⟩ := by
  simp only [genCodesCmd, cmd_bind_eq_ok, needTree_eq_ok, treeOf_eq_ok] at h
  obtain ⟨recs, hr, t, ht, h⟩ := h
  exact ⟨recs, t, hr, ht, by simpa [eq_comm] using h⟩

theorem serializeCmd_eq_ok {s : State} {k : Completion} (h : serializeCmd s = .ok k) :
    ∃ recs, s.tree = some recs ∧ recs.length ≤ 255 ∧ checkDst s (1 + 4 * recs.length) 0 = .ok () ∧
      k = ⟨s.storeDst (image recs), 1 + 4 * recs.length, 0, recs.length⟩ := by
  simp only [serializeCmd, cmd_bind_eq_ok, needTree_eq_ok, raiseIf_eq_ok, decide_eq_false_iff_not] at h
  obtain ⟨recs, hr, -, hn, ⟨⟩, hd, h⟩ := h
  exact ⟨recs, hr, by omega, hd, by simpa [eq_comm] using h⟩

theorem deserializeCmd_eq_ok {s : State} {k : Completion} (h : deserializeCmd s = .ok k) :
    ∃ n recs t, n = (s.dmem s.src.toNat).toNat ∧ recs = s.recordsAt (s.src.toNat + 1) n ∧
      s.src.toNat + s.slen.toNat ≤ s.dmemSize ∧ 1 + 4 * n ≤ s.slen.toNat ∧ parse recs = .ok t ∧
      k = ⟨{ s with tree := some recs, code := none }, 0, 1 + 4 * n, n⟩ := by
  simp only [deserializeCmd, cmd_bind_eq_ok, checkSrc_eq_ok, raiseIf_eq_ok, decide_eq_false_iff_not,
    parseCmd_eq_ok] at h
  obtain ⟨-, hr, -, -, -, hn, t, ht, h⟩ := h
  exact ⟨_, _, t, rfl, rfl, hr, by omega, ht, by simpa [eq_comm] using h⟩

theorem packCmd_eq_ok {s : State} {k : Completion} (h : packCmd s = .ok k) :
    ∃ tab out pad, s.code = some tab ∧ s.src.toNat + s.slen.toNat ≤ s.dmemSize ∧
      packbits s.srcBytes tab = .ok (out, pad) ∧ checkDst s out.length s.slen.toNat = .ok () ∧
      k = ⟨s.storeDst out, out.length, s.slen.toNat, pad⟩ := by
  simp only [packCmd, cmd_bind_eq_ok, needCodes_eq_ok, checkSrc_eq_ok] at h
  obtain ⟨tab, hc, -, hr, ⟨out, pad⟩, hp, ⟨⟩, hd, h⟩ := h
  exact ⟨tab, out, pad, hc, hr, hp, hd, by simpa [eq_comm] using h⟩

theorem unpackCmd_eq_ok {s : State} {k : Completion} (h : unpackCmd s = .ok k) :
    ∃ recs t out used consumed, s.tree = some recs ∧ parse recs = .ok t ∧
      s.src.toNat + s.slen.toNat ≤ s.dmemSize ∧ checkDst s s.cnt.toNat s.slen.toNat = .ok () ∧
      unpackbits t s.srcBytes s.cnt.toNat = .ok (out, used, consumed) ∧
      k = ⟨s.storeDst out, s.cnt.toNat, consumed, 8 * consumed - used⟩ := by
  simp only [unpackCmd, cmd_bind_eq_ok, needTree_eq_ok, checkSrc_eq_ok, treeOf_eq_ok] at h
  obtain ⟨recs, hr, -, hs, ⟨⟩, hd, t, ht, ⟨out, used, consumed⟩, hu, h⟩ := h
  exact ⟨recs, t, out, used, consumed, hr, ht, hs, hd, hu, by simpa [eq_comm] using h⟩

theorem optimizeCmd_eq_ok {s : State} {k : Completion} (h : optimizeCmd s = .ok k) :
    ∃ recs t t' n, s.tree = some recs ∧ parse recs = .ok t ∧ optimize t s.hist = .ok (t', n) ∧
      k = ⟨{ s with tree := some t'.records, code := none }, 0, 0, n⟩ := by
  simp only [optimizeCmd, cmd_bind_eq_ok, needTree_eq_ok, treeOf_eq_ok] at h
  obtain ⟨recs, hr, t, ht, ⟨t', n⟩, ho, h⟩ := h
  exact ⟨recs, t, t', n, hr, ht, ho, by simpa [eq_comm] using h⟩

theorem compressCmd_eq_ok {o : Bool} {s : State} {k : Completion} (h : compressCmd o s = .ok k) :
    ∃ t0 t packed pad, s.src.toNat + s.slen.toNat ≤ s.dmemSize ∧ s.slen ≠ 0 ∧
      build (histOf s.srcBytes) = some t0 ∧ optimizeIf o t0 (histOf s.srcBytes) = .ok t ∧
      t.records.length ≤ 255 ∧ packbits s.srcBytes t.codes = .ok (packed, pad) ∧
      checkDst s (stream t.records s.slen packed).length s.slen.toNat = .ok () ∧
      k = ⟨{ s.storeDst (stream t.records s.slen packed) with
              hist := histOf s.srcBytes, tree := some t.records, code := some t.codes },
            (stream t.records s.slen packed).length, s.slen.toNat, pad⟩ := by
  simp only [compressCmd, cmd_bind_eq_ok, checkSrc_eq_ok, raiseIf_eq_ok, decide_eq_false_iff_not,
    buildCmd_eq_ok] at h
  obtain ⟨-, hs, -, hz, t0, h0, t, ht, -, hn, ⟨packed, pad⟩, hp, ⟨⟩, hd, h⟩ := h
  exact ⟨t0, t, packed, pad, hs, hz, h0, ht, by omega, hp, hd, by simpa [eq_comm] using h⟩

theorem decompressCmd_eq_ok {s : State} {k : Completion} (h : decompressCmd s = .ok k) :
    ∃ n recs t l out used consumed, n = (s.dmem s.src.toNat).toNat ∧
      recs = s.recordsAt (s.src.toNat + 1) n ∧ l = leNat (s.memRead (s.src.toNat + 1 + 4 * n) 4) ∧
      s.src.toNat + s.slen.toNat ≤ s.dmemSize ∧ 5 + 4 * n ≤ s.slen.toNat ∧ parse recs = .ok t ∧
      checkDst s l s.slen.toNat = .ok () ∧
      unpackbits t (s.memRead (s.src.toNat + 5 + 4 * n) (s.slen.toNat - 5 - 4 * n)) l
        = .ok (out, used, consumed) ∧
      k = ⟨{ s.storeDst out with tree := some recs, code := none }, l, 5 + 4 * n + consumed,
        8 * consumed - used⟩ := by
  simp only [decompressCmd, cmd_bind_eq_ok, checkSrc_eq_ok, raiseIf_eq_ok, decide_eq_false_iff_not,
    parseCmd_eq_ok] at h
  obtain ⟨-, hr, -, -, -, hn, t, ht, ⟨⟩, hd, ⟨out, used, consumed⟩, hu, h⟩ := h
  exact ⟨_, _, t, _, out, used, consumed, rfl, rfl, rfl, hr, by omega, ht, hd, hu,
    by simpa [eq_comm] using h⟩

end Sys2Proof.Machine
end

