-- ==== Sys2Proof/Laws/Bits.lean ====
section
/-! SUPPORT. The laws of bit and byte lists: the most-significant-bit-first order, packing into bytes and
back, little-endian numbers, encoding and decoding (spec/20_memory.md R84, R88; spec/45_bitpack.md R271,
R272). -/

namespace Sys2Proof.Machine

theorem msbNat_lt (n : Nat) (bs : Bits) : msbNat n bs < 2 ^ n := by
  induction n generalizing bs with
  | zero => simp [msbNat]
  | succ n ih =>
    have := ih bs.tail
    simp only [msbNat, Nat.pow_succ]
    cases bs.headD false <;> simp <;> omega

/-- Bit `n - 1 - j` of `msbNat n` is bit `j` of the sequence. -/
theorem msbNat_testBit (n : Nat) (bs : Bits) (j : Nat) (h : j < n) :
    (msbNat n bs).testBit (n - 1 - j) = bs.getD j false := by
  induction n generalizing bs j with
  | zero => omega
  | succ n ih =>
    simp only [msbNat]
    rw [Nat.mul_comm, Nat.testBit_two_pow_mul_add _ (msbNat_lt n bs.tail)]
    cases j with
    | zero =>
      simp only [Nat.add_sub_cancel, Nat.sub_zero, Nat.lt_irrefl, if_false, Nat.sub_self]
      cases bs with
      | nil => rfl
      | cons b bs => cases b <;> simp
    | succ j =>
      rw [if_pos (by omega), show n + 1 - 1 - (j + 1) = n - 1 - j by omega, ih _ _ (by omega)]
      cases bs <;> simp

@[simp] theorem bitsOfByte_length (b : Byte) : (bitsOfByte b).length = 8 := by simp [bitsOfByte]

/-- The bits of a byte made of eight bits of a sequence are those bits, then zeros. -/
theorem bitsOfByte_msbNat (bs : Bits) :
    bitsOfByte (BitVec.ofNat 8 (msbNat 8 bs)) = (List.range 8).map fun t => bs.getD t false := by
  simp only [bitsOfByte]
  apply List.map_congr_left
  intro t ht
  rw [List.mem_range] at ht
  rw [BitVec.getLsbD_ofNat, show 7 - t = 8 - 1 - t by omega, msbNat_testBit 8 bs t ht]
  simp; omega

@[simp] theorem bytesOfBits_length (m : Nat) (bs : Bits) : (bytesOfBits m bs).length = m := by
  induction m generalizing bs with
  | zero => rfl
  | succ m ih => simp [bytesOfBits, ih]

@[simp] theorem bitsOfBytes_length (l : List Byte) : (bitsOfBytes l).length = 8 * l.length := by
  induction l with
  | nil => rfl
  | cons b l ih => simp only [bitsOfBytes, List.flatMap_cons, List.length_append, bitsOfByte_length, List.length_cons] at ih ⊢; omega

/-- Bit `p` of a byte list is bit `7 - p mod 8` of byte `p div 8` (R88). -/
theorem bitsOfBytes_getD (l : List Byte) (p : Nat) :
    (bitsOfBytes l).getD p false = (l.getD (p / 8) 0).getLsbD (7 - p % 8) := by
  induction l generalizing p with
  | nil => simp [bitsOfBytes]
  | cons b l ih =>
    simp only [bitsOfBytes, List.flatMap_cons] at ih ⊢
    by_cases h : p < 8
    · rw [List.getD_append _ _ _ _ (by simpa using h), Nat.div_eq_of_lt h, Nat.mod_eq_of_lt h]
      simp [bitsOfByte, h]
    · rw [List.getD_append_right _ _ _ _ (by simpa using h), bitsOfByte_length, ih]
      have h1 : p / 8 = (p - 8) / 8 + 1 := by omega
      have h2 : p % 8 = (p - 8) % 8 := by omega
      rw [h1, h2]; rfl

/-- The bits of packed bytes: the sequence, then zeros (R127). -/
theorem bitsOfBytes_bytesOfBits (m : Nat) (bs : Bits) (h : bs.length ≤ 8 * m) :
    bitsOfBytes (bytesOfBits m bs) = bs ++ List.replicate (8 * m - bs.length) false := by
  induction m generalizing bs with
  | zero =>
    have : bs = [] := List.length_eq_zero_iff.1 (by omega)
    subst this; rfl
  | succ m ih =>
    simp only [bytesOfBits, bitsOfBytes, List.flatMap_cons]
    rw [← bitsOfBytes, ih (bs.drop 8) (by simp; omega), bitsOfByte_msbNat]
    apply List.ext_getElem
    · simp; omega
    · intro i hi hi'
      simp only [List.length_append, List.length_map, List.length_range, List.length_drop, List.length_replicate] at hi hi'
      by_cases h8 : i < 8
      · rw [List.getElem_append_left (by simpa using h8)]
        by_cases hb : i < bs.length
        · rw [List.getElem_append_left hb]; simp [hb]
        · rw [List.getElem_append_right (by omega)]; simp [hb]
      · rw [List.getElem_append_right (by simpa using h8)]
        by_cases hb : i < bs.length
        · rw [List.getElem_append_left (by simp; omega), List.getElem_append_left hb]
          simp [List.getElem_drop, show 8 + (i - 8) = i by omega]
        · rw [List.getElem_append_right (by simp; omega), List.getElem_append_right (by omega)]
          simp

/-- R271: when every byte has a code, encoding concatenates the codes. -/
theorem encodeFrom_eq_ok {tab : SymTable Bits} {i : Nat} {data : List Byte} {bits : Bits} :
    encodeFrom tab i data = .ok bits ↔ (∀ b ∈ data, tab.at b ≠ []) ∧ bits = data.flatMap fun b => tab.at b := by
  induction data generalizing i bits with
  | nil =>
    simp only [encodeFrom, Except.ok.injEq, List.not_mem_nil, false_implies, implies_true, true_and, List.flatMap_nil]
    exact eq_comm
  | cons b data ih =>
    by_cases hb : tab.at b = []
    · simp [encodeFrom, hb, raiseErr]
    · simp only [encodeFrom, hb, if_false, cmd_bind_eq_ok, ih, Except.ok.injEq, List.forall_mem_cons,
        List.flatMap_cons, ne_eq, not_false_eq_true, true_and]
      constructor
      · rintro ⟨r, ⟨h1, rfl⟩, rfl⟩; exact ⟨h1, rfl⟩
      · rintro ⟨h1, rfl⟩; exact ⟨_, ⟨h1, rfl⟩, rfl⟩

/-- R271: encoding stops at the first byte without a code. -/
theorem encodeFrom_noCode {tab : SymTable Bits} (i : Nat) (good : List Byte) (b : Byte) (rest : List Byte)
    (hg : ∀ x ∈ good, tab.at x ≠ []) (hb : tab.at b = []) :
    encodeFrom tab i (good ++ b :: rest) = raiseErr (.noCode (i + good.length)) := by
  induction good generalizing i with
  | nil => simp [encodeFrom, hb]
  | cons x good ih =>
    have := ih (i + 1) fun y hy => hg y (List.mem_cons_of_mem _ hy)
    simp [encodeFrom, hg x List.mem_cons_self, this, show i + 1 + good.length = i + (good.length + 1) by omega]

/-- R271: what a successful packing answers. -/
theorem packbits_eq_ok {data out : List Byte} {tab : SymTable Bits} {pad : Nat} :
    packbits data tab = .ok (out, pad) ↔
      (∀ b ∈ data, tab.at b ≠ []) ∧
      out = bytesOfBits (ceil8 (data.flatMap fun b => tab.at b).length) (data.flatMap fun b => tab.at b) ∧
      pad = 8 * ceil8 (data.flatMap fun b => tab.at b).length - (data.flatMap fun b => tab.at b).length := by
  simp only [packbits, cmd_bind_eq_ok, encodeFrom_eq_ok, Except.ok.injEq, Prod.mk.injEq]
  constructor
  · rintro ⟨bits, ⟨h, rfl⟩, rfl, rfl⟩; exact ⟨h, rfl, rfl⟩
  · rintro ⟨h, rfl, rfl⟩; exact ⟨_, ⟨h, rfl⟩, rfl, rfl⟩

/-- R272: bits after the path to a leaf are left over. -/
theorem descend_append {t : HTree} {p : Bits} {x : Byte} (h : t.descend p = some (x, [])) (rest : Bits) :
    t.descend (p ++ rest) = some (x, rest) := by
  induction t generalizing p with
  | leaf s =>
    simp only [HTree.descend, Option.some.injEq, Prod.mk.injEq] at h
    simp [HTree.descend, h.1, h.2]
  | node l r ihl ihr =>
    cases p with
    | nil => simp [HTree.descend] at h
    | cons b p =>
      cases b
      · exact ihl h
      · exact ihr h

/-- R272: decoding concatenated paths to leaves gives the leaves' symbols. -/
theorem decodeFrom_paths {t : HTree} (code : Byte → Bits) (data : List Byte) (k : Nat) (rest : Bits)
    (h : ∀ b ∈ data, t.descend (code b) = some (b, [])) :
    decodeFrom t data.length k (data.flatMap code ++ rest) = .ok (data, rest) := by
  induction data generalizing k with
  | nil => rfl
  | cons b data ih =>
    have hb := descend_append (h b List.mem_cons_self) (data.flatMap code ++ rest)
    have hd := ih (k + 1) fun x hx => h x (List.mem_cons_of_mem _ hx)
    simp [decodeFrom, hb, hd]

/-- R272: a successful decoding answers as many symbols as were asked for. -/
theorem decodeFrom_length {t : HTree} {n k : Nat} {bs rest : Bits} {out : List Byte}
    (h : decodeFrom t n k bs = .ok (out, rest)) : out.length = n := by
  induction n generalizing k bs rest out with
  | zero => simp only [decodeFrom, Except.ok.injEq, Prod.mk.injEq] at h; simp [← h.1]
  | succ n ih =>
    simp only [decodeFrom] at h
    split at h
    · simp [raiseErr] at h
    · obtain ⟨⟨out', rest'⟩, h1, h2⟩ := cmd_bind_eq_ok.1 h
      simp only [Except.ok.injEq, Prod.mk.injEq] at h2
      simp [← h2.1, ih h1]

/-- R272: the symbols of a successful unpacking are as many as were asked for. -/
theorem unpackbits_length {t : HTree} {bytes out : List Byte} {n used consumed : Nat}
    (h : unpackbits t bytes n = .ok (out, used, consumed)) : out.length = n := by
  simp only [unpackbits] at h
  obtain ⟨⟨out', rest⟩, h1, h2⟩ := cmd_bind_eq_ok.1 h
  simp only [Except.ok.injEq, Prod.mk.injEq] at h2
  rw [← h2.1]; exact decodeFrom_length h1

/-- R84: four bytes of a word, read back. -/
theorem leNat_leBytes_four (v : Word) : leNat (leBytes 4 v) = v.toNat := by
  have := v.isLt
  simp [leBytes, List.range_succ, leNat, BitVec.extractLsb'_toNat, Nat.shiftRight_eq_div_pow]
  omega

@[simp] theorem leBytes_length (n : Nat) (v : Word) : (leBytes n v).length = n := by simp [leBytes]

end Sys2Proof.Machine
end

