-- ==== Sys2Proof/Laws/Table.lean ====
section
/-! SUPPORT. The laws of symbol tables and of the list of all symbols (spec/10_state.md R40, R46). -/

namespace Sys2Proof.Machine

variable {α : Type}

@[simp] theorem SymTable.at_tabulate (f : Byte → α) (x : Byte) : (SymTable.tabulate f).at x = f x := by
  unfold SymTable.at SymTable.tabulate
  simp [allSymbols]

@[simp] theorem SymTable.at_put_self (t : SymTable α) (x : Byte) (v : α) : (t.put x v).at x = v := by
  simp [SymTable.at, SymTable.put]

theorem SymTable.at_put_ne (t : SymTable α) {x y : Byte} (v : α) (h : y ≠ x) : (t.put x v).at y = t.at y := by
  have : x.toNat ≠ y.toNat := fun e => h (BitVec.eq_of_toNat_eq e).symm
  simp [SymTable.at, SymTable.put, this]

/-- One entry of a table after a `put`. -/
theorem SymTable.at_put (t : SymTable α) (x y : Byte) (v : α) : (t.put x v).at y = if y = x then v else t.at y := by
  by_cases h : y = x
  · subst h; simp
  · simp [h, SymTable.at_put_ne t v h]

/-- Two tables with the same entries are equal. -/
theorem SymTable.ext_at {t u : SymTable α} (h : ∀ x, t.at x = u.at x) : t = u := by
  apply Vector.ext
  intro i hi
  have := h (BitVec.ofNat 8 i)
  simpa [SymTable.at, Nat.mod_eq_of_lt hi] using this

@[simp] theorem mem_allSymbols (x : Byte) : x ∈ allSymbols := by
  simp only [allSymbols, List.mem_map, List.mem_range]
  exact ⟨x.toNat, x.isLt, by simp⟩

theorem allSymbols_sorted : allSymbols.Pairwise (fun x y => x.toNat < y.toNat) := by
  simp only [allSymbols, List.pairwise_map]
  refine List.Pairwise.imp_of_mem ?_ List.pairwise_lt_range
  intro a b ha hb hab
  rw [List.mem_range] at ha hb
  simp only [BitVec.toNat_ofNat]
  omega

theorem allSymbols_nodup : allSymbols.Nodup :=
  allSymbols_sorted.imp fun h e => by simp [e] at h

@[simp] theorem allSymbols_length : allSymbols.length = 256 := by simp [allSymbols]

/-- The entries of a table, symbol by symbol. -/
theorem SymTable.entries_eq (t : SymTable α) : t.entries = allSymbols.map fun x => (x, t.at x) := by
  apply List.ext_getElem (by simp [SymTable.entries, allSymbols])
  intro i hi hi'
  have h : i < 256 := by simpa [SymTable.entries, allSymbols] using hi
  simp [SymTable.entries, allSymbols, SymTable.at, Nat.mod_eq_of_lt h]

theorem SymTable.toList_eq (t : SymTable α) : t.toList = allSymbols.map t.at := by
  apply List.ext_getElem (by simp)
  intro i hi hi'
  have h : i < 256 := by simpa using hi
  simp [allSymbols, SymTable.at, Nat.mod_eq_of_lt h]

@[simp] theorem SymTable.at_update (t : SymTable α) (f : Byte → α → α) (x : Byte) :
    (t.update f).at x = f x (t.at x) := by
  have h : x.toNat < 256 := x.isLt
  unfold SymTable.update
  simp [SymTable.at, SymTable.entries_eq, allSymbols]

/-- R40: the present symbols are those with a counter that is not zero, ascending. -/
theorem present_eq (h : SymTable Word) : present h = allSymbols.filter fun x => h.at x ≠ 0 := by
  rw [present, SymTable.entries_eq, List.filter_map, List.map_map]
  simp [Function.comp_def]

/-- A search over the entries is a search over the symbols. -/
theorem find?_entries (t : SymTable α) (p : Byte → α → Bool) :
    (t.entries.find? fun e => p e.1 e.2).map Prod.fst = allSymbols.find? fun x => p x (t.at x) := by
  rw [SymTable.entries_eq, List.find?_map]
  simp [Function.comp_def]

/-- R182: the search for the least overflowing symbol. -/
theorem firstOverflow_eq (h : SymTable Word) (data : List Byte) :
    firstOverflow h data = allSymbols.find? fun x => (h.at x).toNat + data.count x > 0xFFFFFFFF :=
  find?_entries h fun x n => n.toNat + data.count x > 0xFFFFFFFF

@[simp] theorem mem_present (h : SymTable Word) (x : Byte) : x ∈ present h ↔ h.at x ≠ 0 := by simp [present_eq]

theorem present_nodup (h : SymTable Word) : (present h).Nodup := present_eq h ▸ allSymbols_nodup.filter _

theorem present_length_le (h : SymTable Word) : (present h).length ≤ 256 := by
  rw [present_eq]; exact allSymbols_length ▸ List.length_filter_le _ _

/-- A search over all symbols finds the least one with a property, or shows there is none. -/
theorem find?_allSymbols_eq_some {p : Byte → Bool} {x : Byte} (hx : p x = true)
    (hlt : ∀ y, y.toNat < x.toNat → p y = false) : allSymbols.find? p = some x := by
  rw [List.find?_eq_some_iff_append]
  refine ⟨hx, ?_⟩
  obtain ⟨as, bs, h⟩ := List.append_of_mem (mem_allSymbols x)
  refine ⟨as, bs, h, fun a ha => ?_⟩
  have hs := allSymbols_sorted
  rw [h, List.pairwise_append] at hs
  simp [hlt a (hs.2.2 a ha x List.mem_cons_self)]

theorem find?_allSymbols_eq_none {p : Byte → Bool} : allSymbols.find? p = none ↔ ∀ x, p x = false := by
  simp [List.find?_eq_none]

/-- R302: the search for the least symbol in exactly one of the two sets. -/
theorem firstMismatch_eq (syms : List Byte) (h : SymTable Word) :
    firstMismatch syms h = allSymbols.find? fun x => decide (x ∈ syms) != decide (h.at x ≠ 0) :=
  find?_entries h fun x n => decide (x ∈ syms) != decide (n ≠ 0)

/-- R223: the number of symbols with a code. -/
theorem codeCount_eq (tab : SymTable Bits) : codeCount tab = (allSymbols.filter fun x => tab.at x ≠ []).length := by
  rw [codeCount, SymTable.toList_eq, List.filter_map, List.length_map]; rfl

/-- R201: `order` lists each present symbol once. -/
theorem order_perm (h : SymTable Word) : (order h).Perm (present h) := List.perm_insertionSort _ _

@[simp] theorem mem_order (h : SymTable Word) (x : Byte) : x ∈ order h ↔ h.at x ≠ 0 := by
  rw [(order_perm h).mem_iff, mem_present]

theorem order_nodup (h : SymTable Word) : (order h).Nodup := (order_perm h).nodup_iff.2 (present_nodup h)

theorem order_length (h : SymTable Word) : (order h).length = (present h).length := (order_perm h).length_eq

end Sys2Proof.Machine
end

