-- ==== Sys2Proof/Laws/Trees.lean ====
section
/-! SUPPORT. The laws of trees and node lists: counting, numbering, what one parsed record does to the
stack, and the invariant of the parser's stack (spec/42_tree_builder.md R205; spec/44_serdes.md R244). -/

namespace Sys2Proof.Machine

/-! ### Numbering -/

theorem number_snd (t : HTree) (n : Nat) : (t.number n).2 = n + t.nodes := by
  induction t generalizing n with
  | leaf s => rfl
  | node l r ihl ihr => simp [HTree.number, HTree.nodes, ihl, ihr]; omega

/-- The records of a Node: those of the left subtree, of the right subtree, and its own. -/
theorem number_node (l r : HTree) (n : Nat) :
    ((HTree.node l r).number n).1 = (l.number n).1 ++ (r.number (n + l.nodes)).1 ++
      [⟨(childField l (n + l.nodes - 1)).1, (childField l (n + l.nodes - 1)).2,
        (childField r (n + l.nodes + r.nodes - 1)).1, (childField r (n + l.nodes + r.nodes - 1)).2⟩] := by
  simp [HTree.number, number_snd]

@[simp] theorem number_length (t : HTree) (n : Nat) : (t.number n).1.length = t.nodes := by
  induction t generalizing n with
  | leaf s => rfl
  | node l r ihl ihr => simp [number_node, HTree.nodes, ihl, ihr, Nat.add_assoc]

@[simp] theorem records_length (t : HTree) : t.records.length = t.nodes := number_length t 0

/-! ### The image of a node list -/

/-- R120: four bytes for each record. -/
theorem flatMap_bytes_length (recs : List NodeRec) : (recs.flatMap NodeRec.bytes).length = 4 * recs.length := by
  induction recs with
  | nil => rfl
  | cons r recs ih =>
    simp only [List.flatMap_cons, List.length_append, ih, NodeRec.bytes, List.length_cons, List.length_nil]
    omega

/-- R124: the image of `n` records has `1 + 4n` bytes. -/
theorem image_length (recs : List NodeRec) : (image recs).length = 1 + 4 * recs.length := by
  rw [image, List.length_cons, flatMap_bytes_length]; omega

/-- R245: the records that lie where their bytes lie. -/
theorem recordsAt_of_bytes {s : State} {a : Nat} {recs : List NodeRec}
    (h : ∀ i < 4 * recs.length, some (s.dmem (a + i)) = (recs.flatMap NodeRec.bytes)[i]?) :
    s.recordsAt a recs.length = recs := by
  induction recs generalizing a with
  | nil => rfl
  | cons r recs ih =>
    have tail := ih (a := a + 4) fun i hi => by
      have := h (i + 4) (by rw [List.length_cons]; omega)
      rw [List.flatMap_cons, List.getElem?_append_right (by simp [NodeRec.bytes])] at this
      simpa [NodeRec.bytes, Nat.add_assoc, Nat.add_comm 4] using this
    have h0 := h 0 (by simp)
    have h1 := h 1 (by simp; omega)
    have h2 := h 2 (by simp; omega)
    have h3 := h 3 (by simp; omega)
    simp only [List.flatMap_cons, NodeRec.bytes, List.cons_append, List.nil_append, List.getElem?_cons_zero,
      List.getElem?_cons_succ, Option.some.injEq, Nat.add_zero] at h0 h1 h2 h3
    simp only [State.recordsAt, List.length_cons, List.range_succ_eq_map, List.map_cons, List.map_map]
    congr 1
    · simp [h0, h1, h2, h3]
    · refine Eq.trans (List.map_congr_left fun i _ => ?_) tail
      simp only [Function.comp, Nat.succ_eq_add_one, show a + 4 * (i + 1) = a + 4 + 4 * i by omega]

/-! ### The parser -/

/-- What completing the subtree `t`, numbered from `n`, leaves on the parser's stack. -/
def pushTree (t : HTree) (n : Nat) (st : List (Nat × HTree)) : List (Nat × HTree) :=
  match t with
  | .leaf _ => st
  | .node _ _ => (n + t.nodes - 1, t) :: st

/-- Taking back the child that was completed last. -/
theorem takeChild_pushTree (t : HTree) (n : Nat) (st : List (Nat × HTree)) (h : n + t.nodes ≤ 256) :
    takeChild (childField t (n + t.nodes - 1)).1 (childField t (n + t.nodes - 1)).2 (pushTree t n st) =
      some (t, st) := by
  cases t with
  | leaf s => simp [takeChild, childField, pushTree]
  | node l r =>
    simp only [takeChild, childField, pushTree, BitVec.toNat_ofNat]
    have : n + (HTree.node l r).nodes - 1 < 256 := by simp only [HTree.nodes] at h ⊢; omega
    simp [Nat.mod_eq_of_lt this]

theorem childField_fst_le (t : HTree) (n : Nat) : (childField t n).1.toNat ≤ 1 := by
  cases t <;> simp [childField]

/-- Parsing the records of a subtree completes that subtree. -/
theorem parseLoop_number (t : HTree) (n : Nat) (rest : List NodeRec) (st : List (Nat × HTree))
    (h : n + t.nodes ≤ 256) :
    parseLoop n ((t.number n).1 ++ rest) st = parseLoop (n + t.nodes) rest (pushTree t n st) := by
  induction t generalizing n rest st with
  | leaf s => rfl
  | node l r ihl ihr =>
    have hl : n + l.nodes ≤ 256 := by simp only [HTree.nodes] at h; omega
    have hr : n + l.nodes + r.nodes ≤ 256 := by simp only [HTree.nodes] at h; omega
    rw [number_node, List.append_assoc, List.append_assoc, ihl n _ st hl, ihr (n + l.nodes) _ _ hr]
    have hk := childField_fst_le l (n + l.nodes - 1)
    have hk' := childField_fst_le r (n + l.nodes + r.nodes - 1)
    simp only [List.cons_append, List.nil_append, parseLoop, parseRecord]
    rw [if_neg (by omega), takeChild_pushTree r _ _ hr]
    dsimp only
    rw [takeChild_pushTree l n st hl]
    simp only [pushTree, HTree.nodes]
    have e : n + l.nodes + r.nodes = n + (l.nodes + r.nodes + 1) - 1 := by omega
    have e' : n + l.nodes + r.nodes + 1 = n + (l.nodes + r.nodes + 1) := by omega
    rw [e', e]

/-- The parser's invariant: the stack `st` holds, bottom first, the subtrees that the records `done`
read so far complete, each with its root's number. -/
inductive StackOf : List (Nat × HTree) → List NodeRec → Prop
  | nil : StackOf [] []
  | cons {st : List (Nat × HTree)} {done : List NodeRec} (l r : HTree) (h : StackOf st done) :
      StackOf ((done.length + (HTree.node l r).nodes - 1, .node l r) :: st)
        (done ++ ((HTree.node l r).number done.length).1)

/-- Taking a child off the stack splits the records read so far at that child. -/
theorem takeChild_stackOf {kind value : Byte} {st st' : List (Nat × HTree)} {t : HTree} {done : List NodeRec}
    (hk : kind.toNat ≤ 1) (hs : StackOf st done) (h : takeChild kind value st = some (t, st')) :
    ∃ done', StackOf st' done' ∧ done = done' ++ (t.number done'.length).1 ∧
      (kind, value) = childField t (done.length - 1) := by
  unfold takeChild at h
  split at h
  · next hone =>
    cases hs with
    | nil => simp at h
    | @cons st0 done0 l r hs0 =>
      dsimp only at h
      split at h
      case isFalse => simp at h
      case isTrue hj =>
      simp only [Option.some.injEq, Prod.mk.injEq] at h
      obtain ⟨rfl, rfl⟩ := h
      refine ⟨done0, hs0, rfl, ?_⟩
      have hv : value = BitVec.ofNat 8 (done0.length + (HTree.node l r).nodes - 1) := by rw [hj]; simp
      rw [hone, hv]
      simp [childField]
  · next hne =>
    simp only [Option.some.injEq, Prod.mk.injEq] at h
    obtain ⟨rfl, rfl⟩ := h
    refine ⟨done, hs, by simp [HTree.number], ?_⟩
    have : kind = 0 := by
      apply BitVec.eq_of_toNat_eq
      have : kind.toNat ≠ 1 := fun e => hne (BitVec.eq_of_toNat_eq (by simpa using e))
      change kind.toNat = 0
      omega
    simp [childField, this]

/-- One record read keeps the parser's invariant. -/
theorem parseRecord_stackOf {st st' : List (Nat × HTree)} {done : List NodeRec} {r : NodeRec}
    (hs : StackOf st done) (h : parseRecord done.length r st = some st') : StackOf st' (done ++ [r]) := by
  unfold parseRecord at h
  split at h
  · simp at h
  · next hb =>
    change ¬(1 < r.lk.toNat ∨ 1 < r.rk.toNat) at hb
    split at h
    · simp at h
    · next right st1 hright =>
      split at h
      · simp at h
      · next left st2 hleft =>
        simp only [Option.some.injEq] at h
        subst h
        obtain ⟨d1, hs1, hd, hrf⟩ := takeChild_stackOf (by omega) hs hright
        obtain ⟨d2, hs2, hd1, hlf⟩ := takeChild_stackOf (by omega) hs1 hleft
        have key := StackOf.cons left right hs2
        have hlen : done.length = d2.length + left.nodes + right.nodes := by simp [hd, hd1, Nat.add_assoc]
        have hlen1 : d1.length = d2.length + left.nodes := by simp [hd1]
        have hrec : r = ⟨(childField left (d2.length + left.nodes - 1)).1,
            (childField left (d2.length + left.nodes - 1)).2,
            (childField right (d2.length + left.nodes + right.nodes - 1)).1,
            (childField right (d2.length + left.nodes + right.nodes - 1)).2⟩ := by
          rw [← hlen, ← hlen1, ← hlf, ← hrf]
        rw [number_node, ← hrec] at key
        rw [show done.length = d2.length + (HTree.node left right).nodes - 1 by
          simp only [hlen, HTree.nodes]; omega]
        have e : done ++ [r] = d2 ++ ((left.number d2.length).1 ++
            (right.number (d2.length + left.nodes)).1 ++ [r]) := by
          rw [hd, hlen1, hd1]; simp
        rw [e]
        exact key

/-- The records read keep the parser's invariant. -/
theorem parseLoop_stackOf {recs done : List NodeRec} {st st' : List (Nat × HTree)}
    (hs : StackOf st done) (h : parseLoop done.length recs st = .ok st') : StackOf st' (done ++ recs) := by
  induction recs generalizing st done with
  | nil => simp only [parseLoop, Except.ok.injEq] at h; subst h; simpa using hs
  | cons r recs ih =>
    simp only [parseLoop] at h
    split at h
    · simp at h
    · next st1 h1 =>
      have := ih (parseRecord_stackOf hs h1) (by simpa using h)
      simpa using this

/-- A successful parse: the loop ends with the one subtree that is the answer. -/
theorem parse_eq_ok {recs : List NodeRec} {t : HTree} (h : parse recs = .ok t) :
    ∃ j, parseLoop 0 recs [] = .ok [(j, t)] := by
  unfold parse at h
  split at h
  · simp at h
  · next j t' h' => simp only [Except.ok.injEq] at h; exact ⟨j, h ▸ h'⟩
  · simp at h

/-- A tree that a parse answers has a Node at its root. -/
theorem parse_isNode {recs : List NodeRec} {t : HTree} (h : parse recs = .ok t) : ∃ l r, t = .node l r := by
  obtain ⟨j, h⟩ := parse_eq_ok h
  have := parseLoop_stackOf .nil h
  cases this with
  | cons l r _ => exact ⟨l, r, rfl⟩

end Sys2Proof.Machine
end

