-- ==== Sys2Proof/Laws/Codes.lean ====
section
/-! SUPPORT. The laws of leaf positions and code tables (spec/43_code_table.md R222;
spec/46_optimizer.md R301, R302). -/

namespace Sys2Proof.Machine

theorem positions_map_snd (t : HTree) (d : Nat) : (t.positions d).map Prod.snd = t.leafSyms := by
  have : ∀ d d', (t.positions d).map Prod.snd = (t.positions d').map Prod.snd := by
    induction t with
    | leaf s => intro d d'; rfl
    | node l r ihl ihr => intro d d'; simp [HTree.positions, ihl (d + 1) (d' + 1), ihr (d + 1) (d' + 1)]
  exact this d 0

@[simp] theorem leafSyms_leaf (s : Byte) : (HTree.leaf s).leafSyms = [s] := rfl

@[simp] theorem leafSyms_node (l r : HTree) : (HTree.node l r).leafSyms = l.leafSyms ++ r.leafSyms := by
  rw [HTree.leafSyms, HTree.positions, List.map_append, positions_map_snd, positions_map_snd]

/-- A tree has one leaf more than it has Nodes. -/
theorem leafSyms_length (t : HTree) : t.leafSyms.length = t.nodes + 1 := by
  induction t with
  | leaf s => rfl
  | node l r ihl ihr => simp [HTree.nodes, ihl, ihr]; omega

/-- A symbol at no leaf keeps its entry through a walk. -/
theorem walk_at_of_not_mem {t : HTree} {x : Byte} (h : x ∉ t.leafSyms) (p : Bits) (tab : SymTable Bits) :
    (t.walk p tab).at x = tab.at x := by
  induction t generalizing p tab with
  | leaf s => exact SymTable.at_put_ne _ _ (by simpa using h)
  | node l r ihl ihr =>
    simp only [leafSyms_node, List.mem_append, not_or] at h
    rw [HTree.walk, ihr h.2, ihl h.1]

/-- The order on paths in which the left child comes before the right. -/
abbrev pathBefore : Bits → Bits → Prop := List.Lex fun a b => a = false ∧ b = true

/-- A symbol at some leaf gets, after a walk, the path of the last leaf that carries it. -/
theorem walk_at_of_mem {t : HTree} {x : Byte} (h : x ∈ t.leafSyms) (p : Bits) (tab : SymTable Bits) :
    ∃ q, (t.walk p tab).at x = p ++ q ∧ t.descend q = some (x, []) ∧ q.length ≤ t.nodes ∧
      ∀ q', t.descend q' = some (x, []) → q' = q ∨ pathBefore q' q := by
  induction t generalizing p tab with
  | leaf s =>
    simp only [leafSyms_leaf, List.mem_singleton] at h
    subst h
    refine ⟨[], by simp [HTree.walk], rfl, by simp, fun q' hq => ?_⟩
    simp only [HTree.descend, Option.some.injEq, Prod.mk.injEq, true_and] at hq
    exact .inl hq
  | node l r ihl ihr =>
    by_cases hr : x ∈ r.leafSyms
    · obtain ⟨q, hq, hd, hn, hlast⟩ := ihr hr (p ++ [true]) (l.walk (p ++ [false]) tab)
      refine ⟨true :: q, by simp [HTree.walk, hq], by simpa [HTree.descend] using hd,
        by simp only [List.length_cons, HTree.nodes]; omega, fun q' hq' => ?_⟩
      cases q' with
      | nil => simp [HTree.descend] at hq'
      | cons b q' =>
        cases b with
        | false => exact .inr (.rel ⟨rfl, rfl⟩)
        | true =>
          rcases hlast q' (by simpa [HTree.descend] using hq') with e | e
          · exact .inl (by rw [e])
          · exact .inr (.cons e)
    · have hl : x ∈ l.leafSyms := by simpa [hr] using h
      obtain ⟨q, hq, hd, hn, hlast⟩ := ihl hl (p ++ [false]) tab
      refine ⟨false :: q, by simp [HTree.walk, walk_at_of_not_mem hr, hq], by simpa [HTree.descend] using hd,
        by simp only [List.length_cons, HTree.nodes]; omega, fun q' hq' => ?_⟩
      cases q' with
      | nil => simp [HTree.descend] at hq'
      | cons b q' =>
        cases b with
        | false =>
          rcases hlast q' (by simpa [HTree.descend] using hq') with e | e
          · exact .inl (by rw [e])
          · exact .inr (.cons e)
        | true =>
          exfalso
          apply hr
          have : ∀ (t : HTree) (q : Bits) (y : Byte), t.descend q = some (y, []) → y ∈ t.leafSyms := by
            intro t
            induction t with
            | leaf s => intro q y hq; simp [HTree.descend] at hq; simp [hq.1]
            | node l r ihl ihr =>
              intro q y hq
              cases q with
              | nil => simp [HTree.descend] at hq
              | cons b q =>
                cases b <;> simp only [HTree.descend] at hq
                · simp [ihl q y (by simpa using hq)]
                · simp [ihr q y (by simpa using hq)]
          exact this r q' x (by simpa [HTree.descend] using hq')

/-- R222: the code of a symbol at a leaf leads to that symbol. -/
theorem codes_descend {t : HTree} {x : Byte} (h : x ∈ t.leafSyms) : t.descend (t.codes.at x) = some (x, []) := by
  obtain ⟨q, hq, hd, -⟩ := walk_at_of_mem h [] (SymTable.tabulate fun _ => [])
  rw [HTree.codes, hq]; exact hd

/-- R222: a symbol at no leaf has the empty code. -/
theorem codes_of_not_mem {t : HTree} {x : Byte} (h : x ∉ t.leafSyms) : t.codes.at x = [] := by
  rw [HTree.codes, walk_at_of_not_mem h]; simp

/-- R224: in a tree whose root is a Node, the symbols with a code are those at a leaf. -/
theorem codes_ne_nil_iff {l r : HTree} {x : Byte} :
    (HTree.node l r).codes.at x ≠ [] ↔ x ∈ (HTree.node l r).leafSyms := by
  constructor
  · intro h; by_contra hc; exact h (codes_of_not_mem hc)
  · intro h e
    have := codes_descend h
    rw [e] at this
    simp [HTree.descend] at this

end Sys2Proof.Machine
end

