-- ==== Sys2Proof/Laws/Build.lean ====
section
/-! SUPPORT. The laws of the tree builder: what one merge and the whole loop do to the queue
(spec/42_tree_builder.md R202, R206). -/

namespace Sys2Proof.Machine

/-- R202: a merge of a queue of two or more nodes, tail removed first. -/
theorem mergeOnce_append (q : List HTree) (b a : HTree) : mergeOnce (q ++ [b, a]) = .node a b :: q := by
  simp [mergeOnce]

/-- A queue of two or more nodes, split at its tail. -/
theorem exists_tail_two {q : List HTree} (h : 2 ≤ q.length) : ∃ q' b a, q = q' ++ [b, a] := by
  have : 2 ≤ q.reverse.length := by simpa using h
  match hq : q.reverse, this with
  | a :: b :: rest, _ =>
    refine ⟨rest.reverse, b, a, ?_⟩
    have := congrArg List.reverse hq
    simpa using this

/-- R202: the loop on a queue that is not empty leaves one tree with the same leaves, and one Node more
for each merge. -/
theorem mergeLoop_spec (n : Nat) (q : List HTree) (h0 : q ≠ []) (hn : q.length ≤ n + 1) :
    ∃ t, mergeLoop n q = [t] ∧ t.leafSyms.Perm (q.flatMap HTree.leafSyms) := by
  induction n generalizing q with
  | zero =>
    have : q.length = 1 := by have := List.length_pos_iff.2 h0; omega
    obtain ⟨t, rfl⟩ := List.length_eq_one_iff.1 this
    exact ⟨t, rfl, by simp⟩
  | succ n ih =>
    rw [mergeLoop]
    by_cases h2 : 2 ≤ q.length
    · obtain ⟨q', b, a, rfl⟩ := exists_tail_two h2
      rw [mergeOnce_append]
      obtain ⟨t, ht, hp⟩ := ih (.node a b :: q') (by simp) (by simp at hn ⊢; omega)
      refine ⟨t, ht, hp.trans ?_⟩
      simp only [List.flatMap_cons, leafSyms_node, List.flatMap_append, List.flatMap_nil, List.append_nil]
      exact List.perm_append_comm.trans (List.Perm.append_left _ List.perm_append_comm)
    · have : q.length = 1 := by have := List.length_pos_iff.2 h0; omega
      obtain ⟨t, rfl⟩ := List.length_eq_one_iff.1 this
      exact ih [t] (by simp) (by simp)

/-- R204: only the empty table has no tree. -/
theorem build_eq_none_iff {h : SymTable Word} : build h = none ↔ ∀ x, h.at x = 0 := by
  have key : order h = [] ↔ ∀ x, h.at x = 0 := by
    rw [List.eq_nil_iff_forall_not_mem]; simp
  rw [← key]
  unfold build
  split
  · next e => simp [e]
  · next e => simp [e]
  · next e1 e2 =>
    obtain ⟨t, ht, -⟩ := mergeLoop_spec (order h).length ((order h).map .leaf) (by simpa using e1) (by simp)
    simp only [ht, List.head?_cons, reduceCtorEq, false_iff]
    exact e1

/-- R202, R203: a built tree has a Node at its root, each present symbol on a leaf, and, from two present
symbols on, each on exactly one. -/
theorem build_eq_some {h : SymTable Word} {t : HTree} (ht : build h = some t) :
    (∃ l r, t = .node l r) ∧ (∀ x, x ∈ t.leafSyms ↔ h.at x ≠ 0) ∧
      ((∃ s, order h = [s] ∧ t = .node (.leaf s) (.leaf s)) ∨
       (2 ≤ (order h).length ∧ t.leafSyms.Perm (order h))) := by
  unfold build at ht
  split at ht
  · simp at ht
  · next s hs =>
    simp only [Option.some.injEq] at ht
    subst ht
    refine ⟨⟨_, _, rfl⟩, fun x => ?_, .inl ⟨s, hs, rfl⟩⟩
    rw [← mem_order, hs]; simp
  · next e1 e2 =>
    obtain ⟨t', ht', hp⟩ := mergeLoop_spec (order h).length ((order h).map .leaf) (by simpa using e1) (by simp)
    rw [ht'] at ht
    simp only [List.head?_cons, Option.some.injEq] at ht
    subst ht
    have hp' : t'.leafSyms.Perm (order h) := by simpa [List.flatMap_map] using hp
    have h2 : 2 ≤ (order h).length := by
      match ho : order h with
      | [] => exact absurd ho e1
      | [s] => exact absurd ho (e2 s)
      | _ :: _ :: _ => simp
    refine ⟨?_, fun x => by rw [hp'.mem_iff, mem_order], .inr ⟨h2, hp'⟩⟩
    cases t' with
    | leaf s => have := hp'.length_eq; simp at this; omega
    | node l r => exact ⟨l, r, rfl⟩

/-- R206: a built tree has 1 to 255 Nodes. -/
theorem build_nodes {h : SymTable Word} {t : HTree} (ht : build h = some t) : 1 ≤ t.nodes ∧ t.nodes ≤ 255 := by
  obtain ⟨⟨l, r, e⟩, -, hc⟩ := build_eq_some ht
  refine ⟨by rw [e]; simp [HTree.nodes], ?_⟩
  rcases hc with ⟨s, -, rfl⟩ | ⟨-, hp⟩
  · simp [HTree.nodes]
  · have h1 := hp.length_eq
    have h2 := order_length h
    have h3 := present_length_le h
    have h4 := leafSyms_length t
    omega

/-- R180: the table of a byte sequence of fewer than 2^32 bytes holds the exact counts. -/
theorem histOf_at {data : List Byte} (h : data.length < 2 ^ 32) (x : Byte) :
    ((histOf data).at x).toNat = data.count x := by
  have := List.count_le_length (a := x) (l := data)
  simp [histOf]; omega

/-- R40, R180: the present symbols of a table of data are the symbols of the data. -/
theorem histOf_ne_zero {data : List Byte} (h : data.length < 2 ^ 32) (x : Byte) :
    (histOf data).at x ≠ 0 ↔ x ∈ data := by
  rw [← List.count_pos_iff, ← histOf_at h, Nat.pos_iff_ne_zero, ne_eq, ne_eq]
  exact not_congr ⟨fun e => by rw [e]; rfl, fun e => BitVec.eq_of_toNat_eq e⟩

/-- R304: after the builder the optimizer cannot fail. -/
theorem optimize_build_symbols {h : SymTable Word} {t : HTree} (ht : build h = some t) :
    (present h).length = 1 ∨ t.leafSyms.Nodup := by
  obtain ⟨-, -, ⟨x, hx, -⟩ | ⟨-, hp⟩⟩ := build_eq_some ht
  · left; rw [← order_length, hx]; rfl
  · right; exact hp.nodup_iff.2 (order_nodup h)

end Sys2Proof.Machine
end

