-- ==== Sys2Proof/Laws/Optimize.lean ====
section
/-! SUPPORT. The laws of the optimizer: what a relabelling does to a tree, that the assignment of symbols
is a permutation of them, and when `optimize` succeeds (spec/46_optimizer.md R301, R302). -/

namespace Sys2Proof.Machine

/-- R302: a relabelling takes as many symbols as the tree has leaves. -/
theorem relabel_snd (t : HTree) (xs : List Byte) : (t.relabel xs).2 = xs.drop (t.nodes + 1) := by
  induction t generalizing xs with
  | leaf s => cases xs <;> simp [HTree.relabel, HTree.nodes]
  | node l r ihl ihr =>
    simp only [HTree.relabel, ihl, ihr, HTree.nodes, List.drop_drop]
    congr 1; omega

/-- R302: a relabelling keeps the number of Nodes and the depth of every position. -/
theorem relabel_nodes (t : HTree) (xs : List Byte) : (t.relabel xs).1.nodes = t.nodes := by
  induction t generalizing xs with
  | leaf s => cases xs <;> rfl
  | node l r ihl ihr => simp [HTree.relabel, HTree.nodes, ihl, ihr]

theorem relabel_depths (t : HTree) (xs : List Byte) (d : Nat) :
    ((t.relabel xs).1.positions d).map Prod.fst = (t.positions d).map Prod.fst := by
  induction t generalizing xs d with
  | leaf s => cases xs <;> rfl
  | node l r ihl ihr => simp [HTree.relabel, HTree.positions, ihl, ihr]

/-- R302: the leaves of a relabelled tree carry the list's symbols, in order. -/
theorem relabel_leafSyms (t : HTree) (xs : List Byte) (h : t.nodes + 1 ≤ xs.length) :
    (t.relabel xs).1.leafSyms = xs.take (t.nodes + 1) := by
  induction t generalizing xs with
  | leaf s =>
    cases xs with
    | nil => simp at h
    | cons x xs => simp [HTree.relabel, HTree.nodes]
  | node l r ihl ihr =>
    simp only [HTree.nodes] at h
    simp only [HTree.relabel, leafSyms_node, relabel_snd, HTree.nodes]
    rw [ihl xs (by omega), ihr _ (by simp; omega),
      show l.nodes + r.nodes + 1 + 1 = (l.nodes + 1) + (r.nodes + 1) by omega]
    exact List.take_add.symm

/-- R302: a relabelled tree with a Node at its root has one there. -/
theorem relabel_node (l r : HTree) (xs : List Byte) :
    ((HTree.node l r).relabel xs).1 = .node (l.relabel xs).1 (r.relabel (l.relabel xs).2).1 := rfl

theorem positions_length (t : HTree) (d : Nat) : (t.positions d).length = t.nodes + 1 := by
  rw [← leafSyms_length, ← positions_map_snd t d, List.length_map]

theorem positionOrder_perm (depths : List Nat) : (positionOrder depths).Perm (List.range depths.length) :=
  List.perm_insertionSort _ _

/-- R302: `newsym[pi[k]] = sigma[k]` for every `k`, when no position is named twice. -/
theorem assignSyms_getElem? {pi : List Nat} {sigma : List Byte} (hn : pi.Nodup) (hl : pi.length = sigma.length)
    (hlt : ∀ i ∈ pi, i < pi.length) {k : Nat} (hk : k < pi.length) :
    (assignSyms pi sigma)[pi[k]]? = sigma[k]? := by
  have key : ∀ (ps : List (Nat × Byte)) (acc : List Byte), (ps.map Prod.fst).Nodup →
      (∀ p ∈ ps, p.1 < acc.length) →
      (ps.foldl (fun acc p => acc.set p.1 p.2) acc).length = acc.length ∧
      (∀ j, j ∉ ps.map Prod.fst → (ps.foldl (fun acc p => acc.set p.1 p.2) acc)[j]? = acc[j]?) ∧
      ∀ p ∈ ps, (ps.foldl (fun acc p => acc.set p.1 p.2) acc)[p.1]? = some p.2 := by
    intro ps
    induction ps with
    | nil => intro acc _ _; simp
    | cons p ps ih =>
      intro acc hn hlt
      simp only [List.map_cons, List.nodup_cons] at hn
      obtain ⟨h1, h2, h3⟩ := ih (acc.set p.1 p.2) hn.2 fun q hq => by
        simpa using hlt q (List.mem_cons_of_mem _ hq)
      refine ⟨by simpa using h1, fun j hj => ?_, fun q hq => ?_⟩
      · simp only [List.map_cons, List.mem_cons, not_or] at hj
        rw [List.foldl_cons, h2 j hj.2, List.getElem?_set_ne (Ne.symm hj.1)]
      · rw [List.foldl_cons]
        rcases List.mem_cons.1 hq with rfl | hq
        · rw [h2 q.1 hn.1, List.getElem?_set_self (hlt q List.mem_cons_self)]
        · exact h3 q hq
  have hz : (pi.zip sigma).map Prod.fst = pi := List.map_fst_zip (by omega)
  obtain ⟨-, -, h⟩ := key (pi.zip sigma) (List.replicate pi.length 0) (by rw [hz]; exact hn) (by
    intro p hp
    have : p.1 ∈ pi := by rw [← hz]; exact List.mem_map_of_mem hp
    simpa using hlt p.1 this)
  have hk' : k < sigma.length := by omega
  have hm : (pi[k], sigma[k]) ∈ pi.zip sigma := by
    refine List.mem_iff_getElem.2 ⟨k, by simp; omega, by simp⟩
  rw [assignSyms, h _ hm, List.getElem?_eq_getElem hk']

theorem assignSyms_length (pi : List Nat) (sigma : List Byte) : (assignSyms pi sigma).length = pi.length := by
  have : ∀ (ps : List (Nat × Byte)) (acc : List Byte),
      (ps.foldl (fun acc p => acc.set p.1 p.2) acc).length = acc.length := by
    intro ps
    induction ps with
    | nil => intro acc; rfl
    | cons p ps ih => intro acc; rw [List.foldl_cons, ih]; simp
  rw [assignSyms, this]; simp

/-- R302: along the position order, the new symbols are the symbol order. -/
theorem map_assignSyms {pi : List Nat} {sigma : List Byte} (hn : pi.Perm (List.range pi.length))
    (hl : pi.length = sigma.length) : pi.map (fun i => (assignSyms pi sigma)[i]?) = sigma.map some := by
  apply List.ext_getElem (by simpa using hl)
  intro k hk hk'
  simp only [List.length_map] at hk hk'
  have hnd : pi.Nodup := hn.nodup_iff.2 List.nodup_range
  have hlt : ∀ i ∈ pi, i < pi.length := fun i hi => List.mem_range.1 (hn.mem_iff.1 hi)
  simp [assignSyms_getElem? hnd hl hlt hk, hk']

/-- R302: the assignment is a permutation of the symbols. -/
theorem assignSyms_perm {pi : List Nat} {sigma : List Byte} (hn : pi.Perm (List.range pi.length))
    (hl : pi.length = sigma.length) : (assignSyms pi sigma).Perm sigma := by
  have h1 := map_assignSyms hn hl
  have h2 : (pi.map fun i => (assignSyms pi sigma)[i]?).Perm
      ((List.range pi.length).map fun i => (assignSyms pi sigma)[i]?) := hn.map _
  have h3 : (List.range pi.length).map (fun i => (assignSyms pi sigma)[i]?) = (assignSyms pi sigma).map some := by
    apply List.ext_getElem (by simp [assignSyms_length])
    intro k hk hk'
    simp only [List.length_map, List.length_range] at hk
    simp [assignSyms_length, hk]
  rw [h1, h3] at h2
  exact (List.map_perm_map_iff (Option.some_injective _)).1 h2.symm

/-- R302: no symbol is in exactly one of the two sets when they are equal. -/
theorem firstMismatch_eq_none {syms : List Byte} {h : SymTable Word} :
    firstMismatch syms h = none ↔ ∀ x, x ∈ syms ↔ h.at x ≠ 0 := by
  rw [firstMismatch_eq, find?_allSymbols_eq_none]
  refine forall_congr' fun x => ?_
  by_cases hx : x ∈ syms <;> by_cases hh : h.at x = 0 <;> simp [hx, hh]

/-- R302: no symbol is on two leaves when the leaves' symbols are distinct. -/
theorem firstRepeat_eq_none {syms : List Byte} : firstRepeat syms = none ↔ syms.Nodup := by
  rw [firstRepeat, find?_allSymbols_eq_none, List.nodup_iff_count_le_one]
  refine forall_congr' fun x => ?_
  simp only [decide_eq_false_iff_not, not_le]; omega

/-- What a successful `optimize` answers: the sets agree; and either one symbol is present and the tree is
left as it is, or no symbol is on two leaves and the leaves carry the assigned symbols. -/
theorem optimize_eq_ok {t t' : HTree} {h : SymTable Word} {n : Nat} (ho : optimize t h = .ok (t', n)) :
    (∀ x, x ∈ t.leafSyms ↔ h.at x ≠ 0) ∧
    (((present h).length = 1 ∧ t' = t ∧ n = 0) ∨
     ((present h).length ≠ 1 ∧ t.leafSyms.Nodup ∧
      t' = (t.relabel (assignSyms (positionOrder ((t.positions 0).map Prod.fst)) (order h))).1 ∧
      n = (((assignSyms (positionOrder ((t.positions 0).map Prod.fst)) (order h)).zip t.leafSyms).filter
        fun p => p.1 ≠ p.2).length)) := by
  unfold optimize at ho
  dsimp only at ho
  split at ho
  · simp [raiseErr] at ho
  · next hm =>
    refine ⟨firstMismatch_eq_none.1 hm, ?_⟩
    split at ho
    · next h1 => simp only [Except.ok.injEq, Prod.mk.injEq] at ho; exact .inl ⟨h1, ho.1.symm, ho.2.symm⟩
    · next h1 =>
      split at ho
      · simp [raiseErr] at ho
      · next hr =>
        simp only [Except.ok.injEq, Prod.mk.injEq] at ho
        exact .inr ⟨h1, firstRepeat_eq_none.1 hr, ho.1.symm, ho.2.symm⟩

/-- R302: `optimize` succeeds when the sets agree and one symbol is present or none is on two leaves. -/
theorem optimize_isOk {t : HTree} {h : SymTable Word} (hs : ∀ x, x ∈ t.leafSyms ↔ h.at x ≠ 0)
    (hc : (present h).length = 1 ∨ t.leafSyms.Nodup) : ∃ t' n, optimize t h = .ok (t', n) := by
  unfold optimize
  simp only [firstMismatch_eq_none.2 hs]
  split
  · exact ⟨_, _, rfl⟩
  · next h1 => simp only [firstRepeat_eq_none.2 (hc.resolve_left h1)]; exact ⟨_, _, rfl⟩

/-- The symbol order of the table has as many symbols as the tree has leaves. -/
theorem order_length_of_nodup {t : HTree} {h : SymTable Word} (hs : ∀ x, x ∈ t.leafSyms ↔ h.at x ≠ 0)
    (hn : t.leafSyms.Nodup) : t.leafSyms.Perm (order h) := by
  rw [List.perm_ext_iff_of_nodup hn (order_nodup h)]
  intro x; rw [hs, mem_order]

/-- R302, R304: the optimized tree has the same shape, and the same symbols on its leaves. -/
theorem optimize_shape {t t' : HTree} {h : SymTable Word} {n : Nat} (ho : optimize t h = .ok (t', n)) :
    t'.nodes = t.nodes ∧ (t'.positions 0).map Prod.fst = (t.positions 0).map Prod.fst ∧
      t'.leafSyms.Perm t.leafSyms := by
  obtain ⟨hs, ⟨-, rfl, -⟩ | ⟨-, hn, rfl, -⟩⟩ := optimize_eq_ok ho
  · exact ⟨rfl, rfl, .refl _⟩
  · have hp := order_length_of_nodup hs hn
    have hpi := positionOrder_perm ((t.positions 0).map Prod.fst)
    have hlen : (positionOrder ((t.positions 0).map Prod.fst)).length = t.nodes + 1 := by
      simp [hpi.length_eq, positions_length]
    have hol : (order h).length = t.nodes + 1 := by rw [← hp.length_eq, leafSyms_length]
    have ha := assignSyms_perm (sigma := order h) (pi := positionOrder ((t.positions 0).map Prod.fst))
      (by rw [hlen]; simpa [positions_length] using hpi) (by omega)
    refine ⟨relabel_nodes _ _, relabel_depths _ _ _, ?_⟩
    rw [relabel_leafSyms _ _ (by rw [assignSyms_length]; omega),
      List.take_of_length_le (by rw [assignSyms_length]; omega)]
    exact ha.trans hp.symm

end Sys2Proof.Machine
end

