-- ==== Sys2Proof/Laws/PerInstr.lean ====
section
/-! SUPPORT. What holds of every instruction as syntax: its word is one of the legal command words, with the
fields of its row of the opcode table (spec/30_encoding.md R110 to R112). -/

namespace Sys2Proof.Laws.LegalEncoding

/-- The encoded word is legal, its reserved bits are 0, and its fields are the instruction's own. -/
def Statement (i : Instr) : Prop :=
  i.wellFormed = true ∧ WellFormed.legalWord (encode i) = true ∧ rsvField (encode i) = 0 ∧
    opcField (encode i) = opcodeOf i ∧ oField (encode i) = flagOf i

theorem nop : Statement .nop := by unfold Statement; decide
theorem histClear : Statement .histClear := by unfold Statement; decide
theorem histAcc : Statement .histAcc := by unfold Statement; decide
theorem build : Statement .build := by unfold Statement; decide
theorem genCodes : Statement .genCodes := by unfold Statement; decide
theorem serialize : Statement .serialize := by unfold Statement; decide
theorem deserialize : Statement .deserialize := by unfold Statement; decide
theorem pack : Statement .pack := by unfold Statement; decide
theorem unpack : Statement .unpack := by unfold Statement; decide
theorem optimize : Statement .optimize := by unfold Statement; decide
theorem compress : Statement .compress := by unfold Statement; decide
theorem compressO : Statement .compressO := by unfold Statement; decide
theorem decompress : Statement .decompress := by unfold Statement; decide

end Sys2Proof.Laws.LegalEncoding
end

