-- ==== Sys2Proof/Laws/Step.lean ====
section
/-! SUPPORT. What one step can do: the completion step or the host's step, and what the host's operations
do to the block (spec/10_state.md R30; spec/20_memory.md R82 to R86). -/

namespace Sys2Proof.Machine

/-- A step that goes on is a completion step or a host step. -/
theorem step_cases {s t : State} (h : step s = .next t) :
    (coreTurn s = true ∧ complete s = .next t) ∨ (coreTurn s = false ∧ t = hostTurn s) := by
  unfold step at h
  split at h
  · next hc => exact .inl ⟨hc, h⟩
  · next hc => exact .inr ⟨by simpa using hc, by simpa [eq_comm] using h⟩

/-- A completion step that goes on runs the decoded command, or raises ILLEGAL_CMD. -/
theorem complete_cases {s t : State} (h : complete s = .next t) :
    (∃ i, decode s.cmd = .ok i ∧ exec i s = .next t) ∨
    (∃ e, decode s.cmd = .error e ∧ t = raise (.illegalCmd s.cmd) s) := by
  unfold complete at h
  split at h
  · next i hi => exact .inl ⟨i, hi, h⟩
  · next e he => exact .inr ⟨e, he, by simpa [eq_comm] using h⟩

/-- A command is in flight when the core moves. -/
theorem busy_of_coreTurn {s : State} (h : coreTurn s = true) : s.busy = true := by
  simp only [coreTurn, Bool.and_eq_true] at h; exact h.1

/-- A host read of a register: refused, or performed. -/
theorem hostReadReg_cases (s : State) (off : Byte) (w : Width) :
    hostReadReg s off w = refuseRead s ∨
    ∃ r, regTarget off w = some r ∧ (s.busy = true → readableWhileBusy r = true) ∧
      hostReadReg s off w = { s.afterRead r with rdata := s.regValue r } := by
  unfold hostReadReg
  split
  · exact .inl rfl
  · next r hr =>
    split
    · exact .inl rfl
    · next hb => exact .inr ⟨r, hr, fun h => by simpa [h] using hb, rfl⟩

/-- A host write of a register: refused, or performed. -/
theorem hostWriteReg_cases (s : State) (off : Byte) (w : Width) (v : Word) :
    hostWriteReg s off w v = refuseWrite s ∨
    ∃ r, regTarget off w = some r ∧ (s.busy = true → writableWhileBusy r = true) ∧
      hostWriteReg s off w v = s.writeReg r v := by
  unfold hostWriteReg
  split
  · exact .inl rfl
  · next r hr =>
    split
    · exact .inl rfl
    · next hb => exact .inr ⟨r, hr, fun h => by simpa [h] using hb, rfl⟩

/-- R84: a host write of DMEM: refused, or performed inside DMEM while the block is idle. -/
theorem hostWriteMem_cases (s : State) (a : Nat) (w : Width) (v : Word) :
    hostWriteMem s a w v = refuseWrite s ∨
    (s.busy = false ∧ a % w.bytes = 0 ∧ a + w.bytes ≤ s.dmemSize ∧
      hostWriteMem s a w v = { s with mem := s.mem.write a (leBytes w.bytes v) }) := by
  unfold hostWriteMem
  split
  · next h =>
    simp only [memAccessOk, decide_eq_true_eq, Bool.not_eq_true'] at h
    exact .inr ⟨by simpa using h.1, h.2.1, h.2.2, rfl⟩
  · exact .inl rfl

/-- R84: a host read of DMEM changes nothing but STATUS.ACCERR and the host's copy. -/
theorem hostReadMem_frame (s : State) (a : Nat) (w : Width) :
    hostReadMem s a w =
      { s with accErr := (hostReadMem s a w).accErr, rdata := (hostReadMem s a w).rdata } := by
  unfold hostReadMem refuseRead
  split <;> rfl

/-- R86: while BUSY = 1 no register write reaches anything but CTRL.IE and the STATUS bits. -/
theorem writeReg_of_busy {s : State} {r : Reg} (h : writableWhileBusy r = true) (v : Word) :
    s.writeReg r v = { s with ie := v.getLsbD 0 } ∨ s.writeReg r v = clearFlags s v := by
  simp only [writableWhileBusy, decide_eq_true_eq] at h
  rcases h with rfl | rfl
  · exact .inl rfl
  · exact .inr rfl

/-- DMEM_SIZE depends on DMEM_AW alone. -/
theorem dmemSize_congr {s t : State} (h : t.cfg = s.cfg) : t.dmemSize = s.dmemSize := by
  rw [State.dmemSize, State.dmemSize, h]

/-- The invariant depends on the fields it names alone. -/
theorem Inv.congr {s t : State} (hi : Inv s) (cfg : t.cfg = s.cfg) (mem : t.mem = s.mem)
    (tree : t.tree = s.tree) (code : t.code = s.code) (done : t.done = s.done) (err : t.err = s.err)
    (busy : t.busy = s.busy) (errCode : t.errCode = s.errCode) (res0 : t.res0 = s.res0)
    (res1 : t.res1 = s.res1) (res2 : t.res2 = s.res2) (errInfo : t.errInfo = s.errInfo) : Inv t := by
  have hsize := dmemSize_congr cfg
  refine ⟨?_, ?_, ?_, ?_, ?_, ?_, ?_, ?_⟩
  · rw [cfg]; exact hi.cfg
  · rw [mem]; exact hi.mem
  · rw [mem, hsize]; exact hi.memRange
  · rw [tree]; exact hi.tree
  · rw [tree, code]; exact hi.code
  · rw [done, err]; exact hi.flags
  · rw [done, err, busy, errCode, res0, res1, res2, errInfo]; exact hi.busy
  · rw [errCode]; exact hi.errCode

end Sys2Proof.Machine
end

