-- ==== Sys2Proof/Tests/Slice0.lean ====
section
/-! SUPPORT. The model's own tests: ill-formed words and parameters are refused; words written out from
spec/30_encoding.md R110 and R111 decode to their commands; one completion step or one host step against a
vector of spec/95_test_vectors.md (its number is in the comment); and, for every statement that has hypotheses, a
state and operands that meet them together (the theorems named `wit_…`, after the statement). -/

namespace Sys2Proof.Tests

open Sys2Proof Sys2Proof.Machine

-- One check after another: each evaluates tables of 256 entries, and side by side they need much memory.
set_option Elab.async false

/-! ### Helpers -/

/-- The state a step answers, if it answers one. -/
def nextOf (o : Host.Outcome State Fault Refusal) : Option State :=
  match o with
  | .next t => some t
  | .fault _ | .refused _ => none

theorem eq_next_of_nextOf {o : Host.Outcome State Fault Refusal} {t : State} (h : nextOf o = some t) :
    o = .next t := by
  cases o with
  | next u => exact congrArg _ (Option.some.inj h)
  | fault f => cases h
  | refused r => cases h

/-- From an evaluated check to a next state with that property. -/
theorem next_of_check {o : Host.Outcome State Fault Refusal} {P : State → Prop} [DecidablePred P]
    (h : (nextOf o).any (fun t => decide (P t)) = true) : ∃ t, o = .next t ∧ P t := by
  cases o with
  | next u => exact ⟨u, rfl, of_decide_eq_true h⟩
  | fault f => cases h
  | refused r => cases h

/-- A state at rest: reset, with bytes at an address. -/
def ram (a : Nat) (l : List Byte) : State := { State.reset with mem := Memory.write [] a l }

/-- The argument registers. -/
def args (s : State) (src slen dst dcap cnt : Word) : State :=
  { s with src := src, slen := slen, dst := dst, dcap := dcap, cnt := cnt }

/-- A histogram from symbols and counts. -/
def table (l : List (Byte × Word)) : SymTable Word := l.foldl (fun h p => h.put p.1 p.2) emptyHist

def withHist (s : State) (l : List (Byte × Word)) : State := { s with hist := table l }
def withTree (s : State) (recs : List NodeRec) : State := { s with tree := some recs }
def withCodes (s : State) (t : HTree) : State := { s with tree := some t.records, code := some t.codes }

/-- The state with a command in flight, its completion due. -/
def inFlight (s : State) (w : Word) : State := { acceptWord s w with delay := 0 }

/-- The tree of V3: `Node(Leaf 66, Node(Leaf 67, Leaf 65))`, and its node list. -/
def treeV3 : HTree := .node (.leaf 66) (.node (.leaf 67) (.leaf 65))
def recsV3 : List NodeRec := [⟨0, 67, 0, 65⟩, ⟨0, 66, 1, 0⟩]

/-- The tree of V15: `Node(Leaf 0, Node(Leaf 1, Leaf 2))`, and its node list. -/
def treeV15 : HTree := .node (.leaf 0) (.node (.leaf 1) (.leaf 2))
def recsV15 : List NodeRec := [⟨0, 1, 0, 2⟩, ⟨0, 0, 1, 0⟩]

/-- The stream of V7. -/
def streamV7 : List Byte := [0x02, 0x00, 0x43, 0x00, 0x41, 0x00, 0x42, 0x01, 0x00, 0x04, 0x00, 0x00, 0x00, 0xD0]

/-- The right-leaning chain of V14: 255 Nodes, the symbols from `n` on. -/
def chain : Nat → Nat → HTree
  | _, 0 => .leaf 0xFF
  | n, k + 1 => .node (.leaf (BitVec.ofNat 8 n)) (chain (n + 1) k)

/-! ### Ill-formed terms are refused (R112, R9) -/

theorem test_refuses_reserved_bit : WellFormed.reservedZero 0x00000200 = false := by decide
theorem test_refuses_reserved_opcode : WellFormed.opcodeDefined 0x0000000C = false := by decide
theorem test_refuses_flag : WellFormed.flagAllowed 0x00000109 = false := by decide
/-- V31. -/
theorem test_refuses_v31 : ([0x0C, 0xFF, 0x109, 0x100, 0x200, 0x80000000, 0x20A] : List Word).map
    WellFormed.legalWord = List.replicate 7 false := by decide
/-- V32. -/
theorem test_accepts_v32 : ([0, 1, 2, 3, 4, 5, 6, 7, 8, 9, 0xA, 0xB, 0x10A] : List Word).map
    WellFormed.legalWord = List.replicate 13 true := by decide
theorem test_refuses_dmem_aw : (Config.mk 7 0 0).wellFormed = false ∧ (Config.mk 33 0 0).wellFormed = false ∧
    (Config.mk 8 0 0).wellFormed = true ∧ (Config.mk 32 0 0).wellFormed = true := by decide

/-! ### Words written out bit by bit: RSV (23 bits), O, OPC (R110, R111) -/

theorem test_decode_nop : decode 0b00000000000000000000000_0_00000000 = .ok .nop := by decide
theorem test_decode_histClear : decode 0b00000000000000000000000_0_00000001 = .ok .histClear := by decide
theorem test_decode_histAcc : decode 0b00000000000000000000000_0_00000010 = .ok .histAcc := by decide
theorem test_decode_build : decode 0b00000000000000000000000_0_00000011 = .ok .build := by decide
theorem test_decode_genCodes : decode 0b00000000000000000000000_0_00000100 = .ok .genCodes := by decide
theorem test_decode_serialize : decode 0b00000000000000000000000_0_00000101 = .ok .serialize := by decide
theorem test_decode_deserialize : decode 0b00000000000000000000000_0_00000110 = .ok .deserialize := by decide
theorem test_decode_pack : decode 0b00000000000000000000000_0_00000111 = .ok .pack := by decide
theorem test_decode_unpack : decode 0b00000000000000000000000_0_00001000 = .ok .unpack := by decide
theorem test_decode_optimize : decode 0b00000000000000000000000_0_00001001 = .ok .optimize := by decide
theorem test_decode_compress : decode 0b00000000000000000000000_0_00001010 = .ok .compress := by decide
theorem test_decode_compressO : decode 0b00000000000000000000000_1_00001010 = .ok .compressO := by decide
theorem test_decode_decompress : decode 0b00000000000000000000000_0_00001011 = .ok .decompress := by decide
/-- R113, R114. -/
theorem test_decode_rejects : decode 0b00000000000000000000001_0_00001010 = .error .reservedBits ∧
    decode 0b00000000000000000000000_1_00001001 = .error .optimizeFlag ∧
    decode 0b00000000000000000000000_0_00001100 = .error .reservedOpcode := by decide
theorem test_decodeTableWord : decodeTableWord 32 0x10A = some .compressO ∧ decodeTableWord 32 0x20A = none := by
  decide

/-! ### One completion step, against the vectors -/

/-- V30. -/
theorem test_nop : (nextOf (exec .nop State.reset)).map (fun t => (t.statusWord, t.res0, t.errInfo)) =
    some (0x2, 0, 0) := by decide +kernel
/-- V31, V33: an illegal word through the step, whatever the table holds. -/
theorem test_illegal : (nextOf (step (inFlight State.reset 0x20A))).map (fun t => (t.statusWord, t.errInfo)) =
    some (0x1004, 0x20A) := by decide +kernel
/-- V12. -/
theorem test_histClear : (nextOf (exec .histClear (withHist State.reset [(65, 3), (66, 2)]))).map
    (fun t => (t.hist.at 65, t.hist.at 66, t.statusWord)) = some (0, 0, 0x2) := by decide +kernel
/-- V2. -/
theorem test_histAcc : (nextOf (exec .histAcc (args (ram 0x100 [0x41, 0x42, 0x43, 0x42]) 0x100 4 0 0 0))).map
    (fun t => (t.hist.at 65, t.hist.at 66, t.hist.at 67, t.res0, t.res1, t.res2)) = some (1, 2, 1, 0, 4, 3) := by
  decide +kernel
/-- V13. -/
theorem test_histAcc_overflow : (nextOf (exec .histAcc (args (withHist (ram 0x100 [7, 3])
    [(3, 0xFFFFFFFF), (7, 0xFFFFFFFF)]) 0x100 2 0 0 0))).map (fun t => (t.statusWord, t.errInfo)) =
    some (0x1704, 3) := by decide +kernel
/-- V3. -/
theorem test_build : (nextOf (exec .build (withHist State.reset [(65, 1), (66, 2), (67, 1)]))).map
    (fun t => (t.tree, t.res2, t.statusWord)) = some (some recsV3, 2, 0x12) := by decide +kernel
/-- V23. -/
theorem test_build_five : (nextOf (exec .build (withHist State.reset [(10, 5), (20, 4), (30, 3), (40, 2), (50, 1)]))).map
    State.tree = some (some [⟨0, 30, 0, 20⟩, ⟨0, 50, 0, 40⟩, ⟨0, 10, 1, 1⟩, ⟨1, 0, 1, 2⟩]) := by decide +kernel
/-- V4. -/
theorem test_genCodes : (nextOf (exec .genCodes (withTree State.reset recsV3))).map
    (fun t => (t.code.map fun c => [c.at 66, c.at 67, c.at 65, c.at 0], t.res2)) =
    some (some [[false], [true, false], [true, true], []], 0x00020003) := by decide +kernel
/-- V21: the last leaf of a symbol gives its code. -/
theorem test_genCodes_single : (nextOf (exec .genCodes (withTree State.reset [⟨0, 5, 0, 5⟩]))).map
    (fun t => (t.code.map fun c => c.at 5, t.res2)) = some (some [true], 0x00010001) := by decide +kernel
/-- V5. -/
theorem test_serialize : (nextOf (exec .serialize (args (withTree State.reset recsV3) 0 0 0x200 16 0))).map
    (fun t => (t.memRead 0x200 9, t.res0, t.res1, t.res2)) =
    some ([0x02, 0x00, 0x43, 0x00, 0x41, 0x00, 0x42, 0x01, 0x00], 9, 0, 2) := by decide +kernel
/-- V41. -/
theorem test_serialize_full : (nextOf (exec .serialize (args (withTree State.reset recsV3) 0 0 0x200 8 0))).map
    (fun t => (t.statusWord, t.errInfo)) = some (0x1214, 9) := by decide +kernel
/-- V6. -/
theorem test_deserialize : (nextOf (exec .deserialize (args (ram 0x200 (streamV7.take 9)) 0x200 9 0 0 0))).map
    (fun t => (t.tree, t.res0, t.res1, t.res2, t.statusWord)) = some (some recsV3, 0, 9, 2, 0x12) := by
  decide +kernel
/-- V40: the reference names node 1, the subtree is node 0. -/
theorem test_deserialize_malformed : (nextOf (exec .deserialize
    (args (ram 0x200 [0x02, 0x00, 0x43, 0x00, 0x41, 0x00, 0x42, 0x01, 0x01]) 0x200 9 0 0 0))).map
    (fun t => (t.statusWord, t.errInfo, t.tree)) = some (0x0404, 1, none) := by decide +kernel
/-- V1, W3. -/
theorem test_pack : (nextOf (exec .pack (args (withCodes (ram 0x100 [1, 2, 1, 0]) treeV15) 0x100 4 0x200 16 0))).map
    (fun t => (t.dmem 0x200, t.res0, t.res1, t.res2)) = some (0xB8, 1, 4, 1) := by decide +kernel
/-- V42. -/
theorem test_pack_noCode : (nextOf (exec .pack (args (withCodes (ram 0x100 [1, 3]) treeV15) 0x100 2 0x200 16 0))).map
    (fun t => (t.errCode, t.errInfo)) = some (0x16, 1) := by decide +kernel
/-- V9, CNT = 4. -/
theorem test_unpack : (nextOf (exec .unpack (args (withTree (ram 0x100 [0xB8]) recsV15) 0x100 1 0x200 16 4))).map
    (fun t => (t.memRead 0x200 4, t.res0, t.res1, t.res2)) = some ([1, 2, 1, 0], 4, 1, 1) := by decide +kernel
/-- V9, CNT = 7. -/
theorem test_unpack_truncated : (nextOf (exec .unpack (args (withTree (ram 0x100 [0xB8]) recsV15) 0x100 1 0x200 16 7))).map
    (fun t => (t.errCode, t.errInfo, t.mem.length)) = some (0x03, 5, 1) := by decide +kernel
/-- V44. -/
theorem test_optimize : (nextOf (exec .optimize (withHist (withTree State.reset recsV15) [(0, 1), (1, 5), (2, 5)]))).map
    (fun t => (t.tree, t.res2, t.statusWord)) = some (some [⟨0, 2, 0, 0⟩, ⟨0, 1, 1, 0⟩], 3, 0x12) := by decide +kernel
/-- V45: symbol 1 on two leaves. -/
theorem test_optimize_repeat : (nextOf (exec .optimize
    (withHist (withTree State.reset [⟨0, 1, 0, 1⟩, ⟨0, 2, 1, 0⟩]) [(1, 1), (2, 1)]))).map
    (fun t => (t.errCode, t.errInfo)) = some (0x02, 0x101) := by decide +kernel
/-- V7. -/
theorem test_compress : (nextOf (exec .compress (args (ram 0x100 [0x41, 0x42, 0x43, 0x42]) 0x100 4 0x200 64 0))).map
    (fun t => (t.memRead 0x200 14, t.res0, t.res1, t.res2, t.statusWord)) = some (streamV7, 14, 4, 2, 0x32) := by
  decide +kernel
/-- V49: the destination begins inside the source. -/
theorem test_compress_overlap : (nextOf (exec .compress (args (ram 0x100 [0x41, 0x42, 0x43, 0x42]) 0x100 4 0x102 64 0))).map
    (fun t => (t.errCode, t.errInfo)) = some (0x13, 0) := by decide +kernel
/-- V48. -/
theorem test_compressO : (nextOf (exec .compressO (args (ram 0x100 [0x41, 0x42, 0x43, 0x42]) 0x100 4 0x200 64 0))).map
    (fun t => (t.memRead 0x200 14, t.res0, t.res2)) =
    some ([0x02, 0x00, 0x41, 0x00, 0x43, 0x00, 0x42, 0x01, 0x00, 0x04, 0x00, 0x00, 0x00, 0x98], 14, 2) := by
  decide +kernel
/-- V8. -/
theorem test_decompress : (nextOf (exec .decompress (args (ram 0x200 streamV7) 0x200 14 0x300 4 0))).map
    (fun t => (t.memRead 0x300 4, t.res0, t.res1, t.res2, t.statusWord)) =
    some ([0x41, 0x42, 0x43, 0x42], 4, 14, 2, 0x12) := by decide +kernel
/-- V49: SLEN = 9 is shorter than the header. -/
theorem test_decompress_short : (nextOf (exec .decompress (args (ram 0x200 streamV7) 0x200 9 0x300 4 0))).map
    (fun t => (t.errCode, t.errInfo, t.tree)) = some (0x18, 13, none) := by decide +kernel

/-! ### One host step, against the vectors -/

/-- The state with one operation for the host to perform. -/
def asked (s : State) (op : HostOp) : State := { s with host := [op] }

/-- V37. -/
theorem test_id : (nextOf (step (asked State.reset (.readReg 0x00 .w32)))).map State.rdata = some 0x48430110 := by
  decide +kernel
/-- V36: a register read of one byte is refused. -/
theorem test_refused_read : (nextOf (step (asked State.reset (.readReg 0x08 .w8)))).map
    (fun t => (t.accErr, t.rdata)) = some (true, 0) := by decide +kernel
/-- V35. -/
theorem test_halfword_read : (nextOf (step (asked (ram 0x100 [0x41, 0x42, 0x43, 0x44]) (.readMem 0x102 .w16)))).map
    State.rdata = some 0x4443 := by decide +kernel
/-- V38: the write window wraps. -/
theorem test_hist_window : (nextOf (step (asked { State.reset with histIdx := 0xFF } (.writeReg 0x44 .w32 7)))).map
    (fun t => (t.hist.at 0xFF, t.histIdx)) = some (7, 0) := by decide +kernel
/-- V3: NODE_DATA of record 1. -/
theorem test_node_window : State.nodeDataWord { withTree State.reset recsV3 with nodeIdx := 1 } = 0x00014200 := by
  decide +kernel
/-- V4: CODE_BITS0 of symbol 65. -/
theorem test_code_window : State.codeBitsWord { withCodes State.reset treeV3 with codeIdx := 65 } 0 = 0xC0000000 := by
  decide +kernel
/-- The example of R119, and R118's byte operations. -/
theorem test_cmdOps : cmdOps .pack (some 0x100) (some 4) (some 0x200) (some 16) none =
      [.writeReg 0x10 .w32 0x100, .writeReg 0x14 .w32 4, .writeReg 0x18 .w32 0x200, .writeReg 0x1C .w32 16,
        .writeReg 0x0C .w32 0x00000007, .wait] ∧
    byteWrites 0x100 [7, 3] = [.writeMem 0x100 .w8 7, .writeMem 0x101 .w8 3] ∧
    byteReads 0x100 2 = [.readMem 0x100 .w8, .readMem 0x101 .w8] := by decide
/-- The issued word is what the very next step completes. -/
theorem test_withFetchWord : (nextOf (step (State.reset.withFetchWord 32 0x10A))).map (fun t => (t.cmd, t.errCode)) =
    some (0x10A, 0x01) := by decide +kernel

/-! ### Witnesses: for every statement with hypotheses, a state and operands that meet them -/

/-- The state of V7's input. -/
def inV7 : State := args (ram 0x100 [0x41, 0x42, 0x43, 0x42]) 0x100 4 0x200 64 0
/-- The state in which V7's stream lies at 0x200. -/
def outV7 : State := args (ram 0x200 streamV7) 0x200 14 0x300 4 0
/-- One counter short of overflow. -/
def nearFull : State := args (withHist (ram 0x100 [7, 3]) [(3, 0xFFFFFFFF), (7, 0xFFFFFFFF)]) 0x100 2 0 0 0

-- command words
theorem wit_LegalWordsSelectOneRow : WellFormed.legalWord 0x0000010A = true ∧ WellFormed.legalWord 0x0000000B = true ∧
    WellFormed.legalWord 0x0000000C = false ∧ WellFormed.legalWord 0x00000200 = false := by decide
theorem wit_DecodeEncodeAgree : Instr.compressO.wellFormed = true ∧ decode 0x0000010A = .ok .compressO := by decide
theorem wit_StepRunsTheDecodedCommand_core : coreTurn (inFlight State.reset 0x03) = true ∧
    decode (inFlight State.reset 0x03).cmd = .ok .build ∧ Instr.build.wellFormed = true := by decide +kernel
theorem wit_StepRunsTheDecodedCommand_noHost : coreTurn { inFlight State.reset 0x03 with delay := 2 } = true := by
  decide +kernel
theorem wit_StepRunsTheDecodedCommand_host : coreTurn State.reset = false ∧
    coreTurn { inFlight State.reset 0x03 with delay := 1, host := [.wait] } = false := by decide +kernel
theorem wit_IllegalWordRaisesIllegalCmd : coreTurn (inFlight State.reset 0x20A) = true ∧
    WellFormed.legalWord (inFlight State.reset 0x20A).cmd = false := by decide +kernel
theorem wit_IssueAcceptsEveryWord : (asked State.reset (.writeReg 0x0C .w32 0xFF)).busy = false ∧
    (asked State.reset (.writeReg 0x0C .w32 0xFF)).host = [.writeReg 0x0C .w32 0xFF] := by decide +kernel
theorem wit_IssueAcceptsEveryWord_busy :
    coreTurn { inFlight State.reset 0x03 with delay := 1, host := [.writeReg 0x0C .w32 0] } = false ∧
    { inFlight State.reset 0x03 with delay := 1, host := [.writeReg 0x0C .w32 0] }.busy = true := by decide +kernel
theorem wit_CompletionFinishesOrRaises : (∃ t, exec .histAcc inV7 = .next t ∧ t.done = true) ∧
    ∃ t, exec .genCodes State.reset = .next t ∧ t.err = true :=
  ⟨next_of_check (by decide +kernel), next_of_check (by decide +kernel)⟩
theorem wit_CommandsRaiseOnlyTheirErrors (i : Instr) : ∃ t, exec i State.reset = .next t ∧ t.busy = false := by
  cases i <;> exact next_of_check (by decide +kernel)

-- frames
theorem wit_NonStoringCommandsFrame (i : Instr)
    (hi : i ∈ [Instr.nop, .histClear, .histAcc, .build, .genCodes, .deserialize, .optimize]) :
    ∃ t, exec i (args (withHist (withTree (ram 0x100 (streamV7.take 9)) recsV3) [(65, 1), (66, 2), (67, 1)]) 0x100 9 0 0 0)
      = .next t ∧ t.errCode = 0 := by
  simp only [List.mem_cons, List.not_mem_nil, or_false] at hi
  rcases hi with rfl | rfl | rfl | rfl | rfl | rfl | rfl <;> exact next_of_check (by decide +kernel)
/-- A success, and the bytes just outside the stored ones. -/
theorem wit_StoringCommandsFrame_success : (∃ t, exec .compress inV7 = .next t ∧
      0x1FF < inV7.dst.toNat ∧ inV7.dst.toNat + t.res0.toNat ≤ 0x20E) ∧
    (∃ t, exec .decompress outV7 = .next t ∧ 0x2FF < outV7.dst.toNat ∧ outV7.dst.toNat + t.res0.toNat ≤ 0x304) ∧
    (∃ t, exec .serialize (args (withTree State.reset recsV3) 0 0 0x200 9 0) = .next t ∧ t.res0.toNat = 9) :=
  ⟨next_of_check (by decide +kernel), next_of_check (by decide +kernel), next_of_check (by decide +kernel)⟩
theorem wit_StoringCommandsFrame_error : (∃ t, exec .pack State.reset = .next t ∧ t.errCode ≠ 0) ∧
    (∃ t, exec .unpack State.reset = .next t ∧ t.errCode ≠ 0) ∧
    ∃ t, exec .compressO State.reset = .next t ∧ t.errCode ≠ 0 :=
  ⟨next_of_check (by decide +kernel), next_of_check (by decide +kernel), next_of_check (by decide +kernel)⟩

-- histogram (V34, V13)
theorem wit_HistAccAddsTheCounts_range : (args State.reset 0xFFFF 2 0 0 0).dmemSize <
    (args State.reset 0xFFFF 2 0 0 0).src.toNat + (args State.reset 0xFFFF 2 0 0 0).slen.toNat := by decide +kernel
theorem wit_HistAccAddsTheCounts_overflow : nearFull.src.toNat + nearFull.slen.toNat ≤ nearFull.dmemSize ∧
    0xFFFFFFFF < (nearFull.hist.at 3).toNat + nearFull.srcBytes.count 3 ∧
    ∀ y : Byte, y.toNat < (3 : Byte).toNat → (nearFull.hist.at y).toNat + nearFull.srcBytes.count y ≤ 0xFFFFFFFF := by
  refine ⟨by decide +kernel, by decide +kernel, fun y hy => ?_⟩
  have hy : y.toNat < 3 := hy
  have : y = 0 ∨ y = 1 ∨ y = 2 := by
    have h : y.toNat = 0 ∨ y.toNat = 1 ∨ y.toNat = 2 := by omega
    rcases h with h | h | h
    · exact .inl (BitVec.eq_of_toNat_eq h)
    · exact .inr (.inl (BitVec.eq_of_toNat_eq h))
    · exact .inr (.inr (BitVec.eq_of_toNat_eq h))
  rcases this with rfl | rfl | rfl <;> decide +kernel
/-- The greatest range, the last byte of DMEM, and an empty source just past it. -/
theorem wit_HistAccAddsTheCounts_counts : (∀ x : Byte, ((args State.reset 0x10000 0 0 0 0).hist.at x).toNat +
      (args State.reset 0x10000 0 0 0 0).srcBytes.count x ≤ 0xFFFFFFFF) ∧
    (args State.reset 0x10000 0 0 0 0).src.toNat + (args State.reset 0x10000 0 0 0 0).slen.toNat ≤
      (args State.reset 0x10000 0 0 0 0).dmemSize := by
  refine ⟨fun x => ?_, by decide +kernel⟩
  have h : (State.reset.hist.at x) = 0 := by simp [State.reset, SymTable.at]
  show (State.reset.hist.at x).toNat + List.count x [] ≤ 0xFFFFFFFF
  rw [h]; simp
theorem wit_HistogramOfConcatenation : (∃ t, exec .histClear inV7 = .next t ∧ t.done = true) ∧
    inV7.src.toNat + inV7.slen.toNat ≤ inV7.dmemSize ∧
    (0x101 : Word).toNat + (2 : Word).toNat ≤ inV7.dmemSize ∧
    ∀ x : Byte, (inV7.srcBytes ++ inV7.memRead (0x101 : Word).toNat (2 : Word).toNat).count x ≤ 0xFFFFFFFF := by
  refine ⟨next_of_check (by decide +kernel), by decide +kernel, by decide +kernel, fun x => ?_⟩
  refine Nat.le_trans List.count_le_length ?_
  decide +kernel

-- the tree builder
theorem wit_OrderIsByCountThenSymbol : order (table [(65, 1), (66, 2), (67, 1)]) = [66] ++ 65 :: [67] ∧
    (table [(65, 1), (66, 2), (67, 1)]).at 65 ≠ 0 ∧ (65 : Byte) ∉ [(66 : Byte)] := by decide +kernel
theorem wit_OneSymbolGivesTwoLeaves (y : Byte) : (table [(5, 10)]).at y ≠ 0 ↔ y = 5 := by
  by_cases h : y = 5#8 <;> simp [table, SymTable.at_put, emptyHist, h]
theorem wit_BuiltTreesAreBalanced : 2 ≤ (order (table [(2, 6), (3, 4)])).length ∧
    order (table [(2, 6), (3, 4)]) = order (table [(2, 9), (3, 1)]) := by decide +kernel
theorem wit_BuildStoresTheBuiltTree : (∀ x : Byte, State.reset.hist.at x = 0) ∧
    ∃ x : Byte, (withHist State.reset [(5, 10)]).hist.at x ≠ 0 :=
  ⟨fun x => by simp [State.reset, SymTable.at], 5, by decide +kernel⟩

-- node lists: the greatest tree, 255 Nodes (V14)
theorem wit_RecordsAndParseAreInverse_tree : (HTree.node (.leaf 0) (chain 1 254)).nodes ≤ 255 := by decide +kernel
theorem wit_RecordsAndParseAreInverse_list : recsV3.length ≤ 255 ∧ parse recsV3 = .ok treeV3 := by decide +kernel
theorem wit_MalformedListsAreReported_boolean : parseLoop 0 [] [] = .ok [] ∧
    1 < (NodeRec.mk 0 5 2 5).rk.toNat := ⟨rfl, by decide⟩
theorem wit_MalformedListsAreReported_right : parseLoop 0 (recsV3.take 1) [] = .ok [(0, .node (.leaf 67) (.leaf 65))] ∧
    (NodeRec.mk 0 66 1 1).lk.toNat ≤ 1 ∧ (NodeRec.mk 0 66 1 1).rk = 1 ∧
    ∀ j u st', [(0, HTree.node (.leaf 67) (.leaf 65))] = (j, u) :: st' → j ≠ (NodeRec.mk 0 66 1 1).rv.toNat := by
  refine ⟨rfl, by decide, rfl, ?_⟩
  rintro j u st' ⟨⟩; decide
theorem wit_MalformedListsAreReported_left : parseLoop 0 [] [] = .ok [] ∧
    (NodeRec.mk 1 0 0 1).lk = 1 ∧ (NodeRec.mk 1 0 0 1).rk = 0 ∧
    ∀ j u st', ([] : List (Nat × HTree)) = (j, u) :: st' → j ≠ (NodeRec.mk 1 0 0 1).lv.toNat := by
  refine ⟨rfl, rfl, rfl, ?_⟩
  rintro j u st' ⟨⟩
theorem wit_MalformedListsAreReported_both : parseLoop 0 (recsV3.take 1) [] = .ok [(0, .node (.leaf 67) (.leaf 65))] ∧
    (NodeRec.mk 1 0 1 0).lk = 1 ∧ (NodeRec.mk 1 0 1 0).rk = 1 ∧
    ∀ j u k v st', [(0, HTree.node (.leaf 67) (.leaf 65))] = (j, u) :: (k, v) :: st' → k ≠ (NodeRec.mk 1 0 1 0).lv.toNat := by
  refine ⟨rfl, rfl, rfl, ?_⟩
  rintro j u k v st' ⟨⟩
theorem wit_MalformedListsAreReported_count :
    parseLoop 0 [⟨0, 67, 0, 65⟩, ⟨0, 66, 0, 0⟩] [] = .ok [(1, .node (.leaf 66) (.leaf 0)), (0, .node (.leaf 67) (.leaf 65))] ∧
    [(1, HTree.node (.leaf 66) (.leaf 0)), (0, HTree.node (.leaf 67) (.leaf 65))].length ≠ 1 := ⟨rfl, by decide⟩
/-- The list too long for its count byte, at the least length. -/
theorem wit_SerializeWritesTheImage_overflow :
    (withTree State.reset (List.replicate 256 ⟨0, 0, 0, 0⟩)).tree = some (List.replicate 256 ⟨0, 0, 0, 0⟩) ∧
    255 < (List.replicate 256 (NodeRec.mk 0 0 0 0)).length ∧
    (List.replicate 256 (NodeRec.mk 0 0 0 0)).length < 2 ^ 32 := 
  ⟨rfl, by rw [List.length_replicate]; decide, by rw [List.length_replicate]; decide⟩
/-- V41's state at the last fitting address and at the first that does not fit. -/
theorem wit_SerializeWritesTheImage : (withTree State.reset recsV3).tree = some recsV3 ∧ recsV3.length ≤ 255 ∧
    State.reset.tree = none ∧
    (args State.reset 0 0 0xFFF7 9 0).dst.toNat + (1 + 4 * recsV3.length) ≤ (args State.reset 0 0 0xFFF7 9 0).dmemSize ∧
    (args State.reset 0 0 0xFFF8 9 0).dmemSize < (args State.reset 0 0 0xFFF8 9 0).dst.toNat + (1 + 4 * recsV3.length) ∧
    (args State.reset 0 0 0xFFF7 8 0).dcap.toNat < 1 + 4 * recsV3.length ∧
    1 + 4 * recsV3.length ≤ (args State.reset 0 0 0xFFF7 9 0).dcap.toNat := by decide +kernel
theorem wit_DeserializeReadsTheImage : 2 = (outV7.dmem outV7.src.toNat).toNat ∧ recsV3.length = 2 ∧
    (∀ (i : Nat) (r : NodeRec), recsV3[i]? = some r →
      r.lk = outV7.dmem (outV7.src.toNat + 1 + 4 * i) ∧ r.lv = outV7.dmem (outV7.src.toNat + 2 + 4 * i) ∧
      r.rk = outV7.dmem (outV7.src.toNat + 3 + 4 * i) ∧ r.rv = outV7.dmem (outV7.src.toNat + 4 + 4 * i)) ∧
    outV7.src.toNat + outV7.slen.toNat ≤ outV7.dmemSize ∧ 1 + 4 * 2 ≤ outV7.slen.toNat ∧ parse recsV3 = .ok treeV3 := by
  refine ⟨by decide +kernel, rfl, fun i r h => ?_, by decide +kernel, by decide +kernel, by decide +kernel⟩
  match i, h with
  | 0, h => cases Option.some.inj h; decide +kernel
  | 1, h => cases Option.some.inj h; decide +kernel
  | i + 2, h => cases h
/-- The error clauses: SLEN at 0, at the byte before the header's end, and past DMEM; and a malformed list. -/
theorem wit_DeserializeReadsTheImage_errors : (args outV7 0x200 0 0 0 0).slen = 0 ∧
    (args outV7 0x200 8 0 0 0).slen ≠ 0 ∧ (args outV7 0x200 8 0 0 0).slen.toNat < 1 + 4 * 2 ∧
    (args outV7 0x200 0xFE01 0 0 0).dmemSize < (args outV7 0x200 0xFE01 0 0 0).src.toNat + (args outV7 0x200 0xFE01 0 0 0).slen.toNat ∧
    parse [⟨0, 67, 0, 65⟩, ⟨0, 66, 1, 1⟩] = .error 1 := by decide +kernel
theorem treeStore_V3 : TreeStoreOk (some recsV3) := by
  intro recs h
  cases Option.some.inj h
  exact ⟨by decide, by decide, treeV3, by decide +kernel⟩
theorem wit_SerializeThenDeserialize : TreeStoreOk (args (withTree State.reset recsV3) 0 0 0x200 9 0).tree ∧
    (∃ t, exec .serialize (args (withTree State.reset recsV3) 0 0 0x200 9 0) = .next t ∧ t.errCode = 0) ∧
    (0x200 : Word).toNat + (9 : Word).toNat ≤ State.reset.dmemSize :=
  ⟨treeStore_V3, next_of_check (by decide +kernel), by decide +kernel⟩

-- code tables
theorem wit_CodesFollowTheTree : (65 : Byte) ∈ treeV3.leafSyms ∧ treeV3.descend [true, true] = some (65, []) ∧
    (68 : Byte) ∉ treeV3.leafSyms := by decide +kernel
theorem wit_CodesArePrefixFree : treeV3.leafSyms.Nodup ∧ (65 : Byte) ∈ treeV3.leafSyms ∧
    (66 : Byte) ∈ treeV3.leafSyms ∧ (65 : Byte) ≠ 66 := by decide +kernel
theorem wit_GenCodesStoresTheCodeTable : State.reset.tree = none ∧ (withTree State.reset recsV3).tree = some recsV3 ∧
    recsV3.length ≤ 255 ∧ parse recsV3 = .ok treeV3 := by decide +kernel

-- packing (V42)
def packV1 (src slen dst dcap : Word) : State := args (withCodes (ram 0x100 [1, 2, 1, 0]) treeV15) src slen dst dcap 0
theorem wit_PackWritesTheCodeBits : State.reset.code = none ∧ (packV1 0x100 4 0x104 1).code = some treeV15.codes ∧
    (∀ b ∈ (packV1 0x100 4 0x104 1).srcBytes, treeV15.codes.at b ≠ []) ∧
    ((packV1 0x100 4 0x104 1).srcBytes.flatMap (fun b => treeV15.codes.at b)).length = 7 ∧
    (packV1 0x100 4 0x104 1).dst.toNat + 1 ≤ (packV1 0x100 4 0x104 1).dmemSize ∧
    1 ≤ (packV1 0x100 4 0x104 1).dcap.toNat ∧ overlap 0x100 4 0x104 1 = false ∧ overlap 0x100 4 0x103 1 = true := by
  refine ⟨rfl, rfl, ?_⟩
  decide +kernel
theorem wit_PackWritesTheCodeBits_errors :
    (packV1 0xFFFE 4 0x200 1).dmemSize < (packV1 0xFFFE 4 0x200 1).src.toNat + (packV1 0xFFFE 4 0x200 1).slen.toNat ∧
    (packV1 0x100 4 0x10000 1).dmemSize < (packV1 0x100 4 0x10000 1).dst.toNat + 1 ∧
    (packV1 0x100 4 0xFFFF 0).dst.toNat + 1 ≤ (packV1 0x100 4 0xFFFF 0).dmemSize ∧ (packV1 0x100 4 0xFFFF 0).dcap.toNat < 1 := by
  decide +kernel
/-- The byte 3 at offset 1 is the first without a code. -/
theorem wit_PackWritesTheCodeBits_noCode : treeV15.codes.at ((ram 0x100 [1, 3]).dmem (0x100 + 1)) = [] ∧
    ∀ j < 1, treeV15.codes.at ((ram 0x100 [1, 3]).dmem (0x100 + j)) ≠ [] := by
  refine ⟨by decide +kernel, fun j hj => ?_⟩
  have : j = 0 := by omega
  subst this; decide +kernel

-- unpacking (V9)
def unpackV9 (slen dst dcap cnt : Word) : State := args (withTree (ram 0x100 [0xB8]) recsV15) 0x100 slen dst dcap cnt
theorem wit_UnpackWritesTheSymbols : State.reset.tree = none ∧ (unpackV9 1 0x101 4 4).tree = some recsV15 ∧
    parse recsV15 = .ok treeV15 ∧ (unpackV9 1 0x101 4 4).src.toNat + (unpackV9 1 0x101 4 4).slen.toNat ≤ (unpackV9 1 0x101 4 4).dmemSize ∧
    (unpackV9 1 0x101 4 4).dst.toNat + 4 ≤ (unpackV9 1 0x101 4 4).dmemSize ∧ 4 ≤ (unpackV9 1 0x101 4 4).dcap.toNat ∧
    overlap 0x100 1 0x101 4 = false ∧
    unpackbits treeV15 (unpackV9 1 0x101 4 4).srcBytes 4 = .ok ([1, 2, 1, 0], 7, 1) ∧
    unpackbits treeV15 (unpackV9 1 0x101 4 4).srcBytes 7 = .error (.raised (.truncatedStream 5)) := by decide +kernel
theorem wit_UnpackWritesTheSymbols_errors :
    (unpackV9 0xFF01 0x200 4 4).dmemSize < (unpackV9 0xFF01 0x200 4 4).src.toNat + (unpackV9 0xFF01 0x200 4 4).slen.toNat ∧
    (unpackV9 1 0xFFFD 4 4).dmemSize < (unpackV9 1 0xFFFD 4 4).dst.toNat + (unpackV9 1 0xFFFD 4 4).cnt.toNat ∧
    (unpackV9 1 0xFFFC 3 4).dst.toNat + (unpackV9 1 0xFFFC 3 4).cnt.toNat ≤ (unpackV9 1 0xFFFC 3 4).dmemSize ∧
    (unpackV9 1 0xFFFC 3 4).dcap.toNat < (unpackV9 1 0xFFFC 3 4).cnt.toNat ∧
    overlap 0x100 1 0xFD 4 = true := by decide +kernel
theorem wit_UnpackInvertsPack : packbits [1, 2, 1, 0] treeV15.codes = .ok ([0xB8], 1) := by decide +kernel

-- the optimizer (V44, V45)
def histV44 : SymTable Word := table [(0, 1), (1, 5), (2, 5)]
def treeV44 : HTree := .node (.leaf 1) (.node (.leaf 2) (.leaf 0))
theorem wit_OptimizeKeepsTheShape : optimize treeV15 histV44 = .ok (treeV44, 3) ∧
    treeV15.records[1]? = some ⟨0, 0, 1, 0⟩ ∧ treeV44.records[1]? = some ⟨0, 1, 1, 0⟩ ∧
    (NodeRec.mk 0 0 1 0).rk = 1 := by decide +kernel
theorem wit_OptimizeMinimisesTheWeightedLength : optimize treeV15 histV44 = .ok (treeV44, 3) ∧
    [(2 : Byte), 0, 1].Perm treeV15.leafSyms := by decide +kernel
theorem wit_OptimizeIsIdempotent : optimize treeV15 histV44 = .ok (treeV44, 3) := by decide +kernel
/-- Two pairs at the boundary of each clause: depths 1 and 2, and depth 2 at positions 1 and 2. -/
theorem wit_OptimizeAssignsPairwise : optimize treeV15 histV44 = .ok (treeV44, 3) ∧
    2 ≤ (allSymbols.filter fun y => histV44.at y ≠ 0).length ∧
    treeV44.positions 0 = [(1, 1), (2, 2), (2, 0)] := by
  refine ⟨by decide +kernel, by rw [← present_eq]; decide +kernel, by decide +kernel⟩
theorem wit_SymbolSetMismatchIsReported : parse recsV3 = .ok treeV3 ∧
    ¬ ((67 : Byte) ∈ treeV3.leafSyms ↔ (table [(65, 1), (66, 2)]).at 67 ≠ 0) ∧
    ∀ y : Byte, y.toNat < (67 : Byte).toNat → (y ∈ treeV3.leafSyms ↔ (table [(65, 1), (66, 2)]).at y ≠ 0) := by
  decide +kernel
theorem wit_SymbolSetMismatchIsReported_repeat :
    parse [⟨0, 1, 0, 1⟩, ⟨0, 2, 1, 0⟩] = .ok (.node (.leaf 2) (.node (.leaf 1) (.leaf 1))) ∧
    (∀ y : Byte, y ∈ [(2 : Byte), 1, 1] ↔ (table [(1, 1), (2, 1)]).at y ≠ 0) ∧
    2 ≤ (allSymbols.filter fun y => (table [(1, 1), (2, 1)]).at y ≠ 0).length ∧
    2 ≤ [(2 : Byte), 1, 1].count 1 ∧ ∀ y : Byte, y.toNat < (1 : Byte).toNat → [(2 : Byte), 1, 1].count y < 2 := by
  refine ⟨by decide +kernel, fun y => ?_, by rw [← present_eq]; decide +kernel, by decide, fun y hy => ?_⟩
  · by_cases h1 : y = 1#8 <;> by_cases h2 : y = 2#8 <;> simp [table, SymTable.at_put, emptyHist, h1, h2]
  · have h : y.toNat < 1 := hy
    have : y = 0 := BitVec.eq_of_toNat_eq (by simp; omega)
    subst this; decide
theorem wit_OptimizeReassignsTheLeaves : State.reset.tree = none ∧ parse recsV15 = .ok treeV15 ∧
    (∀ y : Byte, y ∈ treeV15.leafSyms ↔ histV44.at y ≠ 0) ∧ treeV15.leafSyms.Nodup := by
  refine ⟨rfl, by decide +kernel, fun y => ?_, by decide +kernel⟩
  change y ∈ [0#8, 1#8, 2#8] ↔ _
  by_cases h0 : y = 0#8 <;> by_cases h1 : y = 1#8 <;> by_cases h2 : y = 2#8 <;>
    simp [histV44, table, SymTable.at_put, emptyHist, h0, h1, h2]
theorem wit_OptimizeReassignsTheLeaves_mismatch : parse recsV3 = .ok treeV3 ∧
    optimize treeV3 (table [(65, 1), (66, 2)]) = .error (.raised (.symsetMismatch 0x43)) := by decide +kernel
theorem wit_OptimizeReassignsTheLeaves_one : parse [⟨0, 5, 0, 5⟩] = .ok (.node (.leaf 5) (.leaf 5)) ∧
    (∀ y : Byte, y ∈ (HTree.node (.leaf 5) (.leaf 5)).leafSyms ↔ (table [(5, 10)]).at y ≠ 0) ∧
    (allSymbols.filter fun y => (table [(5, 10)]).at y ≠ 0).length = 1 := by
  refine ⟨by decide +kernel, fun y => ?_, by rw [← present_eq]; decide +kernel⟩
  change y ∈ [5#8, 5#8] ↔ _
  by_cases h : y = 5#8 <;> simp [table, SymTable.at_put, emptyHist, h]

-- COMPRESS and DECOMPRESS (V7, V49)
theorem wit_CompressWritesTheStream : inV7.src.toNat + inV7.slen.toNat ≤ inV7.dmemSize ∧ inV7.slen ≠ 0 ∧
    inV7.dst.toNat + streamV7.length ≤ inV7.dmemSize ∧ streamV7.length ≤ inV7.dcap.toNat ∧
    overlap 0x100 4 0x200 streamV7.length = false ∧ overlap 0x100 4 0x102 streamV7.length = true := by decide +kernel
theorem wit_CompressWritesTheStream_errors : (args inV7 0x100 0 0 0 0).slen = 0 ∧
    (args inV7 0xFFFD 4 0 0 0).dmemSize < (args inV7 0xFFFD 4 0 0 0).src.toNat + (args inV7 0xFFFD 4 0 0 0).slen.toNat ∧
    (args inV7 0x100 4 0xFFF3 64 0).dmemSize < (args inV7 0x100 4 0xFFF3 64 0).dst.toNat + streamV7.length ∧
    (args inV7 0x100 4 0xFFF2 13 0).dst.toNat + streamV7.length ≤ (args inV7 0x100 4 0xFFF2 13 0).dmemSize ∧
    (args inV7 0x100 4 0xFFF2 13 0).dcap.toNat < streamV7.length ∧ streamV7.length < 2 ^ 32 := by decide +kernel
theorem wit_CompressIsTheUnitSequence (o : Bool) : inV7.cfg.wellFormed = true ∧
    ∃ t, exec (compressInstr o) inV7 = .next t ∧ t.errCode = 0 := by
  cases o <;> exact ⟨by decide +kernel, next_of_check (by decide +kernel)⟩
theorem wit_DecompressWritesTheBytes : 2 = (outV7.dmem outV7.src.toNat).toNat ∧ recsV3.length = 2 ∧
    4 = (outV7.dmem (outV7.src.toNat + 1 + 4 * 2)).toNat + (outV7.dmem (outV7.src.toNat + 2 + 4 * 2)).toNat * 2 ^ 8 +
      (outV7.dmem (outV7.src.toNat + 3 + 4 * 2)).toNat * 2 ^ 16 + (outV7.dmem (outV7.src.toNat + 4 + 4 * 2)).toNat * 2 ^ 24 ∧
    outV7.src.toNat + outV7.slen.toNat ≤ outV7.dmemSize ∧ 5 + 4 * 2 ≤ outV7.slen.toNat ∧ parse recsV3 = .ok treeV3 ∧
    outV7.dst.toNat + 4 ≤ outV7.dmemSize ∧ 4 ≤ outV7.dcap.toNat ∧ overlap 0x200 14 0x300 4 = false ∧
    unpackbits treeV3 (outV7.memRead (outV7.src.toNat + 5 + 4 * 2) (outV7.slen.toNat - (5 + 4 * 2))) 4 =
      .ok ([0x41, 0x42, 0x43, 0x42], 6, 1) ∧
    unpackbits treeV3 [0xD0] 9 = .error (.raised (.truncatedStream 6)) := by decide +kernel
/-- The error clauses: SLEN 0, SLEN 12, a destination that ends past DMEM, DCAP 3, and an overlap by one byte. -/
theorem wit_DecompressWritesTheBytes_errors : (args outV7 0x200 0 0x300 4 0).slen = 0 ∧
    (args outV7 0x200 12 0x300 4 0).slen.toNat < 5 + 4 * 2 ∧
    (args outV7 0xFFF3 14 0x300 4 0).dmemSize < (args outV7 0xFFF3 14 0x300 4 0).src.toNat + (args outV7 0xFFF3 14 0x300 4 0).slen.toNat ∧
    (args outV7 0x200 14 0xFFFD 4 0).dmemSize < (args outV7 0x200 14 0xFFFD 4 0).dst.toNat + 4 ∧
    (args outV7 0x200 14 0xFFFC 3 0).dst.toNat + 4 ≤ (args outV7 0x200 14 0xFFFC 3 0).dmemSize ∧
    (args outV7 0x200 14 0xFFFC 3 0).dcap.toNat < 4 ∧ overlap 0x200 14 0x20D 4 = true := by decide +kernel
theorem wit_DecompressInvertsCompress (o : Bool) : (∃ t, exec (compressInstr o) inV7 = .next t ∧ t.errCode = 0 ∧
      overlap inV7.dst.toNat t.res0.toNat 0x300 inV7.slen.toNat = false) ∧
    (0x300 : Word).toNat + inV7.slen.toNat ≤ inV7.dmemSize ∧ inV7.slen.toNat ≤ (4 : Word).toNat := by
  cases o <;> exact ⟨next_of_check (by decide +kernel), by decide +kernel, by decide +kernel⟩

-- whole-machine rules
/-- The other memory agrees on the source and differs at 0x300. -/
theorem wit_CommandsReadOnlyTheirSource : (∃ t, exec .compress inV7 = .next t ∧ t.errCode = 0) ∧
    ∀ a, inV7.src.toNat ≤ a → a < inV7.src.toNat + inV7.slen.toNat →
      State.dmem { inV7 with mem := Memory.set inV7.mem 0x300 7 } a = inV7.dmem a := by
  refine ⟨next_of_check (by decide +kernel), fun a h1 h2 => ?_⟩
  have h1 : 0x100 ≤ a := h1
  have h2 : a < 0x100 + 4 := h2
  have : a = 0x100 ∨ a = 0x101 ∨ a = 0x102 ∨ a = 0x103 := by omega
  rcases this with rfl | rfl | rfl | rfl <;> decide +kernel

-- host accesses (V35, V36)
theorem wit_RefusedAccessesOnlySetAccerr : coreTurn (asked State.reset (.readReg 0x08 .w8)) = false ∧
    performed State.reset (.readReg 0x08 .w8) = false ∧ performed State.reset (.readReg 0x06 .w32) = false ∧
    performed State.reset (.readReg 0x38 .w32) = false ∧ performed State.reset (.writeReg 0x3C .w32 0) = false ∧
    performed State.reset (.writeReg 0x78 .w32 0) = false ∧ performed State.reset (.readMem 0x102 .w32) = false ∧
    performed State.reset (.readMem 0x10000 .w32) = false ∧ performed State.reset (.writeMem 0xFFFE .w32 0) = false := by
  decide +kernel
/-- While BUSY = 1: what is locked, and what is not. -/
theorem wit_RefusedAccesses_busy :
    coreTurn { inFlight State.reset 0x03 with delay := 1, host := [.writeReg 0x0C .w32 0] } = false ∧
    performed (inFlight State.reset 0x03) (.writeReg 0x0C .w32 0) = false ∧
    performed (inFlight State.reset 0x03) (.readReg 0x0C .w32) = false ∧
    performed (inFlight State.reset 0x03) (.readMem 0 .w8) = false ∧
    performed (inFlight State.reset 0x03) (.readReg 0x08 .w32) = true ∧
    performed (inFlight State.reset 0x03) (.writeReg 0x04 .w32 1) = true := by decide +kernel
theorem wit_RegisterReadsReturnTheRegisters : coreTurn (asked State.reset (.readReg 0x74 .w32)) = false ∧
    ∀ k : Fin 30, 4 * k.val ≠ 0x38 → 4 * k.val ≠ 0x3C →
      performed State.reset (.readReg (BitVec.ofNat 8 (4 * k.val)) .w32) = true := by decide +kernel
theorem wit_RegisterWritesUpdateTheFields : coreTurn (asked State.reset (.writeReg 0x44 .w32 7)) = false ∧
    ∀ k : Fin 30, 4 * k.val ≠ 0x38 → 4 * k.val ≠ 0x3C →
      performed State.reset (.writeReg (BitVec.ofNat 8 (4 * k.val)) .w32 7) = true := by decide +kernel
theorem wit_StatusFieldsAndTheirClearing : coreTurn (asked State.reset (.writeReg 0x08 .w32 0xE)) = false := by
  decide +kernel
theorem wit_InterruptFollowsCompletion : (succeeded State.reset 0 0 0).ie = State.reset.ie ∧
    State.irq { State.reset with ie := true, done := true } = true := by decide +kernel
theorem wit_IdentificationAndTreeInfo : State.reset.cfg.wellFormed = true ∧ TreeStoreOk State.reset.tree ∧
    TreeStoreOk (some recsV3) := ⟨by decide, by rintro _ ⟨⟩, treeStore_V3⟩
theorem wit_NodeWindowReadsTheRecord : State.reset.tree = none ∧ recsV3[(1 : Byte).toNat]? = some ⟨0, 66, 1, 0⟩ ∧
    recsV3.length ≤ (2 : Byte).toNat := by decide +kernel
theorem wit_CodeWindowReadsTheCode : State.reset.code = none ∧
    (withCodes State.reset treeV3).code = some treeV3.codes := ⟨rfl, rfl⟩
theorem wit_DmemAccessesAreLittleEndian : coreTurn (asked State.reset (.writeMem 0xFFFC .w32 0)) = false ∧
    performed State.reset (.writeMem 0xFFFC .w32 0) = true ∧ performed State.reset (.readMem 0xFFFF .w8) = true ∧
    performed State.reset (.readMem 0xFFFF .w16) = false := by decide +kernel
theorem wit_ResetAbandonsTheCommand :
    coreTurn { inFlight State.reset 0x0A with delay := 1, host := [.reset] } = false := by decide +kernel

-- invariants and runs
/-- A good state with a command in flight: NOP issued. -/
theorem inv_inFlight : Inv (inFlight State.reset 0x00) :=
  { cfg := by decide
    mem := by decide
    memRange := by intro c h; cases h
    tree := by rintro _ ⟨⟩
    code := by rintro _ ⟨⟩
    flags := by decide
    busy := fun _ => by decide
    errCode := by decide }
theorem wit_StepKeepsTheInvariant : Inv (inFlight State.reset 0x00) ∧
    ∃ t, step (inFlight State.reset 0x00) = .next t ∧ t.done = true :=
  ⟨inv_inFlight, next_of_check (by decide +kernel)⟩
theorem wit_GoodStatesNeverStop : Inv (inFlight State.reset 0x00) := inv_inFlight
theorem wit_CommandInFlightCompletes :
    { inFlight State.reset 0x03 with delay := 2, host := [.wait] }.busy = true ∧
    ∀ op ∈ ({ inFlight State.reset 0x03 with delay := 2, host := [.wait] } : State).host, op ≠ .reset := by
  decide +kernel
theorem wit_TreeChangeDiscardsTheCodeTable : (∃ t, exec .build (withHist (withCodes State.reset treeV3) [(5, 1)]) = .next t ∧
      t.tree ≠ (withCodes State.reset treeV3).tree) ∧ ∃ t, exec .histAcc inV7 = .next t ∧ t.done = true :=
  ⟨next_of_check (by decide +kernel), next_of_check (by decide +kernel)⟩
theorem wit_PlatformBasesDoNotMatter : ∃ t, step (inFlight State.reset 0x02) = .next t ∧ t.done = true :=
  next_of_check (by decide +kernel)

end Sys2Proof.Tests
end

section
/-! PROOFS. The interrupt output (spec/10_state.md R50). -/

namespace Sys2Proof.Machine

/-- R50, read as a proposition. -/
@[simp] theorem State.irq_eq_true_iff (s : State) :
    s.irq = true ↔ s.ie = true ∧ (s.done = true ∨ s.err = true) := by
  simp only [State.irq, Bool.and_eq_true, Bool.or_eq_true]

/-- R50: the output is level-sensitive, so nothing but CTRL.IE, DONE and ERR can move it. -/
theorem State.irq_congr {s t : State} (hie : s.ie = t.ie) (hdone : s.done = t.done) (herr : s.err = t.err) :
    s.irq = t.irq := by
  rw [Bool.eq_iff_iff, State.irq_eq_true_iff, State.irq_eq_true_iff, hie, hdone, herr]

/-- R391 with R50: CTRL.IE is 0 after reset, which holds the output at 0. -/
@[simp] theorem State.reset_irq : State.reset.irq = false := by
  have ie_clear : State.reset.ie = false := rfl
  simp only [State.irq, ie_clear, Bool.false_and]

/-- Settles O48: R50 gives the first clause; ACCERR is none of the three bits that can move the output. -/
theorem interruptFollowsCompletion : Obligations.InterruptFollowsCompletion := by
  unfold Obligations.InterruptFollowsCompletion
  refine ⟨State.irq_eq_true_iff, fun _ _ => State.irq_congr, ?_, State.reset_irq⟩
  intro s b
  exact State.irq_congr rfl rfl rfl

end Sys2Proof.Machine
end

section
/-! PROOFS. What a host step does with the operation it takes (spec/10_state.md R30; spec/20_memory.md R95). -/

namespace Sys2Proof.Machine

/-- R30: the host moves by performing its next operation in the state that no longer lists it. -/
theorem step_of_host {s : State} {op : HostOp} {rest : List HostOp} (hturn : coreTurn s = false)
    (hhost : s.host = op :: rest) : step s = .next (hostOp op (afterTake s rest)) := by
  simp only [step, hturn, Bool.false_eq_true, if_false, hostTurn, hhost, afterTake]

@[simp] theorem afterTake_busy (s : State) (rest : List HostOp) : (afterTake s rest).busy = s.busy := rfl
@[simp] theorem afterTake_dmemSize (s : State) (rest : List HostOp) : (afterTake s rest).dmemSize = s.dmemSize := rfl
@[simp] theorem afterTake_dmem (s : State) (rest : List HostOp) : (afterTake s rest).dmem = s.dmem :=
  dmem_congr rfl rfl
@[simp] theorem afterTake_regValue (s : State) (rest : List HostOp) (r : Reg) :
    (afterTake s rest).regValue r = s.regValue r := by cases r <;> rfl

end Sys2Proof.Machine
end

section
/-! PROOFS. Register reads (spec/10_state.md R32, R41, R51; spec/20_memory.md R81, R82, R86). -/

namespace Sys2Proof.Machine

/-- R32, R51: the offsets with a register, over all 256. -/
theorem Reg.ofOffset?_isSome_iff (off : Byte) : (Reg.ofOffset? off).isSome = true ↔
    off.toNat % 4 = 0 ∧ off.toNat < 0x78 ∧ off ≠ 0x38 ∧ off ≠ 0x3C := by
  revert off
  decide +kernel

/-- R32: HIST_DATA stands at one offset. -/
theorem Reg.ofOffset?_eq_histData_iff (off : Byte) : Reg.ofOffset? off = some .histData ↔ off = 0x44 := by
  revert off
  decide +kernel

/-- R32: the eight words of the CODE window. -/
theorem Reg.ofOffset?_codeBits (k : Fin 8) :
    Reg.ofOffset? (BitVec.ofNat 8 (0x50 + 4 * k.val)) = some (.codeBits k) := by
  revert k
  decide

/-- R86: the registers at the three offsets that may be read while BUSY = 1. -/
theorem readableWhileBusy_of_offset {off : Byte} {r : Reg} (hr : Reg.ofOffset? off = some r)
    (hoff : off = 0x00 ∨ off = 0x04 ∨ off = 0x08) : readableWhileBusy r = true := by
  rcases hoff with rfl | rfl | rfl <;> cases hr <;> rfl

/-- R81, R86: a performed read reaches a register, and one that may be read now. -/
theorem exists_reg_of_performed_read {s : State} {off : Byte} (h : performed s (.readReg off .w32) = true) :
    ∃ r, Reg.ofOffset? off = some r ∧ off.toNat % 4 = 0 ∧ (s.busy = true → readableWhileBusy r = true) := by
  simp only [performed, decide_eq_true_eq] at h
  obtain ⟨-, haligned, hbound, h38, h3C, hbusy⟩ := h
  obtain ⟨r, hr⟩ := Option.isSome_iff_exists.1
    ((Reg.ofOffset?_isSome_iff off).2 ⟨haligned, hbound, h38, h3C⟩)
  exact ⟨r, hr, haligned, fun hb => readableWhileBusy_of_offset hr (hbusy hb)⟩

/-- R82: a read that reaches a readable register returns it. -/
theorem hostReadReg_of_readable {s : State} {off : Byte} {r : Reg} (hr : Reg.ofOffset? off = some r)
    (haligned : off.toNat % 4 = 0) (hbusy : s.busy = true → readableWhileBusy r = true) :
    hostReadReg s off .w32 = { s.afterRead r with rdata := s.regValue r } := by
  have htarget : regTarget off .w32 = some r := by rw [regTarget, if_pos ⟨rfl, haligned⟩, hr]
  have hopen : (s.busy && !readableWhileBusy r) = false := by
    cases hb : s.busy
    · rfl
    · rw [hbusy hb]; rfl
  simp only [hostReadReg, htarget, hopen, Bool.false_eq_true, if_false]

/-- R41: HIST_IDX is all that a read can move, and only a read of HIST_DATA moves it. -/
theorem afterRead_eq (s : State) (r : Reg) :
    s.afterRead r = { s with histIdx := if r = .histData then s.histIdx + 1 else s.histIdx } := by
  cases r <;> rfl

/-- The register read at an offset is the one the map has there. -/
theorem regValue_at {off o : Byte} {r : Reg} (s : State) (hr : Reg.ofOffset? off = some r) (r' : Reg)
    (ho : Reg.ofOffset? o = some r') (h : off = o) : s.regValue r = s.regValue r' := by
  rw [h, ho] at hr
  rw [Option.some.inj hr]

/-- R34: CTRL is CTRL.IE with zeros above it. -/
theorem regValue_ctrl (s : State) : s.regValue .ctrl = (BitVec.ofBool s.ie).setWidth 32 := by
  rw [State.regValue, State.ctrlWord]
  cases s.ie <;> rfl

/-- R47: CODE_LEN, as a number: the length modulo 256. -/
theorem regValue_codeLen (s : State) : s.regValue .codeLen = BitVec.ofNat 32 (s.windowCode.length % 256) := by
  rw [State.regValue, ← BitVec.ofNat_toNat, BitVec.toNat_ofNat]

/-- Settles O45: R82. The map is one-to-one, so the register a performed read reaches is fixed by its offset. -/
theorem registerReadsReturnTheRegisters : Obligations.RegisterReadsReturnTheRegisters := by
  unfold Obligations.RegisterReadsReturnTheRegisters
  intro s off rest hturn hhost hperf
  obtain ⟨r, hr, haligned, hbusy⟩ := exists_reg_of_performed_read hperf
  have hhist : r = .histData ↔ off = 0x44 := by
    rw [← Reg.ofOffset?_eq_histData_iff, hr, Option.some.injEq]
  refine ⟨s.regValue r, ?_, regValue_at s hr .id rfl, ?_, regValue_at s hr .status rfl,
    regValue_at s hr .cmd rfl, regValue_at s hr .src rfl, regValue_at s hr .slen rfl, regValue_at s hr .dst rfl,
    regValue_at s hr .dcap rfl, regValue_at s hr .cnt rfl, regValue_at s hr .res0 rfl, regValue_at s hr .res1 rfl,
    regValue_at s hr .res2 rfl, regValue_at s hr .errInfo rfl, regValue_at s hr .treeInfo rfl,
    regValue_at s hr .histIdx rfl, regValue_at s hr .histData rfl, regValue_at s hr .codeIdx rfl, ?_,
    fun k => regValue_at s hr (.codeBits k) (Reg.ofOffset?_codeBits k), regValue_at s hr .nodeIdx rfl,
    regValue_at s hr .nodeData rfl⟩
  · rw [step_of_host hturn hhost, hostOp, hostReadReg_of_readable (s := afterTake s rest) hr haligned hbusy,
      afterRead_eq, afterTake_regValue]
    simp only [hhist]
    rfl
  · intro h
    rw [regValue_at s hr .ctrl rfl h, regValue_ctrl]
  · intro h
    rw [regValue_at s hr .codeLen rfl h, regValue_codeLen]

end Sys2Proof.Machine
end

section
/-! PROOFS. Little-endian numbers byte by byte (spec/20_memory.md R84). -/

namespace Sys2Proof.Machine

theorem leNat_lt (l : List Byte) : leNat l < 2 ^ (8 * l.length) := by
  induction l with
  | nil => simp [leNat]
  | cons b l ih =>
    have hb : b.toNat < 2 ^ 8 := b.isLt
    rw [leNat, List.length_cons, Nat.mul_succ, Nat.pow_add]
    omega

/-- Byte `i` of a little-endian number is the list's byte `i`. -/
theorem leNat_div_mod (l : List Byte) (i : Nat) (h : i < l.length) :
    leNat l / 2 ^ (8 * i) % 2 ^ 8 = l[i].toNat := by
  induction l generalizing i with
  | nil => simp at h
  | cons b l ih =>
    have hb : b.toNat < 2 ^ 8 := b.isLt
    cases i with
    | zero => simp only [leNat, List.getElem_cons_zero]; omega
    | succ i =>
      have htail : (b.toNat + 2 ^ 8 * leNat l) / 2 ^ 8 = leNat l := by omega
      rw [leNat, Nat.mul_succ, Nat.add_comm (8 * i), Nat.pow_add, ← Nat.div_div_eq_div_mul, htail,
        List.getElem_cons_succ, ih]

/-- Up to four bytes fit a word. -/
theorem toNat_ofNat_leNat {l : List Byte} (hl : l.length ≤ 4) : (BitVec.ofNat 32 (leNat l)).toNat = leNat l := by
  have hword : leNat l < 2 ^ 32 :=
    Nat.lt_of_lt_of_le (leNat_lt l) (Nat.pow_le_pow_right (by decide) (by omega))
  rw [BitVec.toNat_ofNat, Nat.mod_eq_of_lt hword]

/-- R84: the bytes of the word that a list of up to four bytes stands for. -/
theorem extractLsb'_ofNat_leNat {l : List Byte} (hl : l.length ≤ 4) {i : Nat} (hi : i < l.length) :
    (BitVec.ofNat 32 (leNat l)).extractLsb' (8 * i) 8 = l[i] := by
  apply BitVec.eq_of_toNat_eq
  rw [BitVec.extractLsb'_toNat, toNat_ofNat_leNat hl, Nat.shiftRight_eq_div_pow, leNat_div_mod l i hi]

@[simp] theorem leBytes_getElem (n : Nat) (v : Word) (i : Nat) (h : i < (leBytes n v).length) :
    (leBytes n v)[i] = v.extractLsb' (8 * i) 8 := by simp [leBytes]

theorem Width.bytes_le_four (w : Width) : w.bytes ≤ 4 := by cases w <;> decide

end Sys2Proof.Machine
end

section
/-! PROOFS. Host accesses of DMEM (spec/20_memory.md R84 to R86). -/

namespace Sys2Proof.Machine

/-- A byte of DMEM inside what `MemWrite` stored. -/
theorem dmem_write_in (s : State) (a : Nat) (l : List Byte) {i : Nat} (h : i < l.length) :
    State.dmem { s with mem := s.mem.write a l } (a + i) = l[i] := by
  rw [State.dmem, Memory.get?_write, if_pos (by omega)]
  simp [h]

/-- A byte of DMEM outside what `MemWrite` stored. -/
theorem dmem_write_out (s : State) {a : Nat} {l : List Byte} {b : Nat} (h : b < a ∨ a + l.length ≤ b) :
    State.dmem { s with mem := s.mem.write a l } b = s.dmem b := by
  rw [State.dmem, Memory.get?_write, if_neg (by omega)]
  rfl

/-- R84, R86: the block checks a memory access as the rules say, whether it reads or writes. -/
theorem memAccessOk_afterTake (s : State) (rest : List HostOp) (a : Nat) (w : Width) :
    memAccessOk (afterTake s rest) a w = performed s (.readMem a w) := by
  simp only [memAccessOk, performed, afterTake_busy, afterTake_dmemSize, Bool.not_eq_true']

theorem performed_writeMem (s : State) (a : Nat) (w : Width) (v : Word) :
    performed s (.writeMem a w v) = performed s (.readMem a w) := rfl

theorem hostReadMem_of_ok {s : State} {a : Nat} {w : Width} (h : memAccessOk s a w = true) :
    hostReadMem s a w = { s with rdata := BitVec.ofNat 32 (leNat (s.memRead a w.bytes)) } := if_pos h

theorem hostReadMem_of_refused {s : State} {a : Nat} {w : Width} (h : memAccessOk s a w = false) :
    hostReadMem s a w = refuseRead s := if_neg (by simp [h])

theorem hostWriteMem_of_ok {s : State} {a : Nat} {w : Width} (h : memAccessOk s a w = true) (v : Word) :
    hostWriteMem s a w v = { s with mem := s.mem.write a (leBytes w.bytes v) } := if_pos h

theorem hostWriteMem_of_refused {s : State} {a : Nat} {w : Width} (h : memAccessOk s a w = false) (v : Word) :
    hostWriteMem s a w v = refuseWrite s := if_neg (by simp [h])

/-- R84: the bytes of the word that a performed read of `w` bytes returns. -/
theorem readWord_byte (s : State) (a : Nat) (w : Width) {i : Nat} (hi : i < w.bytes) :
    (BitVec.ofNat 32 (leNat (s.memRead a w.bytes))).extractLsb' (8 * i) 8 = s.dmem (a + i) := by
  have hlen : (s.memRead a w.bytes).length ≤ 4 := by simpa using w.bytes_le_four
  rw [extractLsb'_ofNat_leNat hlen (by simpa using hi), memRead_getElem]

/-- R84: the word that a performed read of `w` bytes returns is 0 above them. -/
theorem readWord_lt (s : State) (a : Nat) (w : Width) :
    (BitVec.ofNat 32 (leNat (s.memRead a w.bytes))).toNat < 2 ^ (8 * w.bytes) := by
  have hlen : (s.memRead a w.bytes).length ≤ 4 := by simpa using w.bytes_le_four
  rw [toNat_ofNat_leNat hlen]
  simpa using leNat_lt (s.memRead a w.bytes)

/-- Settles O52: R84, with R85 and R86 for the refused accesses. -/
theorem dmemAccessesAreLittleEndian : Obligations.DmemAccessesAreLittleEndian := by
  unfold Obligations.DmemAccessesAreLittleEndian
  intro s a w rest hturn
  have hcheck := memAccessOk_afterTake s rest a w
  refine ⟨fun hhost => ⟨fun hperf => ?_, fun hrefused => ?_⟩, fun v hhost => ⟨fun hperf => ?_, fun hrefused => ?_⟩⟩
  · refine ⟨_, ?_, fun i hi => readWord_byte s a w hi, readWord_lt s a w⟩
    rw [step_of_host hturn hhost, hostOp, hostReadMem_of_ok (hcheck.trans hperf)]
    rfl
  · rw [step_of_host hturn hhost, hostOp, hostReadMem_of_refused (hcheck.trans hrefused), refuseRead]
  · rw [performed_writeMem] at hperf
    rw [step_of_host hturn hhost, hostOp, hostWriteMem_of_ok (hcheck.trans hperf)]
    refine ⟨_, rfl, rfl, fun i hi => ?_, fun b hb => ?_⟩
    · rw [dmem_write_in _ a _ (by simpa using hi), leBytes_getElem]
    · rw [dmem_write_out _ (by simpa using hb), afterTake_dmem]
  · rw [performed_writeMem] at hrefused
    rw [step_of_host hturn hhost, hostOp, hostWriteMem_of_refused (hcheck.trans hrefused), refuseWrite]

end Sys2Proof.Machine
end

section
/-! PROOFS. Command words: the legal words, the decoder and the opcode table (spec/30_encoding.md R110 to R114). -/

namespace Sys2Proof

/-! ### The three conditions of R112, as bit fields -/

theorem reservedZero_iff (w : Word) : WellFormed.reservedZero w = true ↔ rsvField w = 0 := by
  have hw : w.toNat < 2 ^ 32 := w.isLt
  rw [WellFormed.reservedZero, decide_eq_true_iff, rsvField, ← BitVec.toNat_inj, BitVec.extractLsb'_toNat,
    Nat.shiftRight_eq_div_pow]
  change _ ↔ _ = 0
  omega

theorem opcodeDefined_iff (w : Word) : WellFormed.opcodeDefined w = true ↔ opcField w ≤ 0x0B := by
  rw [WellFormed.opcodeDefined, decide_eq_true_iff, opcField, BitVec.le_def, BitVec.extractLsb'_toNat,
    Nat.shiftRight_zero]
  rfl

theorem oField_eq_false_iff (w : Word) : oField w = false ↔ w.toNat / 2 ^ 8 % 2 = 0 := by
  rw [oField, BitVec.getLsbD, Nat.testBit_eq_decide_div_mod_eq, decide_eq_false_iff_not]
  omega

theorem flagAllowed_iff (w : Word) :
    WellFormed.flagAllowed w = true ↔ oField w = false ∨ opcField w = 0x0A := by
  rw [WellFormed.flagAllowed, decide_eq_true_iff, oField_eq_false_iff, opcField, ← BitVec.toNat_inj,
    BitVec.extractLsb'_toNat, Nat.shiftRight_zero]
  rfl

theorem legalWord_iff_fields (w : Word) : WellFormed.legalWord w = true ↔
    rsvField w = 0 ∧ opcField w ≤ 0x0B ∧ (oField w = false ∨ opcField w = 0x0A) := by
  rw [WellFormed.legalWord, Bool.and_eq_true, Bool.and_eq_true, reservedZero_iff, opcodeDefined_iff,
    flagAllowed_iff, and_assoc]

/-! ### The decoder and the encoder -/

/-- R110: the three fields are the whole word. -/
theorem fields_append (w : Word) : rsvField w ++ BitVec.ofBool (oField w) ++ opcField w = w := by
  have hflag : BitVec.ofBool (oField w) = w.extractLsb' 8 1 := by
    ext i hi
    obtain rfl : i = 0 := by omega
    simp [oField]
  have hupper : rsvField w ++ w.extractLsb' 8 1 = w.extractLsb' 8 24 :=
    BitVec.extractLsb'_append_extractLsb'_eq_extractLsb' rfl
  have hword : w.extractLsb' 8 24 ++ opcField w = w.extractLsb' 0 32 :=
    BitVec.extractLsb'_append_extractLsb'_eq_extractLsb' rfl
  rw [hflag, hupper, hword, BitVec.extractLsb'_eq_self]

/-- R110: a word with reserved bits 0 is the word of the command whose flag and operation code it has. -/
theorem eq_encode_of_fields {w : Word} {i : Instr} (hrsv : rsvField w = 0) (hflag : flagOf i = oField w)
    (hopc : opcodeOf i = opcField w) : w = encode i := by
  have hzero : rsvField w = 0#23 := hrsv
  rw [encode, hflag, hopc, ← hzero, fields_append]

/-- R111: an operation code selects a command that has it, with O = 0. -/
theorem fields_of_instrOfOpcode {b : Byte} {i : Instr} (h : instrOfOpcode b = some i) :
    flagOf i = false ∧ opcodeOf i = b := by
  unfold instrOfOpcode at h
  split at h <;> cases h <;> exact ⟨rfl, (BitVec.eq_of_toNat_eq ‹_›).symm⟩

/-- R111: the operation codes up to 0x0B select a command. -/
theorem exists_instrOfOpcode {b : Byte} (h : b ≤ 0x0B) : ∃ i, instrOfOpcode b = some i := by
  have hb : b.toNat ≤ 0x0B := h
  unfold instrOfOpcode
  interval_cases b.toNat <;> exact ⟨_, rfl⟩

theorem decode_encode (i : Instr) : decode (encode i) = .ok i := by
  cases i <;> rfl

theorem eq_encode_of_decode {w : Word} {i : Instr} (h : decode w = .ok i) : w = encode i := by
  unfold decode at h
  split at h
  · cases h
  · next hrsv =>
    split at h
    · next hflag =>
      split at h
      · next hopc =>
        cases h
        exact eq_encode_of_fields (not_not.1 hrsv) hflag.symm hopc.symm
      · cases h
    · next hflag =>
      split at h
      · next j hj =>
        cases h
        obtain ⟨hzero, hopc⟩ := fields_of_instrOfOpcode hj
        exact eq_encode_of_fields (not_not.1 hrsv) (hzero.trans (Bool.eq_false_of_not_eq_true hflag).symm) hopc
      · cases h

/-- Every command's word is legal: the laws of the single commands, together. -/
theorem legalEncoding : ∀ i : Instr, Laws.LegalEncoding.Statement i
  | .nop => Laws.LegalEncoding.nop
  | .histClear => Laws.LegalEncoding.histClear
  | .histAcc => Laws.LegalEncoding.histAcc
  | .build => Laws.LegalEncoding.build
  | .genCodes => Laws.LegalEncoding.genCodes
  | .serialize => Laws.LegalEncoding.serialize
  | .deserialize => Laws.LegalEncoding.deserialize
  | .pack => Laws.LegalEncoding.pack
  | .unpack => Laws.LegalEncoding.unpack
  | .optimize => Laws.LegalEncoding.optimize
  | .compress => Laws.LegalEncoding.compress
  | .compressO => Laws.LegalEncoding.compressO
  | .decompress => Laws.LegalEncoding.decompress

theorem legalWord_encode (i : Instr) : WellFormed.legalWord (encode i) = true := by
  obtain ⟨-, hlegal, -⟩ := legalEncoding i
  exact hlegal

/-- R112: the legal words are the words of the commands, COMPRESS.O alone having O = 1. -/
theorem legalWord_iff_exists_encode (w : Word) : WellFormed.legalWord w = true ↔ ∃ i, w = encode i := by
  refine ⟨fun h => ?_, fun ⟨i, hi⟩ => hi ▸ legalWord_encode i⟩
  obtain ⟨hrsv, hopc, hflag⟩ := (legalWord_iff_fields w).1 h
  cases ho : oField w with
  | true =>
    have hA : opcField w = 0x0A := hflag.resolve_left (by simp [ho])
    exact ⟨.compressO, eq_encode_of_fields hrsv ho.symm hA.symm⟩
  | false =>
    obtain ⟨i, hi⟩ := exists_instrOfOpcode hopc
    obtain ⟨hzero, hcode⟩ := fields_of_instrOfOpcode hi
    exact ⟨i, eq_encode_of_fields hrsv (hzero.trans ho.symm) hcode⟩

theorem ne_encode_of_illegal {w : Word} (h : WellFormed.legalWord w = false) (i : Instr) : w ≠ encode i := by
  rintro rfl
  simp [legalWord_encode] at h

/-- R113, R114: the decoder rejects every illegal word. -/
theorem exists_error_of_illegal {w : Word} (h : WellFormed.legalWord w = false) : ∃ e, decode w = .error e := by
  cases hd : decode w with
  | error e => exact ⟨e, rfl⟩
  | ok i => exact absurd (eq_encode_of_decode hd) (ne_encode_of_illegal h i)

/-! ### The opcode table -/

/-- R111, R112: the row of a command compares the whole word with the command's own. -/
def Instr.row (i : Instr) : OpcodeRow := ⟨0xFFFFFFFF, encode i, i⟩

theorem Instr.row_mem (i : Instr) : i.row ∈ opcodeTable := by
  cases i <;> decide

theorem eq_row_of_mem {r : OpcodeRow} (h : r ∈ opcodeTable) : r = r.instr.row :=
  (by decide : ∀ r ∈ opcodeTable, r = r.instr.row) r h

theorem Instr.row_selects_iff (i : Instr) (w : Word) : i.row.selects w = true ↔ w = encode i := by
  have hmask : w &&& (0xFFFFFFFF : Word) = w := BitVec.and_allOnes
  rw [OpcodeRow.selects, decide_eq_true_iff, Instr.row, hmask]

/-- The words of the table's rows are the words of the commands. -/
theorem mem_opcodeTable_words_iff (w : Word) : w ∈ opcodeTable.map OpcodeRow.word ↔ ∃ i, w = encode i := by
  rw [List.mem_map]
  constructor
  · rintro ⟨r, hr, rfl⟩
    exact ⟨r.instr, congrArg OpcodeRow.word (eq_row_of_mem hr)⟩
  · rintro ⟨i, rfl⟩
    exact ⟨i.row, i.row_mem, rfl⟩

/-- A command's word is selected by the command's row alone. -/
theorem filter_selects_encode (i : Instr) : (opcodeTable.filter fun r => r.selects (encode i)) = [i.row] := by
  cases i <;> decide

/-- No row selects an illegal word: a row selects the word of its command alone, which is legal. -/
theorem filter_selects_of_illegal {w : Word} (h : WellFormed.legalWord w = false) :
    (opcodeTable.filter fun r => r.selects w) = [] := by
  rw [List.filter_eq_nil_iff]
  intro r hr hsel
  rw [eq_row_of_mem hr, Instr.row_selects_iff] at hsel
  exact ne_encode_of_illegal h r.instr hsel

/-- Settles O1: R112. The legal words, the accepted words and the rows' words are each the words of the
commands, and every row compares the whole word. -/
theorem legalWordsSelectOneRow : Obligations.LegalWordsSelectOneRow := by
  unfold Obligations.LegalWordsSelectOneRow
  intro w
  refine ⟨legalWord_iff_fields w,
    (legalWord_iff_exists_encode w).trans (mem_opcodeTable_words_iff w).symm, fun h => ?_,
    fun h => ⟨exists_error_of_illegal h, filter_selects_of_illegal h⟩⟩
  obtain ⟨i, rfl⟩ := (legalWord_iff_exists_encode w).1 h
  exact ⟨i, decode_encode i, by rw [filter_selects_encode]; rfl⟩

end Sys2Proof
end

section
/-! PROOFS. The command protocol: the overlap check, NOP and the issue of a command
(spec/40_command.md R150, R153, R158). -/

namespace Sys2Proof.Machine

/-! ### Overlap (R153) -/

/-- R153: the ranges meet exactly in the addresses from the greater start to the lesser end. -/
theorem overlap_iff_exists_shared (a n b m : Nat) :
    overlap a n b m = true ↔ ∃ x, a ≤ x ∧ x < a + n ∧ b ≤ x ∧ x < b + m := by
  rw [overlap_iff]
  constructor
  · rintro ⟨hn, hm, hab, hba⟩
    exact ⟨max a b, by omega, by omega, by omega, by omega⟩
  · rintro ⟨x, hax, hxa, hbx, hxb⟩
    exact ⟨by omega, by omega, by omega, by omega⟩

/-- Settles O42: R153. The greater of the two starts is the byte that overlapping ranges share. -/
theorem overlapIsASharedByte : Obligations.OverlapIsASharedByte := by
  unfold Obligations.OverlapIsASharedByte
  exact fun a n b m => ⟨overlap_iff a n b m, overlap_iff_exists_shared a n b m⟩

/-! ### NOP (R157, R158) -/

/-- R157: `finish` is the success that the statements write out. -/
theorem finish_eq_succeeded (s : State) (r0 r1 r2 : Nat) :
    finish s r0 r1 r2 = succeeded s (BitVec.ofNat 32 r0) (BitVec.ofNat 32 r1) (BitVec.ofNat 32 r2) := rfl

/-- R158: NOP comes to `finish` with no update and no result. -/
theorem exec_nop (s : State) : exec .nop s = .next (finish s 0 0 0) := rfl

/-- Settles O11: R158, with `finish` written out by R157. -/
theorem nopCompletes : Obligations.NopCompletes := by
  unfold Obligations.NopCompletes
  exact ⟨decode_encode .nop, fun s => (exec_nop s).trans (congrArg _ (finish_eq_succeeded s 0 0 0))⟩

/-! ### Issue (R150) -/

/-- R156: with no command in flight the core has no turn. -/
theorem coreTurn_of_idle {s : State} (h : s.busy = false) : coreTurn s = false := by
  rw [coreTurn, h, Bool.false_and]

/-- R83, R86: a write that reaches a register open to it writes it. -/
theorem hostWriteReg_of_writable {s : State} {off : Byte} {w : Width} {r : Reg} (hr : regTarget off w = some r)
    (hopen : s.busy = true → writableWhileBusy r = true) (v : Word) :
    hostWriteReg s off w v = s.writeReg r v := by
  have hunlocked : (s.busy && !writableWhileBusy r) = false := by
    cases hb : s.busy
    · rfl
    · rw [hopen hb]; rfl
  simp only [hostWriteReg, hr, hunlocked, Bool.false_eq_true, if_false]

/-- R85, R86: a write that reaches a locked register while BUSY = 1 is refused. -/
theorem hostWriteReg_of_locked {s : State} {off : Byte} {w : Width} {r : Reg} (hr : regTarget off w = some r)
    (hbusy : s.busy = true) (hlocked : writableWhileBusy r = false) (v : Word) :
    hostWriteReg s off w v = refuseWrite s := by
  simp only [hostWriteReg, hr, hbusy, hlocked, Bool.not_false, Bool.and_self, if_true]

/-- R32, R36: CMD stands at offset 0x0C. -/
theorem regTarget_cmd : regTarget 0x0C .w32 = some .cmd := rfl

/-- R150: the host's write of CMD while the block is idle is the issue of the word. -/
theorem step_writeCmd_of_idle {s : State} {w : Word} {rest : List HostOp}
    (hhost : s.host = .writeReg 0x0C .w32 w :: rest) (hidle : s.busy = false) :
    step s = .next (issue (afterTake s rest) w) := by
  have hopen : (afterTake s rest).busy = true → writableWhileBusy .cmd = true := by simp [hidle]
  rw [step_of_host (coreTurn_of_idle hidle) hhost, hostOp, hostWriteReg_of_writable regTarget_cmd hopen,
    State.writeReg]

/-- R86, R150: CMD is locked while a command is in flight. -/
theorem step_writeCmd_of_busy {s : State} {w : Word} {rest : List HostOp}
    (hhost : s.host = .writeReg 0x0C .w32 w :: rest) (hbusy : s.busy = true) (hturn : coreTurn s = false) :
    step s = .next (refuseWrite (afterTake s rest)) := by
  rw [step_of_host hturn hhost, hostOp,
    hostWriteReg_of_locked (s := afterTake s rest) regTarget_cmd hbusy (by decide)]

/-- R50, R150: issue clears DONE and ERR, so the interrupt output is 0 after it. -/
@[simp] theorem issue_irq (s : State) (w : Word) : (issue s w).irq = false := by
  rw [State.irq, issue_done, issue_err, Bool.or_self, Bool.and_false]

/-- Settles O6: R150. Whether the word is legal is asked at completion only (R151). -/
theorem issueAcceptsEveryWord : Obligations.IssueAcceptsEveryWord := by
  unfold Obligations.IssueAcceptsEveryWord
  intro s w rest hhost
  exact ⟨fun hidle => ⟨_, step_writeCmd_of_idle hhost hidle, issue_irq _ w, rfl⟩,
    step_writeCmd_of_busy hhost⟩

end Sys2Proof.Machine
end

section
/-! PROOFS. The histogram commands HIST_CLEAR and HIST_ACC (spec/41_histogram.md R181, R182). -/

namespace Sys2Proof.Machine

/-! ### Errors written out (R351, R352) -/

/-- R351: `raise` is the error that the statements write out. -/
theorem raise_eq_failed (e : CmdErr) (s : State) : raise e s = failed s e.code e.infoWord := rfl

@[simp] theorem infoWord_range_source : (CmdErr.range .source).infoWord = 0 := infoWord_of_fits (by decide)

/-- R352: HIST_OVERFLOW reports the symbol, which always fits ERRINFO. -/
@[simp] theorem infoWord_histOverflow (x : Byte) : (CmdErr.histOverflow x).infoWord = x.setWidth 32 := by
  have hfits : (CmdErr.histOverflow x).info < 2 ^ 32 := x.isLt.trans (by decide)
  rw [infoWord_of_fits hfits, CmdErr.info, BitVec.ofNat_toNat]

/-! ### HIST_CLEAR (R181) -/

@[simp] theorem emptyHist_at (x : Byte) : emptyHist.at x = 0 := SymTable.at_tabulate _ x

/-- R181: HIST_CLEAR comes to `finish` in every state. -/
theorem exec_histClear (s : State) : exec .histClear s = .next (finish { s with hist := emptyHist } 0 0 0) := rfl

/-- Settles O12: R181, with `finish` written out by R157. -/
theorem histClearZeroesEveryCounter : Obligations.HistClearZeroesEveryCounter := by
  unfold Obligations.HistClearZeroesEveryCounter
  exact ⟨decode_encode .histClear, fun s => ⟨_, exec_histClear s, emptyHist_at, finish_eq_succeeded _ 0 0 0⟩⟩

/-! ### The counters (R182) -/

/-- R182: an overflowing symbol below which no counter overflows is the one reported. -/
theorem firstOverflow_eq_some {h : SymTable Word} {data : List Byte} {x : Byte}
    (hx : 0xFFFFFFFF < (h.at x).toNat + data.count x)
    (hlt : ∀ y : Byte, y.toNat < x.toNat → (h.at y).toNat + data.count y ≤ 0xFFFFFFFF) :
    firstOverflow h data = some x := by
  rw [firstOverflow_eq]
  exact find?_allSymbols_eq_some (decide_eq_true hx) fun y hy => decide_eq_false (Nat.not_lt.2 (hlt y hy))

/-- R182: no symbol is reported when every sum fits its counter. -/
theorem firstOverflow_eq_none {h : SymTable Word} {data : List Byte}
    (hfit : ∀ x : Byte, (h.at x).toNat + data.count x ≤ 0xFFFFFFFF) : firstOverflow h data = none := by
  rw [firstOverflow_eq, find?_allSymbols_eq_none]
  exact fun x => decide_eq_false (Nat.not_lt.2 (hfit x))

/-- R182: a counter whose sum fits its 32 bits holds the sum. -/
theorem addCounts_at_toNat {h : SymTable Word} {data : List Byte} {x : Byte}
    (hfit : (h.at x).toNat + data.count x ≤ 0xFFFFFFFF) :
    ((addCounts h data).at x).toNat = (h.at x).toNat + data.count x := by
  rw [addCounts, SymTable.at_update, BitVec.toNat_ofNat, Nat.mod_eq_of_lt (by omega)]

/-! ### HIST_ACC (R182): the ends of the command, in the order of its checks -/

/-- R182: the command is its pseudocode, ended as every command (R156). -/
theorem exec_histAcc (s : State) : exec .histAcc s = conclude s (histAccCmd s) := rfl

/-- R154: `checkSrc` inside DMEM passes. -/
theorem checkSrc_passes {s : State} {n : Nat} (h : s.src.toNat + n ≤ s.dmemSize) : checkSrc s n = .ok () :=
  checkSrc_eq_ok.2 h

/-- R154, R182: the source range is checked first. -/
theorem exec_histAcc_of_range {s : State} (h : s.dmemSize < s.src.toNat + s.slen.toNat) :
    exec .histAcc s = .next (raise (.range .source) s) := by
  rw [exec_histAcc, histAccCmd, checkSrc_fails h, cmd_bind_raiseErr, conclude_raiseErr]

/-- R182: inside DMEM, an overflow found is raised, and no counter changes. -/
theorem exec_histAcc_of_overflow {s : State} {x : Byte} (hr : s.src.toNat + s.slen.toNat ≤ s.dmemSize)
    (ho : firstOverflow s.hist s.srcBytes = some x) : exec .histAcc s = .next (raise (.histOverflow x) s) := by
  simp only [exec_histAcc, histAccCmd, checkSrc_passes hr, cmd_bind_ok, ho, conclude_raiseErr]

/-- R182: inside DMEM, with no overflow found, the command comes to `finish` with the counts added. -/
theorem exec_histAcc_of_fits {s : State} (hr : s.src.toNat + s.slen.toNat ≤ s.dmemSize)
    (ho : firstOverflow s.hist s.srcBytes = none) :
    exec .histAcc s = .next (finish { s with hist := addCounts s.hist s.srcBytes } 0 s.slen.toNat
      (present (addCounts s.hist s.srcBytes)).length) := by
  simp only [exec_histAcc, histAccCmd, checkSrc_passes hr, cmd_bind_ok, ho, conclude_ok]

/-- Settles O13: R182. The least overflowing symbol is what the search of R182 finds; where there is none,
every sum fits its counter. -/
theorem histAccAddsTheCounts : Obligations.HistAccAddsTheCounts := by
  unfold Obligations.HistAccAddsTheCounts
  refine ⟨decode_encode .histAcc, fun s => ⟨fun h => ?range, fun hr => ⟨fun x hx hlt => ?overflow, fun hfit => ?fits⟩⟩⟩
  case range => rw [exec_histAcc_of_range h, raise_eq_failed, infoWord_range_source, CmdErr.code]
  case overflow =>
    rw [exec_histAcc_of_overflow hr (firstOverflow_eq_some hx hlt), raise_eq_failed, infoWord_histOverflow,
      CmdErr.code]
  case fits =>
    refine ⟨_, exec_histAcc_of_fits hr (firstOverflow_eq_none hfit), fun x => addCounts_at_toNat (hfit x), ?_⟩
    rw [finish_eq_succeeded, BitVec.ofNat_toNat, BitVec.setWidth_eq, present_eq]
    rfl

end Sys2Proof.Machine
end

section
/-! PROOFS. The tree builder: the symbol order, the single-symbol table, and BUILD
(spec/42_tree_builder.md R201, R203, R207). -/

namespace Sys2Proof.Machine

/-! ### The symbol order (R201) -/

/-- R201, read as a proposition. -/
theorem ranksBefore_iff {h : SymTable Word} {a b : Byte} : ranksBefore h a b = true ↔
    (h.at b).toNat < (h.at a).toNat ∨ ((h.at a).toNat = (h.at b).toNat ∧ a.toNat ≤ b.toNat) :=
  decide_eq_true_iff

theorem ranksBefore_refl (h : SymTable Word) (a : Byte) : ranksBefore h a a = true :=
  ranksBefore_iff.2 (.inr ⟨rfl, Nat.le_refl _⟩)

theorem ranksBefore_total (h : SymTable Word) (a b : Byte) :
    ranksBefore h a b = true ∨ ranksBefore h b a = true := by
  simp only [ranksBefore_iff]
  omega

theorem ranksBefore_trans {h : SymTable Word} {a b c : Byte} (hab : ranksBefore h a b = true)
    (hbc : ranksBefore h b c = true) : ranksBefore h a c = true := by
  rw [ranksBefore_iff] at *
  omega

/-- R201: between two symbols the tie of equal counts is strict. -/
theorem ranksBefore_strict {h : SymTable Word} {a b : Byte} (hab : ranksBefore h a b = true) (hne : a ≠ b) :
    (h.at b).toNat < (h.at a).toNat ∨ ((h.at a).toNat = (h.at b).toNat ∧ a.toNat < b.toNat) := by
  have hval : a.toNat ≠ b.toNat := fun e => hne (BitVec.eq_of_toNat_eq e)
  rw [ranksBefore_iff] at hab
  omega

theorem order_sorted (h : SymTable Word) : (order h).Pairwise fun a b => ranksBefore h a b = true := by
  have htotal : Std.Total fun a b => ranksBefore h a b = true := ⟨ranksBefore_total h⟩
  have htrans : IsTrans Byte fun a b => ranksBefore h a b = true := ⟨fun _ _ _ => ranksBefore_trans⟩
  exact List.pairwise_insertionSort _ _

/-- R201: the symbol at a position ranks before every present symbol that is not listed before it. -/
theorem ranksBefore_of_split {h : SymTable Word} {done rest : List Byte} {x y : Byte}
    (hsplit : order h = done ++ x :: rest) (hy : h.at y ≠ 0) (hnew : y ∉ done) :
    ranksBefore h x y = true := by
  have hmem : y ∈ order h := (mem_order h y).2 hy
  have hsorted := order_sorted h
  rw [hsplit, List.mem_append, List.mem_cons] at hmem
  rw [hsplit, List.pairwise_append, List.pairwise_cons] at hsorted
  obtain ⟨-, ⟨hfirst, -⟩, -⟩ := hsorted
  obtain rfl | hafter := hmem.resolve_left hnew
  · exact ranksBefore_refl h y
  · exact hfirst y hafter

/-- Settles O15: R201. Both readings follow from the sort by `ranksBefore` and the absence of repetitions. -/
theorem orderIsByCountThenSymbol : Obligations.OrderIsByCountThenSymbol := by
  unfold Obligations.OrderIsByCountThenSymbol
  intro h
  refine ⟨order_nodup h, mem_order h, (order_sorted h).imp₂ (fun _ _ => ranksBefore_strict) (order_nodup h),
    fun done x rest hsplit => ⟨fun y hy hnew => ?maximum, fun y hlt hy hnew => ?first⟩⟩
  case maximum =>
    have hrank := ranksBefore_iff.1 (ranksBefore_of_split hsplit hy hnew)
    omega
  case first =>
    have hrank := ranksBefore_iff.1 (ranksBefore_of_split hsplit hy hnew)
    omega

/-! ### One present symbol (R203) -/

theorem order_eq_singleton {h : SymTable Word} {x : Byte} (hx : ∀ y, h.at y ≠ 0 ↔ y = x) : order h = [x] := by
  refine List.perm_singleton.1 ((List.perm_ext_iff_of_nodup (order_nodup h) (List.nodup_singleton x)).2 fun y => ?_)
  rw [mem_order, hx, List.mem_singleton]

theorem build_of_order_singleton {h : SymTable Word} {x : Byte} (ho : order h = [x]) :
    build h = some (.node (.leaf x) (.leaf x)) := by
  rw [build, ho]

/-- Settles O16: R203. -/
theorem oneSymbolGivesTwoLeaves : Obligations.OneSymbolGivesTwoLeaves := by
  unfold Obligations.OneSymbolGivesTwoLeaves
  exact fun h x hx => build_of_order_singleton (order_eq_singleton hx)

/-! ### BUILD (R207) -/

/-- R244: the parser reads the node list of a tree back, up to the 256 numbers of a value byte. -/
theorem parse_records {l r : HTree} (hn : (HTree.node l r).nodes ≤ 256) :
    parse (HTree.node l r).records = .ok (.node l r) := by
  have hloop := parseLoop_number (.node l r) 0 [] [] (by omega)
  rw [List.append_nil] at hloop
  rw [parse, HTree.records, hloop, parseLoop, pushTree]

/-- R204, R206, R246: a built tree is stored as 1 to 255 records that parse back to it. -/
theorem build_records {h : SymTable Word} {t : HTree} (ht : build h = some t) :
    1 ≤ t.records.length ∧ t.records.length ≤ 255 ∧ parse t.records = .ok t := by
  obtain ⟨hmin, hmax⟩ := build_nodes ht
  obtain ⟨⟨l, r, rfl⟩, -⟩ := build_eq_some ht
  rw [records_length]
  exact ⟨hmin, hmax, parse_records (by omega)⟩

/-- R204: a table with a present symbol has a tree. -/
theorem exists_build {h : SymTable Word} (hx : ∃ x, h.at x ≠ 0) : ∃ t, build h = some t := by
  rw [← Option.ne_none_iff_exists', ne_eq, build_eq_none_iff]
  exact not_forall.2 hx

/-- R207: BUILD is its pseudocode, ended as every command (R156). -/
theorem exec_build (s : State) : exec .build s = conclude s (buildStoreCmd s) := rfl

theorem buildCmd_of_none {h : SymTable Word} (hnone : build h = none) : buildCmd h = raiseErr .emptyInput := by
  rw [buildCmd, hnone]

/-- R204, R207: an empty table is EMPTY_INPUT. -/
theorem exec_build_of_empty {s : State} (hempty : ∀ x, s.hist.at x = 0) :
    exec .build s = .next (raise .emptyInput s) := by
  rw [exec_build, buildStoreCmd, buildCmd_of_none (build_eq_none_iff.2 hempty), cmd_bind_raiseErr, conclude_raiseErr]

/-- R207: a tree built has too few records for HEADER_OVERFLOW, and its list is stored. -/
theorem exec_build_of_some {s : State} {t : HTree} (ht : build s.hist = some t) :
    exec .build s = .next (finish { s with tree := some t.records, code := none } 0 0 t.records.length) := by
  obtain ⟨-, hmax, -⟩ := build_records ht
  have hfits : decide (255 < t.records.length) = false := decide_eq_false (Nat.not_lt.2 hmax)
  simp only [exec_build, buildStoreCmd, buildCmd_eq_ok.2 ht, cmd_bind_ok, hfits, raiseIf_false, conclude_ok]

/-- R352: EMPTY_INPUT reports 0. -/
@[simp] theorem infoWord_emptyInput : CmdErr.emptyInput.infoWord = 0 := infoWord_of_fits (by decide)

/-- Settles O18: R207, with `raise` and `finish` written out by R351 and R157. -/
theorem buildStoresTheBuiltTree : Obligations.BuildStoresTheBuiltTree := by
  unfold Obligations.BuildStoresTheBuiltTree
  refine ⟨decode_encode .build, fun s => ⟨fun hempty => ?empty, fun hpresent => ?built⟩⟩
  case empty => rw [exec_build_of_empty hempty, raise_eq_failed, infoWord_emptyInput, CmdErr.code]
  case built =>
    obtain ⟨t, ht⟩ := exists_build hpresent
    obtain ⟨hmin, hmax, hparse⟩ := build_records ht
    exact ⟨t, ht, hmin, hmax, hparse, (exec_build_of_some ht).trans (congrArg _ (finish_eq_succeeded _ 0 0 _))⟩

end Sys2Proof.Machine
end

section
/-! PROOFS. The code table: the codes as paths to leaves, and GEN_CODES (spec/43_code_table.md R221 to R224). -/

namespace Sys2Proof.Machine

/-! ### Codes as paths (R222, R224) -/

/-- R222: every path to a leaf of the symbol is the symbol's code or comes before it. -/
theorem eq_or_pathBefore_codes {t : HTree} {x : Byte} (h : x ∈ t.leafSyms) {p : Bits}
    (hp : t.descend p = some (x, [])) : p = t.codes.at x ∨ pathBefore p (t.codes.at x) := by
  obtain ⟨q, hq, -, -, hlast⟩ := walk_at_of_mem h [] (SymTable.tabulate fun _ => [])
  rw [HTree.codes, hq]
  exact hlast p hp

/-- R224: no code is longer than the number of Nodes. -/
theorem codes_length_le_nodes (t : HTree) (x : Byte) : (t.codes.at x).length ≤ t.nodes := by
  by_cases h : x ∈ t.leafSyms
  · obtain ⟨q, hq, -, hlen, -⟩ := walk_at_of_mem h [] (SymTable.tabulate fun _ => [])
    rw [HTree.codes, hq]
    exact hlen
  · rw [codes_of_not_mem h]
    exact Nat.zero_le _

/-- Settles O25: R222. The walk visits the leaves in depth-first order, and the last one it meets stays. -/
theorem codesFollowTheTree : Obligations.CodesFollowTheTree := by
  unfold Obligations.CodesFollowTheTree
  exact fun l r x => ⟨fun h => ⟨codes_descend h, fun _ => eq_or_pathBefore_codes h⟩, codes_of_not_mem⟩

/-! ### The node list that a parse reads (R244) -/

/-- R244: a node list that parses is the node list of its tree. -/
theorem eq_records_of_parse {recs : List NodeRec} {t : HTree} (h : parse recs = .ok t) : recs = t.records := by
  obtain ⟨j, hloop⟩ := parse_eq_ok h
  cases parseLoop_stackOf .nil hloop with
  | cons l r hrest =>
    cases hrest
    rfl

/-- R15, R244: a node list that parses has one record for each Node. -/
theorem nodes_of_parse {recs : List NodeRec} {t : HTree} (h : parse recs = .ok t) : t.nodes = recs.length := by
  rw [eq_records_of_parse h, records_length]

/-! ### The two numbers of RES2 (R223) -/

theorem codeCount_le (tab : SymTable Bits) : codeCount tab ≤ 256 := by
  rw [codeCount_eq, ← allSymbols_length]
  exact List.length_filter_le _ _

/-- R223: the greatest code length is the maximum of 0 and the lengths, symbol by symbol. -/
theorem max?_code_lengths (tab : SymTable Bits) :
    (0 :: allSymbols.map fun x => (tab.at x).length).max? = some (maxCodeLen tab) := by
  rw [maxCodeLen, SymTable.toList_eq, List.foldl_map, List.max?_cons', List.foldl_map]

theorem code_length_le_maxCodeLen (tab : SymTable Bits) (x : Byte) : (tab.at x).length ≤ maxCodeLen tab := by
  obtain ⟨-, hmax⟩ := List.max?_eq_some_iff.1 (max?_code_lengths tab)
  exact hmax _ (List.mem_cons_of_mem _ (List.mem_map_of_mem (mem_allSymbols x)))

/-- R223: some symbol's code has the greatest length; where that is 0, any symbol's has. -/
theorem exists_code_length_eq_maxCodeLen (tab : SymTable Bits) : ∃ x, (tab.at x).length = maxCodeLen tab := by
  obtain ⟨hmem, -⟩ := List.max?_eq_some_iff.1 (max?_code_lengths tab)
  obtain hzero | hmem := List.mem_cons.1 hmem
  · exact ⟨0, Nat.le_antisymm (code_length_le_maxCodeLen tab 0) (hzero ▸ Nat.zero_le _)⟩
  · obtain ⟨x, -, hx⟩ := List.mem_map.1 hmem
    exact ⟨x, hx⟩

theorem maxCodeLen_codes_le_nodes (t : HTree) : maxCodeLen t.codes ≤ t.nodes := by
  obtain ⟨x, hx⟩ := exists_code_length_eq_maxCodeLen t.codes
  exact hx ▸ codes_length_le_nodes t x

/-- R223: the count fits the low half of RES2, so the two fields add up. -/
theorem codeCount_or_maxCodeLen (tab : SymTable Bits) :
    codeCount tab ||| (maxCodeLen tab <<< 16) = codeCount tab + maxCodeLen tab * 2 ^ 16 := by
  have hlow : codeCount tab < 2 ^ 16 := (codeCount_le tab).trans_lt (by decide)
  rw [Nat.or_comm, ← Nat.shiftLeft_add_eq_or_of_lt hlow, Nat.shiftLeft_eq, Nat.add_comm]

/-! ### GEN_CODES (R223) -/

/-- R223: GEN_CODES is its pseudocode, ended as every command (R156). -/
theorem exec_genCodes (s : State) : exec .genCodes s = conclude s (genCodesCmd s) := rfl

/-- R363: without a tree, asking for it is NO_TREE. -/
theorem needTree_of_none {s : State} (h : s.tree = none) : needTree s = raiseErr .noTree := by
  rw [needTree, h]

/-- R352: NO_TREE reports 0. -/
@[simp] theorem infoWord_noTree : CmdErr.noTree.infoWord = 0 := infoWord_of_fits (by decide)

theorem exec_genCodes_of_noTree {s : State} (h : s.tree = none) :
    exec .genCodes s = .next (raise .noTree s) := by
  rw [exec_genCodes, genCodesCmd, needTree_of_none h, cmd_bind_raiseErr, conclude_raiseErr]

/-- R223: with a tree, the command comes to `finish` with the tree's code table stored. -/
theorem exec_genCodes_of_parse {s : State} {recs : List NodeRec} {t : HTree} (hs : s.tree = some recs)
    (ht : parse recs = .ok t) :
    exec .genCodes s = .next (finish { s with code := some t.codes } 0 0
      (codeCount t.codes + maxCodeLen t.codes * 2 ^ 16)) := by
  rw [exec_genCodes, genCodesCmd, needTree_eq_ok.2 hs, cmd_bind_ok, treeOf_eq_ok.2 ht, cmd_bind_ok, conclude_ok,
    codeCount_or_maxCodeLen]

/-- Settles O27: R223, with `raise` and `finish` written out by R351 and R157. -/
theorem genCodesStoresTheCodeTable : Obligations.GenCodesStoresTheCodeTable := by
  unfold Obligations.GenCodesStoresTheCodeTable
  refine ⟨decode_encode .genCodes, fun s => ⟨fun hnone => ?noTree, fun recs t hs hlen ht => ?stored⟩⟩
  case noTree => rw [exec_genCodes_of_noTree hnone, raise_eq_failed, infoWord_noTree, CmdErr.code]
  case stored =>
    have hlongest : maxCodeLen t.codes ≤ 255 :=
      (maxCodeLen_codes_le_nodes t).trans (nodes_of_parse ht ▸ hlen)
    exact ⟨codeCount t.codes, maxCodeLen t.codes, codeCount_eq t.codes, codeCount_le t.codes,
      code_length_le_maxCodeLen t.codes, exists_code_length_eq_maxCodeLen t.codes, hlongest,
      (exec_genCodes_of_parse hs ht).trans (congrArg _ (finish_eq_succeeded _ 0 0 _))⟩

end Sys2Proof.Machine
end

section
/-! PROOFS. The serializer and deserializer: node lists and trees, SERIALIZE and DESERIALIZE
(spec/44_serdes.md R241 to R246). -/

namespace Sys2Proof.Machine

/-! ### Node lists and trees (R246) -/

/-- Settles O20: R246. The parser reads a numbering back; and by its stack invariant it ends with one tree
only on that tree's numbering. -/
theorem recordsAndParseAreInverse : Obligations.RecordsAndParseAreInverse := by
  unfold Obligations.RecordsAndParseAreInverse
  exact ⟨fun l r hn => parse_records (by omega), fun recs t _ h => (eq_records_of_parse h).symm⟩

/-! ### Checks and errors of commands (R13, R155, R351) -/

theorem raiseIf_of {p : Prop} [Decidable p] (h : p) (e : CmdErr) : raiseIf (decide p) e = raiseErr e := by
  rw [decide_eq_true h, raiseIf_true]

theorem raiseIf_of_not {p : Prop} [Decidable p] (h : ¬ p) (e : CmdErr) : raiseIf (decide p) e = .ok () := by
  rw [decide_eq_false h, raiseIf_false]

/-- R351: a command that ends in an error whose number fits ERRINFO, the error written out. -/
theorem next_failed_of_raise {o : Host.Outcome State Fault Refusal} {e : CmdErr} {s : State}
    (h : o = .next (raise e s)) (hfits : e.info < 2 ^ 32) :
    o = .next (failed s e.code (BitVec.ofNat 32 e.info)) := by
  rw [h, raise_eq_failed, infoWord_of_fits hfits]

/-- R155: a command without a source shares no byte with it. -/
theorem checkDst_passes_noSource {s : State} {m : Nat} (hr : s.dst.toNat + m ≤ s.dmemSize)
    (hc : m ≤ s.dcap.toNat) : checkDst s m 0 = .ok () := by
  have hdisjoint : overlap s.src.toNat 0 s.dst.toNat m = false := by simp [overlap]
  exact checkDst_eq_ok.2 ⟨hr, hc, hdisjoint⟩

/-! ### The bytes of an image (R242) -/

/-- R242: byte `k` of record `i` among the bytes of all records. -/
theorem flatMap_bytes_getElem? {recs : List NodeRec} {r : NodeRec} {i k : Nat} {b : Byte}
    (hr : recs[i]? = some r) (hb : r.bytes[k]? = some b) :
    (recs.flatMap NodeRec.bytes)[4 * i + k]? = some b := by
  induction recs generalizing i with
  | nil => simp at hr
  | cons r0 recs ih =>
    have hlen : r0.bytes.length = 4 := rfl
    rw [List.flatMap_cons]
    cases i with
    | zero =>
      obtain rfl : r0 = r := by simpa using hr
      obtain ⟨hk, -⟩ := List.getElem?_eq_some_iff.1 hb
      rw [Nat.mul_zero, Nat.zero_add, List.getElem?_append_left hk, hb]
    | succ i =>
      rw [List.getElem?_append_right (by omega), hlen, show 4 * (i + 1) + k - 4 = 4 * i + k by omega]
      exact ih (by simpa using hr)

/-- A byte of a list that a command stored at DST. -/
theorem storeDst_dmem_of_getElem? (s : State) {l : List Byte} {i : Nat} {b : Byte} (h : l[i]? = some b) :
    (s.storeDst l).dmem (s.dst.toNat + i) = b := by
  obtain ⟨hi, rfl⟩ := List.getElem?_eq_some_iff.1 h
  exact storeDst_dmem_in s l hi

/-- R242: an image stored at DST starts with the count. -/
theorem storeDst_image_count (s : State) (recs : List NodeRec) :
    (s.storeDst (image recs)).dmem s.dst.toNat = BitVec.ofNat 8 recs.length :=
  storeDst_dmem_of_getElem? s (i := 0) rfl

/-- R242: behind the count, byte `k` of record `i` of an image stored at DST. -/
theorem storeDst_image_byte (s : State) {recs : List NodeRec} {r : NodeRec} {i k : Nat} {b : Byte}
    (hr : recs[i]? = some r) (hb : r.bytes[k]? = some b) :
    (s.storeDst (image recs)).dmem (s.dst.toNat + (k + 1) + 4 * i) = b := by
  have himage : (image recs)[4 * i + k + 1]? = some b := by
    rw [image, List.getElem?_cons_succ, flatMap_bytes_getElem? hr hb]
  rw [Nat.add_assoc, show k + 1 + 4 * i = 4 * i + k + 1 by omega]
  exact storeDst_dmem_of_getElem? s himage

/-- R242: the image of `n` records stored at DST leaves every byte but its own `1 + 4n` as it was. -/
theorem storeDst_image_out (s : State) (recs : List NodeRec) {a : Nat}
    (h : a < s.dst.toNat ∨ s.dst.toNat + (1 + 4 * recs.length) ≤ a) :
    (s.storeDst (image recs)).dmem a = s.dmem a :=
  storeDst_dmem_out s _ (by rwa [image_length])

/-! ### SERIALIZE (R241): the ends of the command, in the order of its checks -/

/-- R241: SERIALIZE is its pseudocode, ended as every command (R156). -/
theorem exec_serialize (s : State) : exec .serialize s = conclude s (serializeCmd s) := rfl

theorem exec_serialize_of_noTree {s : State} (h : s.tree = none) :
    exec .serialize s = .next (raise .noTree s) := by
  rw [exec_serialize, serializeCmd, needTree_of_none h, cmd_bind_raiseErr, conclude_raiseErr]

theorem exec_serialize_of_overflow {s : State} {recs : List NodeRec} (hs : s.tree = some recs)
    (hn : 255 < recs.length) : exec .serialize s = .next (raise (.headerOverflow recs.length) s) := by
  simp only [exec_serialize, serializeCmd, needTree_eq_ok.2 hs, cmd_bind_ok, raiseIf_of hn, cmd_bind_raiseErr,
    conclude_raiseErr]

section
variable {s : State} {recs : List NodeRec} (hs : s.tree = some recs) (hn : recs.length ≤ 255)
include hs hn

/-- R241: with a list that its count byte can count, the destination decides. -/
theorem exec_serialize_of_counted : exec .serialize s = conclude s (checkDst s (1 + 4 * recs.length) 0 >>=
    fun _ => .ok ⟨s.storeDst (image recs), 1 + 4 * recs.length, 0, recs.length⟩) := by
  simp only [exec_serialize, serializeCmd, needTree_eq_ok.2 hs, cmd_bind_ok, raiseIf_of_not (Nat.not_lt.2 hn)]

theorem exec_serialize_of_range (hr : s.dmemSize < s.dst.toNat + (1 + 4 * recs.length)) :
    exec .serialize s = .next (raise (.range .destination) s) := by
  rw [exec_serialize_of_counted hs hn, checkDst_range hr, cmd_bind_raiseErr, conclude_raiseErr]

theorem exec_serialize_of_full (hr : s.dst.toNat + (1 + 4 * recs.length) ≤ s.dmemSize)
    (hc : s.dcap.toNat < 1 + 4 * recs.length) :
    exec .serialize s = .next (raise (.dstFull (1 + 4 * recs.length)) s) := by
  rw [exec_serialize_of_counted hs hn, checkDst_full hr hc, cmd_bind_raiseErr, conclude_raiseErr]

theorem exec_serialize_of_fits (hr : s.dst.toNat + (1 + 4 * recs.length) ≤ s.dmemSize)
    (hc : 1 + 4 * recs.length ≤ s.dcap.toNat) :
    exec .serialize s = .next (finish (s.storeDst (image recs)) (1 + 4 * recs.length) 0 recs.length) := by
  rw [exec_serialize_of_counted hs hn, checkDst_passes_noSource hr hc, cmd_bind_ok, conclude_ok]

end

/-- Settles O22: R241, with `raise` and `finish` written out by R351 and R157. -/
theorem serializeWritesTheImage : Obligations.SerializeWritesTheImage := by
  unfold Obligations.SerializeWritesTheImage
  refine ⟨decode_encode .serialize, fun s => ⟨fun hnone => ?noTree, fun recs hs hn hfits => ?overflow,
    fun recs hs hn => ⟨fun hr => ?range, fun hr => ⟨fun hc => ?full, fun hc => ?written⟩⟩⟩⟩
  case noTree => exact next_failed_of_raise (exec_serialize_of_noTree hnone) (by decide)
  case overflow => exact next_failed_of_raise (exec_serialize_of_overflow hs hn) hfits
  case range => exact next_failed_of_raise (exec_serialize_of_range hs hn hr) (by decide)
  case full =>
    have hfits : 1 + 4 * recs.length < 2 ^ 32 := by omega
    exact next_failed_of_raise (exec_serialize_of_full hs hn hr hc) hfits
  case written =>
    refine ⟨_, exec_serialize_of_fits hs hn hr hc, storeDst_image_count s recs, fun i r hi => ?_,
      fun a ha => storeDst_image_out s recs ha, finish_eq_succeeded _ _ _ _⟩
    exact ⟨storeDst_image_byte s (k := 0) hi rfl, storeDst_image_byte s (k := 1) hi rfl,
      storeDst_image_byte s (k := 2) hi rfl, storeDst_image_byte s (k := 3) hi rfl⟩

/-! ### The index of a malformed record (R244) -/

/-- R244: the loop fails at one of the records it reads. -/
theorem parseLoop_error_lt {recs : List NodeRec} {n i : Nat} {st : List (Nat × HTree)}
    (h : parseLoop n recs st = .error i) : i < n + recs.length := by
  induction recs generalizing n st with
  | nil => simp [parseLoop] at h
  | cons r recs ih =>
    rw [parseLoop] at h
    rw [List.length_cons]
    split at h
    · cases h
      omega
    · have hrest := ih h
      omega

/-- R244: MALFORMED_TREE reports the index of a record, or the number of records. -/
theorem parse_error_le {recs : List NodeRec} {i : Nat} (h : parse recs = .error i) : i ≤ recs.length := by
  unfold parse at h
  split at h
  · next hloop =>
    cases h
    have hlt := parseLoop_error_lt hloop
    omega
  · cases h
  · cases h
    exact Nat.le_refl _

theorem parseCmd_of_error {recs : List NodeRec} {i : Nat} (h : parse recs = .error i) :
    parseCmd recs = raiseErr (.malformedTree i) := by
  rw [parseCmd, h]

/-! ### DESERIALIZE (R245): the ends of the command, in the order of its checks -/

/-- R245: a list is the one that lies at an address when each record's four bytes lie at its place. -/
theorem recordsAt_eq_of_getElem? {s : State} {a : Nat} {recs : List NodeRec}
    (h : ∀ (i : Nat) (r : NodeRec), recs[i]? = some r →
      r.lk = s.dmem (a + 1 + 4 * i) ∧ r.lv = s.dmem (a + 2 + 4 * i) ∧
      r.rk = s.dmem (a + 3 + 4 * i) ∧ r.rv = s.dmem (a + 4 + 4 * i)) :
    s.recordsAt (a + 1) recs.length = recs := by
  refine List.ext_getElem (by simp [State.recordsAt]) fun i hi hi' => ?_
  obtain ⟨hlk, hlv, hrk, hrv⟩ := h i recs[i] (List.getElem?_eq_getElem hi')
  have hrec : recs[i] = ⟨recs[i].lk, recs[i].lv, recs[i].rk, recs[i].rv⟩ := rfl
  rw [hrec, hlk, hlv, hrk, hrv]
  simp only [State.recordsAt, List.getElem_map, List.getElem_range, Nat.add_right_comm _ (4 * i),
    Nat.add_assoc a, Nat.reduceAdd]

/-- R245: DESERIALIZE is its pseudocode, ended as every command (R156). -/
theorem exec_deserialize (s : State) : exec .deserialize s = conclude s (deserializeCmd s) := rfl

theorem exec_deserialize_of_range {s : State} (h : s.dmemSize < s.src.toNat + s.slen.toNat) :
    exec .deserialize s = .next (raise (.range .source) s) := by
  rw [exec_deserialize, deserializeCmd, checkSrc_fails h, cmd_bind_raiseErr, conclude_raiseErr]

section
variable {s : State} (hr : s.src.toNat + s.slen.toNat ≤ s.dmemSize)
include hr

theorem exec_deserialize_of_empty (hz : s.slen.toNat < 1) :
    exec .deserialize s = .next (raise (.hdrTruncated 1) s) := by
  simp only [exec_deserialize, deserializeCmd, checkSrc_passes hr, cmd_bind_ok, raiseIf_of hz, cmd_bind_raiseErr,
    conclude_raiseErr]

variable {n : Nat} (hn : n = (s.dmem s.src.toNat).toNat)
include hn

theorem exec_deserialize_of_truncated (hz : ¬ s.slen.toNat < 1) (hlen : s.slen.toNat < 1 + 4 * n) :
    exec .deserialize s = .next (raise (.hdrTruncated (1 + 4 * n)) s) := by
  subst hn
  simp only [exec_deserialize, deserializeCmd, checkSrc_passes hr, cmd_bind_ok, raiseIf_of_not hz, raiseIf_of hlen,
    cmd_bind_raiseErr, conclude_raiseErr]

/-- R245: with the whole header in the source, the parser decides. -/
theorem exec_deserialize_of_header (hlen : 1 + 4 * n ≤ s.slen.toNat) :
    exec .deserialize s = conclude s (parseCmd (s.recordsAt (s.src.toNat + 1) n) >>= fun _ =>
      .ok ⟨{ s with tree := some (s.recordsAt (s.src.toNat + 1) n), code := none }, 0, 1 + 4 * n, n⟩) := by
  subst hn
  have hz : ¬ s.slen.toNat < 1 := by omega
  simp only [exec_deserialize, deserializeCmd, checkSrc_passes hr, cmd_bind_ok, raiseIf_of_not hz,
    raiseIf_of_not (Nat.not_lt.2 hlen)]

variable {recs : List NodeRec} (hrecs : s.recordsAt (s.src.toNat + 1) n = recs)
include hrecs

theorem exec_deserialize_of_malformed (hlen : 1 + 4 * n ≤ s.slen.toNat) {i : Nat} (hp : parse recs = .error i) :
    exec .deserialize s = .next (raise (.malformedTree i) s) := by
  rw [exec_deserialize_of_header hr hn hlen, hrecs, parseCmd_of_error hp, cmd_bind_raiseErr, conclude_raiseErr]

theorem exec_deserialize_of_parse (hlen : 1 + 4 * n ≤ s.slen.toNat) {t : HTree} (hp : parse recs = .ok t) :
    exec .deserialize s = .next (finish { s with tree := some recs, code := none } 0 (1 + 4 * n) n) := by
  rw [exec_deserialize_of_header hr hn hlen, hrecs, parseCmd_eq_ok.2 hp, cmd_bind_ok, conclude_ok]

end

/-- Settles O23: R245, with `raise` and `finish` written out by R351 and R157. The count is a byte, so every
number reported fits ERRINFO. -/
theorem deserializeReadsTheImage : Obligations.DeserializeReadsTheImage := by
  unfold Obligations.DeserializeReadsTheImage
  refine ⟨decode_encode .deserialize, fun s n recs hn hlength hbytes => ?_⟩
  have hrecs : s.recordsAt (s.src.toNat + 1) n = recs := hlength ▸ recordsAt_eq_of_getElem? hbytes
  have hbyte : n < 256 := hn ▸ (s.dmem s.src.toNat).isLt
  refine ⟨fun hr => ?range, fun hr => ⟨fun hz => ?empty, fun hz hlen => ?truncated,
    fun hlen => ⟨fun i hp => ?malformed, fun t hp => ?stored⟩⟩⟩
  case range => exact next_failed_of_raise (exec_deserialize_of_range hr) (by decide)
  case empty =>
    have hz' : s.slen.toNat < 1 := hz ▸ Nat.one_pos
    exact next_failed_of_raise (exec_deserialize_of_empty hr hz') (by decide)
  case truncated =>
    have hz' : ¬ s.slen.toNat < 1 := fun h => hz (BitVec.eq_of_toNat_eq (Nat.lt_one_iff.1 h))
    have hfits : 1 + 4 * n < 2 ^ 32 := by omega
    exact next_failed_of_raise (exec_deserialize_of_truncated hr hn hz' hlen) hfits
  case malformed =>
    have hindex : i ≤ recs.length := parse_error_le hp
    have hfits : i < 2 ^ 32 := by omega
    exact next_failed_of_raise (exec_deserialize_of_malformed hr hn hrecs hlen hp) hfits
  case stored =>
    exact (exec_deserialize_of_parse hr hn hrecs hlen hp).trans (congrArg _ (finish_eq_succeeded _ 0 _ n))

end Sys2Proof.Machine
end

section
/-! PROOFS. The bit packer and unpacker: unpacking as the inverse of packing, and UNPACK
(spec/45_bitpack.md R271, R272, R276, R277). -/

namespace Sys2Proof.Machine

/-! ### Unpacking inverts packing (R277) -/

/-- R12: `ceil8(n)` bytes hold `n` bits. -/
theorem le_eight_mul_ceil8 (n : Nat) : n ≤ 8 * ceil8 n := by
  unfold ceil8
  omega

/-- R12, R127: fewer than eight of the bits of `ceil8(n)` bytes are pad. -/
theorem eight_mul_ceil8_lt (n : Nat) : 8 * ceil8 n < n + 8 := by
  unfold ceil8
  omega

/-- R272: packed paths to leaves unpack to the leaves' symbols. The pad bits behind them are not used, and
every byte is consumed. -/
theorem unpackbits_bytesOfBits {t : HTree} (code : Byte → Bits) (data : List Byte)
    (h : ∀ b ∈ data, t.descend (code b) = some (b, [])) :
    unpackbits t (bytesOfBits (ceil8 (data.flatMap code).length) (data.flatMap code)) data.length =
      .ok (data, (data.flatMap code).length, ceil8 (data.flatMap code).length) := by
  have hfit := le_eight_mul_ceil8 (data.flatMap code).length
  simp only [unpackbits, bitsOfBytes_bytesOfBits _ _ hfit, decodeFrom_paths code data 0 _ h, cmd_bind_ok,
    bytesOfBits_length, List.length_replicate, Nat.sub_sub_self hfit]

/-- R277: a byte with a code in a tree's code table has a path to a leaf that carries it. -/
theorem descend_code_of_ne_nil {l r : HTree} {b : Byte} (h : (HTree.node l r).codes.at b ≠ []) :
    (HTree.node l r).descend ((HTree.node l r).codes.at b) = some (b, []) :=
  codes_descend (codes_ne_nil_iff.1 h)

/-- Settles O31: R277. Packing succeeds only when every byte has a code, and a code is a path to a leaf that
carries its byte; so the packed bits are such paths in a row, then the pad. -/
theorem unpackInvertsPack : Obligations.UnpackInvertsPack := by
  unfold Obligations.UnpackInvertsPack
  intro l r data out pad hpack
  obtain ⟨hcoded, rfl, rfl⟩ := packbits_eq_ok.1 hpack
  have hfit := le_eight_mul_ceil8 (data.flatMap fun b => (HTree.node l r).codes.at b).length
  have hpad := eight_mul_ceil8_lt (data.flatMap fun b => (HTree.node l r).codes.at b).length
  refine ⟨by omega, ?_⟩
  rw [bytesOfBits_length, Nat.sub_sub_self hfit]
  exact unpackbits_bytesOfBits _ data fun b hb => descend_code_of_ne_nil (hcoded b hb)

/-! ### The symbol at which a stream ends (R272) -/

/-- R272: TRUNCATED_STREAM reports a symbol among those asked for. -/
theorem decodeFrom_truncated_lt {t : HTree} {n i k : Nat} {bs : Bits}
    (h : decodeFrom t n i bs = .error (.raised (.truncatedStream k))) : k < i + n := by
  induction n generalizing i bs with
  | zero => cases h
  | succ n ih =>
    rw [decodeFrom] at h
    split at h
    · cases h
      omega
    · obtain hrest | ⟨_, _, hok⟩ := cmd_bind_eq_error.1 h
      · have hlt := ih hrest
        omega
      · cases hok

theorem unpackbits_truncated_lt {t : HTree} {bytes : List Byte} {n k : Nat}
    (h : unpackbits t bytes n = .error (.raised (.truncatedStream k))) : k < n := by
  rw [unpackbits] at h
  obtain hdecode | ⟨_, _, hok⟩ := cmd_bind_eq_error.1 h
  · exact Nat.zero_add n ▸ decodeFrom_truncated_lt hdecode
  · cases hok

/-! ### UNPACK (R276): the ends of the command, in the order of its checks -/

/-- R276: UNPACK is its pseudocode, ended as every command (R156). -/
theorem exec_unpack (s : State) : exec .unpack s = conclude s (unpackCmd s) := rfl

theorem exec_unpack_of_noTree {s : State} (h : s.tree = none) : exec .unpack s = .next (raise .noTree s) := by
  rw [exec_unpack, unpackCmd, needTree_of_none h, cmd_bind_raiseErr, conclude_raiseErr]

section
variable {s : State} {recs : List NodeRec} (hs : s.tree = some recs)
include hs

/-- R276: with a tree, the source range is checked first. -/
theorem exec_unpack_of_srcRange (hr : s.dmemSize < s.src.toNat + s.slen.toNat) :
    exec .unpack s = .next (raise (.range .source) s) := by
  rw [exec_unpack, unpackCmd, needTree_eq_ok.2 hs, cmd_bind_ok, checkSrc_fails hr, cmd_bind_raiseErr,
    conclude_raiseErr]

variable (hr : s.src.toNat + s.slen.toNat ≤ s.dmemSize)
include hr

/-- R155, R276: with the source inside DMEM, an error of the destination's checks ends the command. -/
theorem exec_unpack_of_dst {e : CmdErr} (hd : checkDst s s.cnt.toNat s.slen.toNat = raiseErr e) :
    exec .unpack s = .next (raise e s) := by
  rw [exec_unpack, unpackCmd, needTree_eq_ok.2 hs, cmd_bind_ok, checkSrc_passes hr, cmd_bind_ok, hd,
    cmd_bind_raiseErr, conclude_raiseErr]

variable (hd : checkDst s s.cnt.toNat s.slen.toNat = .ok ()) {t : HTree} (ht : parse recs = .ok t)
include hd ht

/-- R276: with every check passed, what `unpackbits` answers decides. -/
theorem exec_unpack_of_checked : exec .unpack s = conclude s (unpackbits t s.srcBytes s.cnt.toNat >>=
    fun u => .ok ⟨s.storeDst u.1, s.cnt.toNat, u.2.2, 8 * u.2.2 - u.2.1⟩) := by
  rw [exec_unpack, unpackCmd, needTree_eq_ok.2 hs, cmd_bind_ok, checkSrc_passes hr, cmd_bind_ok, hd, cmd_bind_ok,
    treeOf_eq_ok.2 ht, cmd_bind_ok]

theorem exec_unpack_of_truncated {k : Nat}
    (hu : unpackbits t s.srcBytes s.cnt.toNat = .error (.raised (.truncatedStream k))) :
    exec .unpack s = .next (raise (.truncatedStream k) s) := by
  rw [exec_unpack_of_checked hs hr hd ht, hu, cmd_bind_error, conclude]

theorem exec_unpack_of_unpacked {out : List Byte} {used consumed : Nat}
    (hu : unpackbits t s.srcBytes s.cnt.toNat = .ok (out, used, consumed)) :
    exec .unpack s = .next (finish (s.storeDst out) s.cnt.toNat consumed (8 * consumed - used)) := by
  rw [exec_unpack_of_checked hs hr hd ht, hu, cmd_bind_ok, conclude_ok]

end

/-- Settles O30: R276, with `raise` and `finish` written out by R351 and R157. As many symbols as CNT says are
stored; and TRUNCATED_STREAM's number is below CNT, so it fits ERRINFO. -/
theorem unpackWritesTheSymbols : Obligations.UnpackWritesTheSymbols := by
  unfold Obligations.UnpackWritesTheSymbols
  refine ⟨decode_encode .unpack, fun s => ⟨fun hnone => ?noTree, fun recs t hs ht => ⟨fun hr => ?srcRange,
    fun hr => ⟨fun hdr => ?dstRange, fun hdr => ⟨fun hc => ?full, fun hc => ⟨fun ho => ?overlap,
      fun ho => ⟨fun k hu => ?truncated, fun out used consumed hu => ?written⟩⟩⟩⟩⟩⟩⟩
  case noTree => exact next_failed_of_raise (exec_unpack_of_noTree hnone) (by decide)
  case srcRange => exact next_failed_of_raise (exec_unpack_of_srcRange hs hr) (by decide)
  case dstRange => exact next_failed_of_raise (exec_unpack_of_dst hs hr (checkDst_range hdr)) (by decide)
  case full =>
    have hfits : (CmdErr.dstFull s.cnt.toNat).info < 2 ^ 32 := s.cnt.isLt
    rw [exec_unpack_of_dst hs hr (checkDst_full hdr hc), raise_eq_failed, infoWord_of_fits hfits, CmdErr.info,
      BitVec.ofNat_toNat, BitVec.setWidth_eq, CmdErr.code]
  case overlap => exact next_failed_of_raise (exec_unpack_of_dst hs hr (checkDst_overlap hdr hc ho)) (by decide)
  case truncated =>
    have hfits : k < 2 ^ 32 := (unpackbits_truncated_lt hu).trans s.cnt.isLt
    exact next_failed_of_raise (exec_unpack_of_truncated hs hr (checkDst_eq_ok.2 ⟨hdr, hc, ho⟩) ht hu) hfits
  case written =>
    have hlen : out.length = s.cnt.toNat := unpackbits_length hu
    refine ⟨_, exec_unpack_of_unpacked hs hr (checkDst_eq_ok.2 ⟨hdr, hc, ho⟩) ht hu, fun i hi => ?_, fun a ha => ?_, ?_⟩
    · have hout : out[i]? = some out[i] := List.getElem?_eq_getElem (hlen ▸ hi)
      exact hout ▸ congrArg some (storeDst_dmem_of_getElem? s hout)
    · exact storeDst_dmem_out s out (hlen ▸ ha)
    · rw [finish_eq_succeeded, BitVec.ofNat_toNat, BitVec.setWidth_eq]
      rfl

end Sys2Proof.Machine
end

section
/-! PROOFS. The tree optimizer: OPTIMIZE (spec/46_optimizer.md R302, R303). -/

namespace Sys2Proof.Machine

/-! ### What `optimize` answers (R302) -/

/-- R302: SYMSET_MISMATCH reports a symbol, alone or with the bit 0x100, so the number has nine bits. -/
theorem optimize_symsetMismatch_lt {t : HTree} {h : SymTable Word} {x : Nat}
    (ho : optimize t h = .error (.raised (.symsetMismatch x))) : x < 2 ^ 9 := by
  have hsymbol (y : Byte) : y.toNat < 2 ^ 9 := y.isLt.trans (by decide)
  unfold optimize at ho
  dsimp only at ho
  split at ho
  · next y _ =>
    cases ho
    exact hsymbol y
  · split at ho
    · cases ho
    · split at ho
      · next y _ =>
        cases ho
        exact Nat.or_lt_two_pow (by decide) (hsymbol y)
      · cases ho

/-- R302: the position order has one number for each leaf. -/
theorem positionOrder_length (t : HTree) :
    (positionOrder ((t.positions 0).map Prod.fst)).length = t.nodes + 1 := by
  rw [(positionOrder_perm _).length_eq, List.length_range, List.length_map, positions_length]

/-- R302: relabelled with the assigned symbols, a tree carries just these on its leaves. -/
theorem leafSyms_relabel_assignSyms (t : HTree) (sigma : List Byte) :
    (t.relabel (assignSyms (positionOrder ((t.positions 0).map Prod.fst)) sigma)).1.leafSyms =
      assignSyms (positionOrder ((t.positions 0).map Prod.fst)) sigma := by
  have hlen := (assignSyms_length (positionOrder ((t.positions 0).map Prod.fst)) sigma).trans (positionOrder_length t)
  rw [relabel_leafSyms t _ hlen.ge, List.take_of_length_le hlen.le]

/-- Symbol by symbol, a list does not differ from itself. -/
theorem filter_zip_self_ne (xs : List Byte) : (xs.zip xs).filter (fun p => p.1 ≠ p.2) = [] := by
  simp [List.zip, List.zipWith_self]

/-- R302: the count that `optimize` answers is the number of positions at which the two trees' symbols differ. -/
theorem optimize_changed {t t' : HTree} {h : SymTable Word} {n : Nat} (ho : optimize t h = .ok (t', n)) :
    n = ((t'.leafSyms.zip t.leafSyms).filter fun p => p.1 ≠ p.2).length := by
  obtain ⟨-, ⟨-, rfl, rfl⟩ | ⟨-, -, rfl, rfl⟩⟩ := optimize_eq_ok ho
  · rw [filter_zip_self_ne, List.length_nil]
  · rw [leafSyms_relabel_assignSyms]

/-! ### OPTIMIZE (R303): the ends of the command, in the order of its checks -/

/-- R303: OPTIMIZE is its pseudocode, ended as every command (R156). -/
theorem exec_optimize (s : State) : exec .optimize s = conclude s (optimizeCmd s) := rfl

theorem exec_optimize_of_noTree {s : State} (h : s.tree = none) : exec .optimize s = .next (raise .noTree s) := by
  rw [exec_optimize, optimizeCmd, needTree_of_none h, cmd_bind_raiseErr, conclude_raiseErr]

section
variable {s : State} {recs : List NodeRec} {t : HTree} (hs : s.tree = some recs) (ht : parse recs = .ok t)
include hs ht

/-- R303: with a tree, what `optimize` answers decides. -/
theorem exec_optimize_of_parse : exec .optimize s = conclude s (optimize t s.hist >>= fun u =>
    .ok ⟨{ s with tree := some u.1.records, code := none }, 0, 0, u.2⟩) := by
  rw [exec_optimize, optimizeCmd, needTree_eq_ok.2 hs, cmd_bind_ok, treeOf_eq_ok.2 ht, cmd_bind_ok]

theorem exec_optimize_of_raised {e : CmdErr} (ho : optimize t s.hist = .error (.raised e)) :
    exec .optimize s = .next (raise e s) := by
  rw [exec_optimize_of_parse hs ht, ho, cmd_bind_error, conclude]

theorem exec_optimize_of_ok {t' : HTree} {n : Nat} (ho : optimize t s.hist = .ok (t', n)) :
    exec .optimize s = .next (finish { s with tree := some t'.records, code := none } 0 0 n) := by
  rw [exec_optimize_of_parse hs ht, ho, cmd_bind_ok, conclude_ok]

end

/-- Settles O37: R303, with `raise` and `finish` written out by R351 and R157. SYMSET_MISMATCH's number always
fits ERRINFO; and `optimize` succeeds under the conditions on the leaf symbols. -/
theorem optimizeReassignsTheLeaves : Obligations.OptimizeReassignsTheLeaves := by
  unfold Obligations.OptimizeReassignsTheLeaves
  refine ⟨decode_encode .optimize, fun s => ⟨fun hnone => ?noTree, fun recs t x hs ht ho => ?mismatch,
    fun recs t hs ht hsets hdistinct => ?stored⟩⟩
  case noTree => exact next_failed_of_raise (exec_optimize_of_noTree hnone) (by decide)
  case mismatch =>
    have hfits : x < 2 ^ 32 := (optimize_symsetMismatch_lt ho).trans (by decide)
    exact next_failed_of_raise (exec_optimize_of_raised hs ht ho) hfits
  case stored =>
    rw [← present_eq] at hdistinct
    obtain ⟨t', n, ho⟩ := optimize_isOk hsets hdistinct
    exact ⟨t', n, ho, optimize_changed ho,
      (exec_optimize_of_ok hs ht ho).trans (congrArg _ (finish_eq_succeeded _ 0 0 n))⟩

end Sys2Proof.Machine
end

section
/-! PROOFS. The codec: DECOMPRESS, and DECOMPRESS of what COMPRESS has written (spec/47_codec.md R321, R324, R325). -/

namespace Sys2Proof.Machine

/-! ### DECOMPRESS (R324): the ends of the command, in the order of its checks -/

/-- R324: DECOMPRESS is its pseudocode, ended as every command (R156). -/
theorem exec_decompress (s : State) : exec .decompress s = conclude s (decompressCmd s) := rfl

theorem exec_decompress_of_srcRange {s : State} (h : s.dmemSize < s.src.toNat + s.slen.toNat) :
    exec .decompress s = .next (raise (.range .source) s) := by
  rw [exec_decompress, decompressCmd, checkSrc_fails h, cmd_bind_raiseErr, conclude_raiseErr]

section
variable {s : State} (hr : s.src.toNat + s.slen.toNat ≤ s.dmemSize)
include hr

theorem exec_decompress_of_empty (hz : s.slen.toNat < 1) :
    exec .decompress s = .next (raise (.hdrTruncated 1) s) := by
  simp only [exec_decompress, decompressCmd, checkSrc_passes hr, cmd_bind_ok, raiseIf_of hz, cmd_bind_raiseErr,
    conclude_raiseErr]

variable {n : Nat} (hn : n = (s.dmem s.src.toNat).toNat)
include hn

theorem exec_decompress_of_truncatedHeader (hz : ¬ s.slen.toNat < 1) (hlen : s.slen.toNat < 5 + 4 * n) :
    exec .decompress s = .next (raise (.hdrTruncated (5 + 4 * n)) s) := by
  subst hn
  simp only [exec_decompress, decompressCmd, checkSrc_passes hr, cmd_bind_ok, raiseIf_of_not hz, raiseIf_of hlen,
    cmd_bind_raiseErr, conclude_raiseErr]

variable (hlen : 5 + 4 * n ≤ s.slen.toNat) {recs : List NodeRec} (hrecs : s.recordsAt (s.src.toNat + 1) n = recs)
  {len : Nat} (hl : leNat (s.memRead (s.src.toNat + 1 + 4 * n) 4) = len)
include hlen hrecs hl

/-- R324: with the whole header in the source, the parser, the destination and the packed bits decide. -/
theorem exec_decompress_of_header : exec .decompress s = conclude s (parseCmd recs >>= fun t =>
    checkDst s len s.slen.toNat >>= fun _ =>
    unpackbits t (s.memRead (s.src.toNat + 5 + 4 * n) (s.slen.toNat - (5 + 4 * n))) len >>= fun u =>
    .ok ⟨{ s.storeDst u.1 with tree := some recs, code := none }, len, 5 + 4 * n + u.2.2,
      8 * u.2.2 - u.2.1⟩) := by
  subst hn hrecs hl
  have hz : ¬ s.slen.toNat < 1 := by omega
  simp only [exec_decompress, decompressCmd, checkSrc_passes hr, cmd_bind_ok, raiseIf_of_not hz,
    raiseIf_of_not (Nat.not_lt.2 hlen), Nat.sub_sub]

theorem exec_decompress_of_malformed {i : Nat} (hp : parse recs = .error i) :
    exec .decompress s = .next (raise (.malformedTree i) s) := by
  rw [exec_decompress_of_header hr hn hlen hrecs hl, parseCmd_of_error hp, cmd_bind_raiseErr, conclude_raiseErr]

variable {t : HTree} (hp : parse recs = .ok t)
include hp

/-- R155, R324: with a tree in the header, an error of the destination's checks ends the command. -/
theorem exec_decompress_of_dst {e : CmdErr} (hd : checkDst s len s.slen.toNat = raiseErr e) :
    exec .decompress s = .next (raise e s) := by
  rw [exec_decompress_of_header hr hn hlen hrecs hl, parseCmd_eq_ok.2 hp, cmd_bind_ok, hd, cmd_bind_raiseErr,
    conclude_raiseErr]

variable (hd : checkDst s len s.slen.toNat = .ok ())
include hd

theorem exec_decompress_of_truncatedStream {k : Nat}
    (hu : unpackbits t (s.memRead (s.src.toNat + 5 + 4 * n) (s.slen.toNat - (5 + 4 * n))) len =
      .error (.raised (.truncatedStream k))) :
    exec .decompress s = .next (raise (.truncatedStream k) s) := by
  rw [exec_decompress_of_header hr hn hlen hrecs hl, parseCmd_eq_ok.2 hp, cmd_bind_ok, hd, cmd_bind_ok, hu,
    cmd_bind_error, conclude]

theorem exec_decompress_of_unpacked {out : List Byte} {used consumed : Nat}
    (hu : unpackbits t (s.memRead (s.src.toNat + 5 + 4 * n) (s.slen.toNat - (5 + 4 * n))) len =
      .ok (out, used, consumed)) :
    exec .decompress s = .next (finish { s.storeDst out with tree := some recs, code := none } len
      (5 + 4 * n + consumed) (8 * consumed - used)) := by
  rw [exec_decompress_of_header hr hn hlen hrecs hl, parseCmd_eq_ok.2 hp, cmd_bind_ok, hd, cmd_bind_ok, hu,
    cmd_bind_ok, conclude_ok]

end

/-- R84, R126: the number that four bytes of DMEM stand for. -/
theorem leNat_memRead_four (s : State) (a : Nat) : leNat (s.memRead a 4) =
    (s.dmem a).toNat + (s.dmem (a + 1)).toNat * 2 ^ 8 + (s.dmem (a + 2)).toNat * 2 ^ 16 +
      (s.dmem (a + 3)).toNat * 2 ^ 24 := by
  have hread : s.memRead a 4 = [s.dmem a, s.dmem (a + 1), s.dmem (a + 2), s.dmem (a + 3)] := rfl
  simp only [hread, leNat]
  omega

/-- Settles O40: R324, with `raise` and `finish` written out by R351 and R157. The declared length is four
bytes and the count is one, so every number reported fits ERRINFO. -/
theorem decompressWritesTheBytes : Obligations.DecompressWritesTheBytes := by
  unfold Obligations.DecompressWritesTheBytes
  refine ⟨decode_encode .decompress, fun s n len recs hn hlength hbytes hlen4 => ?_⟩
  have hrecs : s.recordsAt (s.src.toNat + 1) n = recs := hlength ▸ recordsAt_eq_of_getElem? hbytes
  have hbyte : n < 256 := hn ▸ (s.dmem s.src.toNat).isLt
  have hl : leNat (s.memRead (s.src.toNat + 1 + 4 * n) 4) = len := by
    simp only [hlen4, leNat_memRead_four, Nat.add_right_comm _ (4 * n), Nat.add_assoc s.src.toNat, Nat.reduceAdd]
  have hl32 : len < 2 ^ 32 := by
    have hlt := leNat_lt (s.memRead (s.src.toNat + 1 + 4 * n) 4)
    rwa [hl, memRead_length] at hlt
  refine ⟨fun hr => ?srcRange, fun hr => ⟨fun hz => ?empty, fun hz hlen => ?truncatedHeader,
    fun hlen => ⟨fun i hp => ?malformed, fun t hp => ⟨fun hdr => ?dstRange, fun hdr => ⟨fun hc => ?full,
      fun hc => ⟨fun ho => ?overlap, ?decoded⟩⟩⟩⟩⟩⟩
  case srcRange => exact next_failed_of_raise (exec_decompress_of_srcRange hr) (by decide)
  case empty =>
    have hz' : s.slen.toNat < 1 := hz ▸ Nat.one_pos
    exact next_failed_of_raise (exec_decompress_of_empty hr hz') (by decide)
  case truncatedHeader =>
    have hz' : ¬ s.slen.toNat < 1 := fun h => hz (BitVec.eq_of_toNat_eq (Nat.lt_one_iff.1 h))
    have hfits : 5 + 4 * n < 2 ^ 32 := by omega
    exact next_failed_of_raise (exec_decompress_of_truncatedHeader hr hn hz' hlen) hfits
  case malformed =>
    have hindex : i ≤ recs.length := parse_error_le hp
    have hfits : i < 2 ^ 32 := by omega
    exact next_failed_of_raise (exec_decompress_of_malformed hr hn hlen hrecs hl hp) hfits
  case dstRange =>
    exact next_failed_of_raise (exec_decompress_of_dst hr hn hlen hrecs hl hp (checkDst_range hdr)) (by decide)
  case full =>
    exact next_failed_of_raise (exec_decompress_of_dst hr hn hlen hrecs hl hp (checkDst_full hdr hc)) hl32
  case overlap =>
    exact next_failed_of_raise (exec_decompress_of_dst hr hn hlen hrecs hl hp (checkDst_overlap hdr hc ho)) (by decide)
  case decoded =>
    rintro ho _ rfl
    have hd : checkDst s len s.slen.toNat = .ok () := checkDst_eq_ok.2 ⟨hdr, hc, ho⟩
    refine ⟨fun k hu => ?truncatedStream, fun out used consumed hu => ?written⟩
    case truncatedStream =>
      have hfits : k < 2 ^ 32 := (unpackbits_truncated_lt hu).trans hl32
      exact next_failed_of_raise (exec_decompress_of_truncatedStream hr hn hlen hrecs hl hp hd hu) hfits
    case written =>
      have hout : out.length = len := unpackbits_length hu
      refine ⟨_, exec_decompress_of_unpacked hr hn hlen hrecs hl hp hd hu, fun i hi => ?_, fun a ha => ?_,
        finish_eq_succeeded _ _ _ _⟩
      · have hsym : out[i]? = some out[i] := List.getElem?_eq_getElem (hout ▸ hi)
        exact hsym ▸ congrArg some (storeDst_dmem_of_getElem? s hsym)
      · exact storeDst_dmem_out s out (hout ▸ ha)

/-! ### The four parts of a stream in DMEM (R125) -/

/-- R13: a read in two parts. -/
theorem memRead_add (s : State) (a m n : Nat) : s.memRead a (m + n) = s.memRead a m ++ s.memRead (a + m) n := by
  simp only [State.memRead, List.range_add, List.map_append, List.map_map, Function.comp_def, Nat.add_assoc]

/-- R13: bytes that read as two lists in a row are the first list, with the second behind it. -/
theorem memRead_eq_append {s : State} {a n : Nat} {l l' : List Byte} (h : s.memRead a n = l ++ l') :
    s.memRead a l.length = l ∧ s.memRead (a + l.length) l'.length = l' := by
  have hn : n = l.length + l'.length := by rw [← memRead_length s a n, h, List.length_append]
  rw [hn, memRead_add] at h
  exact List.append_inj h (memRead_length s a l.length)

/-- R245: bytes that read as those of records are these records. -/
theorem recordsAt_of_memRead {s : State} {a n : Nat} {recs : List NodeRec}
    (h : s.memRead a n = recs.flatMap NodeRec.bytes) : s.recordsAt a recs.length = recs := by
  have hn : n = 4 * recs.length := by rw [← memRead_length s a n, h, flatMap_bytes_length]
  exact recordsAt_of_bytes fun i hi => by rw [← h, memRead_getElem? s (hn ▸ hi)]

/-- R125: a stream has `5 + 4n` bytes before its packed bits. -/
theorem stream_length (recs : List NodeRec) (v : Word) (packed : List Byte) :
    (stream recs v packed).length = 5 + 4 * recs.length + packed.length := by
  rw [stream, List.length_append, List.length_append, image_length, leBytes_length]
  omega

/-- R125: where the count, the records, the length and the packed bits of a stream lie. -/
theorem memRead_eq_stream {s : State} {a c : Nat} {recs : List NodeRec} {v : Word} {packed : List Byte}
    (h : s.memRead a c = stream recs v packed) :
    s.dmem a = BitVec.ofNat 8 recs.length ∧ s.recordsAt (a + 1) recs.length = recs ∧
      s.memRead (a + 1 + 4 * recs.length) 4 = leBytes 4 v ∧
      s.memRead (a + 5 + 4 * recs.length) packed.length = packed := by
  obtain ⟨hheader, hpacked⟩ := memRead_eq_append h
  obtain ⟨himage, hlen⟩ := memRead_eq_append hheader
  obtain ⟨hcount, hrecs⟩ := memRead_eq_append (l := [BitVec.ofNat 8 recs.length]) himage
  rw [List.length_append, image_length, leBytes_length,
    show a + (1 + 4 * recs.length + 4) = a + 5 + 4 * recs.length by omega] at hpacked
  rw [image_length, leBytes_length, ← Nat.add_assoc] at hlen
  exact ⟨List.head_eq_of_cons_eq hcount, recordsAt_of_memRead hrecs, hlen, hpacked⟩

/-- R324: DECOMPRESS of a stream whose records are a tree's and whose packed bits hold as many symbols as it says. -/
theorem exec_decompress_of_stream {s : State} {recs : List NodeRec} {t : HTree} {v : Word} {packed out : List Byte}
    {used consumed : Nat} (hr : s.src.toNat + s.slen.toNat ≤ s.dmemSize)
    (hstream : s.srcBytes = stream recs v packed) (hcount : recs.length ≤ 255) (hp : parse recs = .ok t)
    (hd : checkDst s v.toNat s.slen.toNat = .ok ())
    (hu : unpackbits t packed v.toNat = .ok (out, used, consumed)) :
    exec .decompress s = .next (finish { s.storeDst out with tree := some recs, code := none } v.toNat
      (5 + 4 * recs.length + consumed) (8 * consumed - used)) := by
  obtain ⟨hfirst, hrecs, hlen, hpacked⟩ := memRead_eq_stream hstream
  have hslen : s.slen.toNat = 5 + 4 * recs.length + packed.length := by
    rw [← srcBytes_length, hstream, stream_length]
  have hn : recs.length = (s.dmem s.src.toNat).toNat := by
    rw [hfirst, BitVec.toNat_ofNat, Nat.mod_eq_of_lt (by omega)]
  have hl : leNat (s.memRead (s.src.toNat + 1 + 4 * recs.length) 4) = v.toNat := by
    rw [hlen, leNat_leBytes_four]
  have hrest : s.memRead (s.src.toNat + 5 + 4 * recs.length) (s.slen.toNat - (5 + 4 * recs.length)) = packed := by
    rw [hslen, Nat.add_sub_cancel_left, hpacked]
  exact exec_decompress_of_unpacked hr hn (by omega) hrecs hl hp hd (hrest.symm ▸ hu)

/-! ### What COMPRESS has written (R321) -/

/-- R321: COMPRESS and COMPRESS.O are one pseudocode, ended as every command (R156). -/
theorem exec_compress (o : Bool) (s : State) : exec (compressInstr o) s = conclude s (compressCmd o s) := by
  cases o <;> rfl

/-- R352: no error has the code 0. -/
theorem CmdErr.code_ne_zero (e : CmdErr) : e.code ≠ 0 := by
  cases e <;> simp [CmdErr.code]

/-- R156, R352: a command that leaves ERRCODE 0 came to `finish`. -/
theorem conclude_next_of_errCode {s t : State} {c : Cmd Completion} (h : conclude s c = .next t)
    (he : t.errCode = 0) : ∃ k, c = .ok k ∧ t = finish k.state k.r0 k.r1 k.r2 := by
  obtain ⟨e, -, rfl⟩ | hok := conclude_next h
  · exact absurd he e.code_ne_zero
  · exact hok

/-- R302, R321: the optimizer, used or not, keeps the number of Nodes. -/
theorem optimizeIf_nodes {o : Bool} {t0 t : HTree} {h : SymTable Word} (ho : optimizeIf o t0 h = .ok t) :
    t.nodes = t0.nodes := by
  cases o with
  | false => cases ho; rfl
  | true =>
    obtain ⟨⟨t', n⟩, hopt, hok⟩ := cmd_bind_eq_ok.1 ho
    cases hok
    exact (optimize_shape hopt).1

/-- R206: a tree with a Node has one at its root. -/
theorem HTree.exists_node_of_nodes {t : HTree} (h : 1 ≤ t.nodes) : ∃ l r, t = .node l r := by
  cases t with
  | leaf x => simp [HTree.nodes] at h
  | node l r => exact ⟨l, r, rfl⟩

/-- R321: a COMPRESS that succeeds leaves, in RES0 bytes at DST, the stream of the input packed with the codes
of a tree. -/
theorem compress_leaves_stream {o : Bool} {s t : State} (h : exec (compressInstr o) s = .next t)
    (he : t.errCode = 0) :
    t.cfg = s.cfg ∧ s.dst.toNat + t.res0.toNat ≤ s.dmemSize ∧ ∃ l r packed pad,
      (HTree.node l r).nodes ≤ 255 ∧ packbits s.srcBytes (HTree.node l r).codes = .ok (packed, pad) ∧
      t.memRead s.dst.toNat t.res0.toNat = stream (HTree.node l r).records s.slen packed := by
  rw [exec_compress] at h
  obtain ⟨k, hk, rfl⟩ := conclude_next_of_errCode h he
  obtain ⟨t0, tree, packed, pad, -, -, hbuild, hopt, hcount, hpack, hd, rfl⟩ := compressCmd_eq_ok hk
  obtain ⟨hrange, hcap, -⟩ := checkDst_eq_ok.1 hd
  have hroot : 1 ≤ tree.nodes := optimizeIf_nodes hopt ▸ (build_nodes hbuild).1
  obtain ⟨l, r, rfl⟩ := HTree.exists_node_of_nodes hroot
  have hres0 : (BitVec.ofNat 32 (stream (HTree.node l r).records s.slen packed).length).toNat =
      (stream (HTree.node l r).records s.slen packed).length := by
    rw [BitVec.toNat_ofNat, Nat.mod_eq_of_lt (hcap.trans_lt s.dcap.isLt)]
  rw [records_length] at hcount
  refine ⟨rfl, ?_, l, r, packed, pad, hcount, hpack, ?_⟩
  · rwa [finish_res0, hres0]
  · rw [finish_res0, hres0]
    exact memRead_storeDst s _

/-- Settles O41: R325. COMPRESS leaves a stream whose records parse back to its tree (R246) and whose packed
bytes unpack to the input (R277), so DECOMPRESS passes every check and stores the input. -/
theorem decompressInvertsCompress : Obligations.DecompressInvertsCompress := by
  unfold Obligations.DecompressInvertsCompress
  intro s t o d c hcompress herr hrange hcap hdisjoint
  obtain ⟨hcfg, hsrc, l, r, packed, pad, hnodes, hpack, hstream⟩ := compress_leaves_stream hcompress herr
  have hsize : t.dmemSize = s.dmemSize := dmemSize_congr hcfg
  have hparse : parse (HTree.node l r).records = .ok (.node l r) := parse_records (by omega)
  obtain ⟨-, hunpack⟩ := unpackInvertsPack l r s.srcBytes packed pad hpack
  rw [srcBytes_length] at hunpack
  have hexec := exec_decompress_of_stream (s := { t with src := s.dst, slen := t.res0, dst := d, dcap := c })
    (hsize ▸ hsrc) hstream (records_length (HTree.node l r) ▸ hnodes) hparse
    (checkDst_eq_ok.2 ⟨hsize ▸ hrange, hcap, hdisjoint⟩) hunpack
  have hlength : 5 + 4 * (HTree.node l r).records.length + packed.length = t.res0.toNat := by
    rw [← stream_length _ s.slen, ← hstream, memRead_length]
  refine ⟨_, hexec, rfl, rfl, ?bytes, fun a ha => ?frame, ?res0, ?res1⟩
  case bytes =>
    rw [← srcBytes_length]
    exact memRead_storeDst _ s.srcBytes
  case frame =>
    rw [← srcBytes_length] at ha
    exact storeDst_dmem_out _ _ ha
  case res0 => rw [finish_res0, BitVec.ofNat_toNat, BitVec.setWidth_eq]
  case res1 => rw [finish_res1, hlength, BitVec.ofNat_toNat, BitVec.setWidth_eq]

end Sys2Proof.Machine
end

section
/-! PROOFS. The words of R111 and V31, and which agent makes a step (spec/30_encoding.md R110 to R114;
spec/40_command.md R151, R156; spec/60_exceptions.md R359). -/

namespace Sys2Proof.Machine

/-- Settles O2: R111, R112. A command's word has the command's fields, and the three fields are the whole word. -/
theorem decodeEncodeAgree : Obligations.DecodeEncodeAgree := by
  unfold Obligations.DecodeEncodeAgree
  exact ⟨fun i _ => decode_encode i, fun _ _ => eq_encode_of_decode⟩

/-- Settles O3: the legal words are encodings, and V31's words fail by their fields. -/
theorem specWordsDecode : Obligations.SpecWordsDecode := by
  unfold Obligations.SpecWordsDecode
  exact ⟨decode_encode .nop, decode_encode .histAcc, decode_encode .build, decode_encode .genCodes,
    decode_encode .serialize, decode_encode .pack, decode_encode .optimize, decode_encode .compress,
    decode_encode .compressO, decode_encode .decompress, by decide⟩

/-- R156: the core moves with a command in flight and no host step left before its completion. -/
theorem coreTurn_iff (s : State) : coreTurn s = true ↔ s.busy = true ∧ (s.delay = 0 ∨ s.host = []) := by
  simp only [coreTurn, Bool.and_eq_true, Bool.or_eq_true, decide_eq_true_iff, List.isEmpty_iff]

theorem step_of_coreTurn {s : State} (h : coreTurn s = true) : step s = complete s := if_pos h

theorem step_of_hostTurn {s : State} (h : coreTurn s = false) : step s = .next (hostTurn s) :=
  if_neg (Bool.eq_false_iff.1 h)

theorem complete_of_decode {s : State} {i : Instr} (h : decode s.cmd = .ok i) : complete s = exec i s := by
  rw [complete, h]

/-- Settles O4: R151, R156. -/
theorem stepRunsTheDecodedCommand : Obligations.StepRunsTheDecodedCommand := by
  unfold Obligations.StepRunsTheDecodedCommand
  refine ⟨coreTurn_iff, fun s i hturn hdecode _ => ?_, fun s hturn => step_of_hostTurn hturn⟩
  rw [step_of_coreTurn hturn, complete_of_decode hdecode]

/-- R359: ILLEGAL_CMD reports the word, which always fits ERRINFO. -/
@[simp] theorem infoWord_illegalCmd (w : Word) : (CmdErr.illegalCmd w).infoWord = w := by
  have hfits : (CmdErr.illegalCmd w).info < 2 ^ 32 := w.isLt
  rw [infoWord_of_fits hfits, CmdErr.info, BitVec.ofNat_toNat, BitVec.setWidth_eq]

/-- R113, R114: the completion of an illegal word raises ILLEGAL_CMD. -/
theorem complete_of_illegal {s : State} (h : WellFormed.legalWord s.cmd = false) :
    complete s = .next (raise (.illegalCmd s.cmd) s) := by
  obtain ⟨e, he⟩ := exists_error_of_illegal h
  rw [complete, he]

/-- Settles O5: R359, with `raise` written out by R351. -/
theorem illegalWordRaisesIllegalCmd : Obligations.IllegalWordRaisesIllegalCmd := by
  unfold Obligations.IllegalWordRaisesIllegalCmd
  intro s hturn hillegal
  rw [step_of_coreTurn hturn, complete_of_illegal hillegal, raise_eq_failed, infoWord_illegalCmd, CmdErr.code]

end Sys2Proof.Machine
end

section
/-! PROOFS. What a completion step can do: the errors each command ends in, the updates a success makes, and
the frames that follow (spec/40_command.md R151 to R157; spec/60_exceptions.md R351, R352, R368). -/

namespace Sys2Proof.Machine

/-! ### The commands by their pseudocode (R156) -/

/-- R156: the pseudocode of each command. -/
def commandOf : Instr → State → Cmd Completion
  | .nop, s => .ok ⟨s, 0, 0, 0⟩
  | .histClear, s => .ok ⟨{ s with hist := emptyHist }, 0, 0, 0⟩
  | .histAcc, s => histAccCmd s
  | .build, s => buildStoreCmd s
  | .genCodes, s => genCodesCmd s
  | .serialize, s => serializeCmd s
  | .deserialize, s => deserializeCmd s
  | .pack, s => packCmd s
  | .unpack, s => unpackCmd s
  | .optimize, s => optimizeCmd s
  | .compress, s => compressCmd false s
  | .compressO, s => compressCmd true s
  | .decompress, s => decompressCmd s

/-- R156: every command is its pseudocode, ended in `finish` or in `raise`. -/
theorem exec_eq_conclude (i : Instr) (s : State) : exec i s = conclude s (commandOf i s) := by
  cases i <;> rfl

/-! ### The errors of a command (R352, R368) -/

/-- Every way in which a piece of pseudocode ends early has the property `P`. -/
def FailsOnly {α : Type} (P : Stop → Prop) (c : Cmd α) : Prop := ∀ x, c = .error x → P x

section
variable {α β : Type} {P : Stop → Prop} {s : State}

theorem failsOnly_ok (a : α) : FailsOnly P (.ok a : Cmd α) := fun _ h => by cases h

theorem failsOnly_raiseErr {e : CmdErr} (h : P (.raised e)) : FailsOnly P (raiseErr e : Cmd α) := by
  intro x hx
  cases hx
  exact h

theorem failsOnly_bind {c : Cmd α} {f : α → Cmd β} (hc : FailsOnly P c)
    (hf : ∀ a, c = .ok a → FailsOnly P (f a)) : FailsOnly P (c >>= f) := by
  intro x hx
  obtain hx | ⟨a, ha, hx⟩ := cmd_bind_eq_error.1 hx
  · exact hc x hx
  · exact hf a ha x hx

theorem failsOnly_raiseIf {c : Bool} {e : CmdErr} (h : c = true → P (.raised e)) : FailsOnly P (raiseIf c e) := by
  intro x hx
  obtain ⟨hc, rfl⟩ := raiseIf_eq_error.1 hx
  exact h hc

theorem failsOnly_checkSrc {n : Nat} (h : P (.raised (.range .source))) : FailsOnly P (checkSrc s n) :=
  failsOnly_raiseIf fun _ => h

theorem failsOnly_checkDst {m n : Nat} (hr : P (.raised (.range .destination))) (hf : P (.raised (.dstFull m)))
    (ho : overlap s.src.toNat n s.dst.toNat m = true → P (.raised .overlap)) : FailsOnly P (checkDst s m n) :=
  failsOnly_bind (failsOnly_raiseIf fun _ => hr) fun _ _ =>
    failsOnly_bind (failsOnly_raiseIf fun _ => hf) fun _ _ => failsOnly_raiseIf ho

theorem failsOnly_needTree (h : P (.raised .noTree)) : FailsOnly P (needTree s) := by
  unfold needTree
  split
  · exact failsOnly_raiseErr h
  · exact failsOnly_ok _

theorem failsOnly_needCodes (h : P (.raised .noCodes)) : FailsOnly P (needCodes s) := by
  unfold needCodes
  split
  · exact failsOnly_raiseErr h
  · exact failsOnly_ok _

theorem failsOnly_buildCmd {h : SymTable Word} (he : P (.raised .emptyInput)) : FailsOnly P (buildCmd h) := by
  unfold buildCmd
  split
  · exact failsOnly_raiseErr he
  · exact failsOnly_ok _

theorem failsOnly_treeOf {recs : List NodeRec}
    (h : (∀ t, parse recs ≠ .ok t) → P (.faulted .treeStoreInvalid)) : FailsOnly P (treeOf recs) := by
  intro x hx
  unfold treeOf at hx
  split at hx
  · cases hx
  · next hp =>
    cases hx
    exact h fun t ht => by simp [hp] at ht

theorem failsOnly_parseCmd {recs : List NodeRec} (h : ∀ i, P (.raised (.malformedTree i))) :
    FailsOnly P (parseCmd recs) := by
  unfold parseCmd
  split
  · exact failsOnly_ok _
  · exact failsOnly_raiseErr (h _)

theorem failsOnly_encodeFrom {tab : SymTable Bits} {data : List Byte} (h : ∀ i, P (.raised (.noCode i))) (i : Nat) :
    FailsOnly P (encodeFrom tab i data) := by
  induction data generalizing i with
  | nil => exact failsOnly_ok _
  | cons b data ih =>
    unfold encodeFrom
    split
    · exact failsOnly_raiseErr (h i)
    · exact failsOnly_bind (ih (i + 1)) fun _ _ => failsOnly_ok _

theorem failsOnly_packbits {tab : SymTable Bits} {data : List Byte} (h : ∀ i, P (.raised (.noCode i))) :
    FailsOnly P (packbits data tab) :=
  failsOnly_bind (failsOnly_encodeFrom h 0) fun _ _ => failsOnly_ok _

theorem failsOnly_decodeFrom {t : HTree} (h : ∀ k, P (.raised (.truncatedStream k))) (n k : Nat) (bs : Bits) :
    FailsOnly P (decodeFrom t n k bs) := by
  induction n generalizing k bs with
  | zero => exact failsOnly_ok _
  | succ n ih =>
    unfold decodeFrom
    split
    · exact failsOnly_raiseErr (h k)
    · exact failsOnly_bind (ih _ _) fun _ _ => failsOnly_ok _

theorem failsOnly_unpackbits {t : HTree} {bytes : List Byte} {n : Nat} (h : ∀ k, P (.raised (.truncatedStream k))) :
    FailsOnly P (unpackbits t bytes n) :=
  failsOnly_bind (failsOnly_decodeFrom h n 0 _) fun _ _ => failsOnly_ok _

theorem failsOnly_optimize {t : HTree} {h : SymTable Word} (hm : ∀ x, P (.raised (.symsetMismatch x))) :
    FailsOnly P (optimize t h) := by
  unfold optimize
  dsimp only
  split
  · exact failsOnly_raiseErr (hm _)
  · split
    · exact failsOnly_ok _
    · split
      · exact failsOnly_raiseErr (hm _)
      · exact failsOnly_ok _

end

/-- R304, R321: after the builder the optimizer, used or not, cannot fail. -/
theorem optimizeIf_build_isOk {h : SymTable Word} {t0 : HTree} (o : Bool) (ht : build h = some t0) :
    ∃ t, optimizeIf o t0 h = .ok t := by
  cases o with
  | false => exact ⟨t0, rfl⟩
  | true =>
    obtain ⟨-, hsyms, -⟩ := build_eq_some ht
    obtain ⟨t, n, ho⟩ := optimize_isOk hsyms (optimize_build_symbols ht)
    exact ⟨t, by simp only [optimizeIf, if_true, ho, cmd_bind_ok]⟩

/-- R206, R321: the tree of COMPRESS has at most 255 records. -/
theorem compress_records_le {o : Bool} {h : SymTable Word} {t0 t : HTree} (ht : build h = some t0)
    (ho : optimizeIf o t0 h = .ok t) : t.records.length ≤ 255 := by
  rw [records_length, optimizeIf_nodes ho]
  exact (build_nodes ht).2

/-- R302, R321: the optimizer, used or not, keeps the symbols on the leaves. -/
theorem optimizeIf_leafSyms {o : Bool} {t0 t : HTree} {h : SymTable Word} (ho : optimizeIf o t0 h = .ok t) :
    t.leafSyms.Perm t0.leafSyms := by
  cases o with
  | false => cases ho; rfl
  | true =>
    obtain ⟨⟨t', n⟩, hopt, hok⟩ := cmd_bind_eq_ok.1 ho
    cases hok
    exact (optimize_shape hopt).2.2

/-- R321: every byte of COMPRESS's input is on a leaf of its tree, so packing cannot fail. -/
theorem compress_packbits_isOk {o : Bool} {data : List Byte} {t0 t : HTree} (hlen : data.length < 2 ^ 32)
    (ht : build (histOf data) = some t0) (ho : optimizeIf o t0 (histOf data) = .ok t) :
    ∃ packed pad, packbits data t.codes = .ok (packed, pad) := by
  obtain ⟨-, hsyms, -⟩ := build_eq_some ht
  have hroot : 1 ≤ t.nodes := optimizeIf_nodes ho ▸ (build_nodes ht).1
  obtain ⟨l, r, rfl⟩ := HTree.exists_node_of_nodes hroot
  refine ⟨_, _, packbits_eq_ok.2 ⟨fun b hb => codes_ne_nil_iff.2 ?_, rfl, rfl⟩⟩
  rw [(optimizeIf_leafSyms ho).mem_iff, hsyms, histOf_ne_zero hlen]
  exact hb

/-- How a command of the state `s` may end early: in one of its own errors, HEADER_OVERFLOW only where the tree
store holds more than 255 records; or in the fault, only where the tree store is no tree's list. -/
def EarlyEnd (i : Instr) (s : State) : Stop → Prop
  | .raised e => e.code ∈ errCodesOf i ∧ ∀ n, e = .headerOverflow n → ∃ recs, s.tree = some recs ∧ 255 < recs.length
  | .faulted _ => ∃ recs, s.tree = some recs ∧ ∀ t, parse recs ≠ .ok t

/-- R352: an error whose code is one of the command's own and not HEADER_OVERFLOW's. -/
theorem earlyEnd_raised {i : Instr} {s : State} {e : CmdErr} (c : Byte) (he : e.code = c)
    (h : c ∈ errCodesOf i ∧ c ≠ 0x05) : EarlyEnd i s (.raised e) := by
  subst he
  exact ⟨h.1, fun n hn => absurd (congrArg CmdErr.code hn) h.2⟩

theorem failsOnly_of_eq_ok {α : Type} {P : Stop → Prop} {c : Cmd α} {a : α} (h : c = .ok a) : FailsOnly P c :=
  h ▸ failsOnly_ok a

/-- R321, R368: in COMPRESS the optimizer, HEADER_OVERFLOW's check and the packing always pass. -/
theorem compressCmd_failsOnly {P : Stop → Prop} {s : State} (o : Bool)
    (own : ∀ (c : Byte) {e : CmdErr}, e.code = c → c ∈ errCodesOf .compress ∧ c ≠ 0x05 → P (.raised e)) :
    FailsOnly P (compressCmd o s) := by
  refine failsOnly_bind (failsOnly_checkSrc (own 0x11 rfl (by decide))) fun _ _ =>
    failsOnly_bind (failsOnly_raiseIf fun _ => own 0x01 rfl (by decide)) fun _ _ =>
    failsOnly_bind (failsOnly_buildCmd (own 0x01 rfl (by decide))) fun t0 ht0 => ?_
  have hbuild := buildCmd_eq_ok.1 ht0
  obtain ⟨t', ht'⟩ := optimizeIf_build_isOk o hbuild
  refine failsOnly_bind (failsOnly_of_eq_ok ht') fun t ht =>
    failsOnly_bind (failsOnly_raiseIf fun hover => ?_) fun _ _ => ?_
  · exact absurd (of_decide_eq_true hover) (Nat.not_lt.2 (compress_records_le hbuild ht))
  · have hlen : s.srcBytes.length < 2 ^ 32 := srcBytes_length s ▸ s.slen.isLt
    obtain ⟨packed, pad, hpack⟩ := compress_packbits_isOk hlen hbuild ht
    exact failsOnly_bind (failsOnly_of_eq_ok hpack) fun _ _ =>
      failsOnly_bind (failsOnly_checkDst (own 0x11 rfl (by decide)) (own 0x12 rfl (by decide))
        fun _ => own 0x13 rfl (by decide)) fun _ _ => failsOnly_ok _

/-- R241, R368: SERIALIZE stores from no source, so its destination overlaps nothing. -/
theorem not_overlap_noSource {a b m : Nat} : overlap a 0 b m ≠ true := by simp [overlap]

/-- R368: the early ends of a command are its own, check by check. -/
theorem commandOf_failsOnly (i : Instr) (s : State) : FailsOnly (EarlyEnd i s) (commandOf i s) := by
  cases i with
  | nop => exact failsOnly_ok _
  | histClear => exact failsOnly_ok _
  | histAcc =>
    refine failsOnly_bind (failsOnly_checkSrc (earlyEnd_raised 0x11 rfl (by decide))) fun _ _ => ?_
    dsimp only
    split
    · exact failsOnly_raiseErr (earlyEnd_raised 0x17 rfl (by decide))
    · exact failsOnly_ok _
  | build =>
    refine failsOnly_bind (failsOnly_buildCmd (earlyEnd_raised 0x01 rfl (by decide))) fun t ht =>
      failsOnly_bind (failsOnly_raiseIf fun hover => ?_) fun _ _ => failsOnly_ok _
    obtain ⟨-, hmax, -⟩ := build_records (buildCmd_eq_ok.1 ht)
    exact absurd (of_decide_eq_true hover) (Nat.not_lt.2 hmax)
  | genCodes =>
    exact failsOnly_bind (failsOnly_needTree (earlyEnd_raised 0x14 rfl (by decide))) fun recs hrecs =>
      failsOnly_bind (failsOnly_treeOf fun h => ⟨recs, needTree_eq_ok.1 hrecs, h⟩) fun _ _ => failsOnly_ok _
  | serialize =>
    refine failsOnly_bind (failsOnly_needTree (earlyEnd_raised 0x14 rfl (by decide))) fun recs hrecs =>
      failsOnly_bind (failsOnly_raiseIf fun hover => ?_) fun _ _ =>
      failsOnly_bind (failsOnly_checkDst (earlyEnd_raised 0x11 rfl (by decide))
        (earlyEnd_raised 0x12 rfl (by decide)) fun ho => absurd ho not_overlap_noSource) fun _ _ => failsOnly_ok _
    have hcode : (0x05 : Byte) ∈ errCodesOf .serialize := by decide
    exact ⟨hcode, fun _ _ => ⟨recs, needTree_eq_ok.1 hrecs, of_decide_eq_true hover⟩⟩
  | deserialize =>
    exact failsOnly_bind (failsOnly_checkSrc (earlyEnd_raised 0x11 rfl (by decide))) fun _ _ =>
      failsOnly_bind (failsOnly_raiseIf fun _ => earlyEnd_raised 0x18 rfl (by decide)) fun _ _ =>
      failsOnly_bind (failsOnly_raiseIf fun _ => earlyEnd_raised 0x18 rfl (by decide)) fun _ _ =>
      failsOnly_bind (failsOnly_parseCmd fun _ => earlyEnd_raised 0x04 rfl (by decide)) fun _ _ => failsOnly_ok _
  | pack =>
    exact failsOnly_bind (failsOnly_needCodes (earlyEnd_raised 0x15 rfl (by decide))) fun _ _ =>
      failsOnly_bind (failsOnly_checkSrc (earlyEnd_raised 0x11 rfl (by decide))) fun _ _ =>
      failsOnly_bind (failsOnly_packbits fun _ => earlyEnd_raised 0x16 rfl (by decide)) fun _ _ =>
      failsOnly_bind (failsOnly_checkDst (earlyEnd_raised 0x11 rfl (by decide))
        (earlyEnd_raised 0x12 rfl (by decide)) fun _ => earlyEnd_raised 0x13 rfl (by decide)) fun _ _ =>
      failsOnly_ok _
  | unpack =>
    exact failsOnly_bind (failsOnly_needTree (earlyEnd_raised 0x14 rfl (by decide))) fun recs hrecs =>
      failsOnly_bind (failsOnly_checkSrc (earlyEnd_raised 0x11 rfl (by decide))) fun _ _ =>
      failsOnly_bind (failsOnly_checkDst (earlyEnd_raised 0x11 rfl (by decide))
        (earlyEnd_raised 0x12 rfl (by decide)) fun _ => earlyEnd_raised 0x13 rfl (by decide)) fun _ _ =>
      failsOnly_bind (failsOnly_treeOf fun h => ⟨recs, needTree_eq_ok.1 hrecs, h⟩) fun _ _ =>
      failsOnly_bind (failsOnly_unpackbits fun _ => earlyEnd_raised 0x03 rfl (by decide)) fun _ _ => failsOnly_ok _
  | optimize =>
    exact failsOnly_bind (failsOnly_needTree (earlyEnd_raised 0x14 rfl (by decide))) fun recs hrecs =>
      failsOnly_bind (failsOnly_treeOf fun h => ⟨recs, needTree_eq_ok.1 hrecs, h⟩) fun _ _ =>
      failsOnly_bind (failsOnly_optimize fun _ => earlyEnd_raised 0x02 rfl (by decide)) fun _ _ => failsOnly_ok _
  | compress => exact compressCmd_failsOnly false fun c _ he h => earlyEnd_raised c he h
  | compressO => exact compressCmd_failsOnly true fun c _ he h => earlyEnd_raised c he h
  | decompress =>
    exact failsOnly_bind (failsOnly_checkSrc (earlyEnd_raised 0x11 rfl (by decide))) fun _ _ =>
      failsOnly_bind (failsOnly_raiseIf fun _ => earlyEnd_raised 0x18 rfl (by decide)) fun _ _ =>
      failsOnly_bind (failsOnly_raiseIf fun _ => earlyEnd_raised 0x18 rfl (by decide)) fun _ _ =>
      failsOnly_bind (failsOnly_parseCmd fun _ => earlyEnd_raised 0x04 rfl (by decide)) fun _ _ =>
      failsOnly_bind (failsOnly_checkDst (earlyEnd_raised 0x11 rfl (by decide))
        (earlyEnd_raised 0x12 rfl (by decide)) fun _ => earlyEnd_raised 0x13 rfl (by decide)) fun _ _ =>
      failsOnly_bind (failsOnly_unpackbits fun _ => earlyEnd_raised 0x03 rfl (by decide)) fun _ _ => failsOnly_ok _

/-! ### The updates of a success (R157) -/

/-- R46, R181, R182, R321: the commands that write HIST. -/
def writesHist : Instr → Bool
  | .histClear | .histAcc | .compress | .compressO => true
  | .nop | .build | .genCodes | .serialize | .deserialize | .pack | .unpack | .optimize | .decompress => false

/-- R44: the commands that write TREE. -/
def writesTree : Instr → Bool
  | .build | .deserialize | .optimize | .compress | .compressO | .decompress => true
  | .nop | .histClear | .histAcc | .genCodes | .serialize | .pack | .unpack => false

/-- R46: the commands that write CODE. -/
def writesCode : Instr → Bool
  | .build | .genCodes | .deserialize | .optimize | .compress | .compressO | .decompress => true
  | .nop | .histClear | .histAcc | .serialize | .pack | .unpack => false

/-- R89: the commands that store to DMEM. -/
def writesDmem : Instr → Bool
  | .serialize | .pack | .unpack | .compress | .compressO | .decompress => true
  | .nop | .histClear | .histAcc | .build | .genCodes | .deserialize | .optimize => false

/-- The updates that the success `k` of a command makes: the bytes `out`, RES0 of them, stored at DST, inside DMEM
and within DCAP; and HIST, TREE and CODE, each by the commands that write it. -/
structure Updates (i : Instr) (s : State) (out : List Byte) (k : Completion) : Prop where
  state : k.state = { s.storeDst out with hist := k.state.hist, tree := k.state.tree, code := k.state.code }
  length : out.length = k.r0
  stored : out = [] ∨ s.dst.toNat + out.length ≤ s.dmemSize ∧ out.length ≤ s.dcap.toNat
  dmem : writesDmem i = false → out = []
  hist : writesHist i = false → k.state.hist = s.hist
  tree : writesTree i = false → k.state.tree = s.tree
  code : writesCode i = false → k.state.code = s.code

/-- R155: what a passed `checkDst` says of the bytes then stored. -/
theorem stored_of_checkDst {s : State} {out : List Byte} {n : Nat} {u : Unit}
    (h : checkDst s out.length n = .ok u) :
    out = [] ∨ s.dst.toNat + out.length ≤ s.dmemSize ∧ out.length ≤ s.dcap.toNat := by
  obtain ⟨hr, hc, -⟩ := checkDst_eq_ok.1 h
  exact .inr ⟨hr, hc⟩

/-- R157: every success makes the command's own updates. -/
theorem commandOf_updates {i : Instr} {s : State} {k : Completion} (h : commandOf i s = .ok k) :
    ∃ out, Updates i s out k := by
  cases i with
  | nop =>
    cases h
    exact ⟨[], rfl, rfl, .inl rfl, fun _ => rfl, fun _ => rfl, fun _ => rfl, fun _ => rfl⟩
  | histClear =>
    cases h
    exact ⟨[], rfl, rfl, .inl rfl, fun _ => rfl, nofun, fun _ => rfl, fun _ => rfl⟩
  | histAcc =>
    obtain ⟨-, -, rfl⟩ := histAccCmd_eq_ok h
    exact ⟨[], rfl, rfl, .inl rfl, fun _ => rfl, nofun, fun _ => rfl, fun _ => rfl⟩
  | build =>
    obtain ⟨t, -, -, rfl⟩ := buildStoreCmd_eq_ok h
    exact ⟨[], rfl, rfl, .inl rfl, fun _ => rfl, fun _ => rfl, nofun, nofun⟩
  | genCodes =>
    obtain ⟨recs, t, -, -, rfl⟩ := genCodesCmd_eq_ok h
    exact ⟨[], rfl, rfl, .inl rfl, fun _ => rfl, fun _ => rfl, fun _ => rfl, nofun⟩
  | serialize =>
    obtain ⟨recs, -, -, hd, rfl⟩ := serializeCmd_eq_ok h
    rw [← image_length] at hd
    exact ⟨image recs, rfl, image_length recs, stored_of_checkDst hd, nofun, fun _ => rfl, fun _ => rfl, fun _ => rfl⟩
  | deserialize =>
    obtain ⟨n, recs, t, -, -, -, -, -, rfl⟩ := deserializeCmd_eq_ok h
    exact ⟨[], rfl, rfl, .inl rfl, fun _ => rfl, fun _ => rfl, nofun, nofun⟩
  | pack =>
    obtain ⟨tab, out, pad, -, -, -, hd, rfl⟩ := packCmd_eq_ok h
    exact ⟨out, rfl, rfl, stored_of_checkDst hd, nofun, fun _ => rfl, fun _ => rfl, fun _ => rfl⟩
  | unpack =>
    obtain ⟨recs, t, out, used, consumed, -, -, -, hd, hu, rfl⟩ := unpackCmd_eq_ok h
    have hlen := unpackbits_length hu
    rw [← hlen] at hd
    exact ⟨out, rfl, hlen, stored_of_checkDst hd, nofun, fun _ => rfl, fun _ => rfl, fun _ => rfl⟩
  | optimize =>
    obtain ⟨recs, t, t', n, -, -, -, rfl⟩ := optimizeCmd_eq_ok h
    exact ⟨[], rfl, rfl, .inl rfl, fun _ => rfl, fun _ => rfl, nofun, nofun⟩
  | compress | compressO =>
    obtain ⟨t0, t, packed, pad, -, -, -, -, -, -, hd, rfl⟩ := compressCmd_eq_ok h
    exact ⟨_, rfl, rfl, stored_of_checkDst hd, nofun, nofun, nofun, nofun⟩
  | decompress =>
    obtain ⟨n, recs, t, l, out, used, consumed, -, -, -, -, -, -, hd, hu, rfl⟩ := decompressCmd_eq_ok h
    have hlen := unpackbits_length hu
    rw [← hlen] at hd
    exact ⟨out, rfl, hlen, stored_of_checkDst hd, nofun, fun _ => rfl, nofun, nofun⟩

/-- R156: what a completion step that goes on answers: the old state with an error of the command's own, or the
command's updates and `finish`. -/
theorem exec_next_cases {i : Instr} {s t : State} (h : exec i s = .next t) :
    (∃ e, EarlyEnd i s (.raised e) ∧ t = raise e s) ∨
    (∃ k out, commandOf i s = .ok k ∧ Updates i s out k ∧ t = finish k.state k.r0 k.r1 k.r2) := by
  rw [exec_eq_conclude] at h
  obtain ⟨e, he, rfl⟩ | ⟨k, hk, rfl⟩ := conclude_next h
  · exact .inl ⟨e, commandOf_failsOnly i s _ he, rfl⟩
  · obtain ⟨out, hu⟩ := commandOf_updates hk
    exact .inr ⟨k, out, hk, hu, rfl⟩

/-- Settles O7: R156. No error has the code 0. -/
theorem completionFinishesOrRaises : Obligations.CompletionFinishesOrRaises := by
  unfold Obligations.CompletionFinishesOrRaises
  intro i s t h
  obtain ⟨e, -, rfl⟩ | ⟨k, out, -, hu, rfl⟩ := exec_next_cases h
  · exact .inl ⟨e.code, e.infoWord, e.code_ne_zero, raise_eq_failed e s⟩
  · refine .inr ⟨BitVec.ofNat 32 k.r0, BitVec.ofNat 32 k.r1, BitVec.ofNat 32 k.r2, ?_⟩
    rw [finish_eq_succeeded, hu.state]
    rfl

/-- R352: 0 stands for success in every command's row. -/
theorem zero_mem_errCodesOf (i : Instr) : (0 : Byte) ∈ errCodesOf i := by cases i <;> decide

/-- Settles O8: R352, R368. -/
theorem commandsRaiseOnlyTheirErrors : Obligations.CommandsRaiseOnlyTheirErrors := by
  unfold Obligations.CommandsRaiseOnlyTheirErrors
  intro i s t h
  obtain ⟨e, ⟨hcode, -⟩, rfl⟩ | ⟨k, out, -, -, rfl⟩ := exec_next_cases h
  · exact hcode
  · exact zero_mem_errCodesOf i

/-! ### Frames -/

theorem commandKeeps_raise (e : CmdErr) (s : State) : CommandKeeps s (raise e s) := by
  constructor <;> rfl

theorem Updates.commandKeeps {i : Instr} {s : State} {out : List Byte} {k : Completion} (h : Updates i s out k)
    (r0 r1 r2 : Nat) : CommandKeeps s (finish k.state r0 r1 r2) := by
  rw [h.state]
  constructor <;> rfl

/-- R13: what a success leaves in DMEM is what it stored. -/
theorem Updates.dmem_eq {i : Instr} {s : State} {out : List Byte} {k : Completion} (h : Updates i s out k)
    (r0 r1 r2 : Nat) : (finish k.state r0 r1 r2).dmem = (s.storeDst out).dmem := by
  rw [h.state]
  exact dmem_congr rfl rfl

theorem storeDst_nil (s : State) : s.storeDst [] = s := rfl

/-- What every completion step keeps: what no command changes, and each array the command does not write. -/
theorem exec_frame {i : Instr} {s t : State} (h : exec i s = .next t) :
    CommandKeeps s t ∧ (writesHist i = false → t.hist = s.hist) ∧ (writesTree i = false → t.tree = s.tree) ∧
      (writesCode i = false → t.code = s.code) ∧ (writesDmem i = false → t.dmem = s.dmem) := by
  obtain ⟨e, -, rfl⟩ | ⟨k, out, -, hu, rfl⟩ := exec_next_cases h
  · exact ⟨commandKeeps_raise e s, fun _ => rfl, fun _ => rfl, fun _ => rfl, fun _ => dmem_congr rfl rfl⟩
  · refine ⟨hu.commandKeeps _ _ _, hu.hist, hu.tree, hu.code, fun hw => ?_⟩
    rw [hu.dmem_eq, hu.dmem hw, storeDst_nil]

/-- Settles O9: R157 and each command's own listed updates. -/
theorem nonStoringCommandsFrame : Obligations.NonStoringCommandsFrame := by
  unfold Obligations.NonStoringCommandsFrame
  intro i s t hi h
  obtain ⟨hkeeps, hhist, htree, hcode, hdmem⟩ := exec_frame h
  refine ⟨hkeeps, congrFun (hdmem ?_), fun hni => hhist ?_, fun hni => htree ?_, fun hni => hcode ?_⟩
  · revert hi
    cases i <;> decide
  · revert hi hni
    cases i <;> decide
  · revert hi hni
    cases i <;> decide
  · revert hi hni
    cases i <;> decide

/-- R155, R157: RES0 holds the number of bytes that a success stored, which DCAP bounds. -/
theorem Updates.r0_toNat {i : Instr} {s : State} {out : List Byte} {k : Completion} (h : Updates i s out k) :
    (BitVec.ofNat 32 k.r0).toNat = out.length := by
  have hfits : out.length < 2 ^ 32 := by
    obtain rfl | ⟨-, hcap⟩ := h.stored
    · exact Nat.two_pow_pos 32
    · exact hcap.trans_lt s.dcap.isLt
  rw [← h.length, BitVec.toNat_ofNat, Nat.mod_eq_of_lt hfits]

/-- R157, R351: outside the RES0 bytes from DST on a success leaves every byte of DMEM, and an error leaves all. -/
theorem exec_dmem_frame {i : Instr} {s t : State} (h : exec i s = .next t) {a : Nat}
    (ha : t.errCode ≠ 0 ∨ a < s.dst.toNat ∨ s.dst.toNat + t.res0.toNat ≤ a) : t.dmem a = s.dmem a := by
  obtain ⟨e, -, rfl⟩ | ⟨k, out, -, hu, rfl⟩ := exec_next_cases h
  · exact congrFun (dmem_congr rfl rfl) a
  · rw [finish_res0, hu.r0_toNat] at ha
    rw [hu.dmem_eq]
    exact storeDst_dmem_out s out (ha.resolve_left fun hne => hne rfl)

/-- Settles O10: R157 and each command's own listed updates. -/
theorem storingCommandsFrame : Obligations.StoringCommandsFrame := by
  unfold Obligations.StoringCommandsFrame
  intro i s t hi h
  obtain ⟨hkeeps, hhist, htree, hcode, -⟩ := exec_frame h
  refine ⟨hkeeps, fun a ha => exec_dmem_frame h ha, fun hni => hhist ?_, fun hni => ⟨htree ?_, hcode ?_⟩⟩
  · revert hi hni
    cases i <;> decide
  · revert hi hni
    cases i <;> decide
  · revert hi hni
    cases i <;> decide

/-! ### No code table beside another tree (R46, R399) -/

/-- R46: a success, other than that of COMPRESS, keeps TREE or discards CODE. -/
theorem commandOf_tree_or_code {i : Instr} {s : State} {k : Completion} (hi : i ≠ .compress) (hi' : i ≠ .compressO)
    (h : commandOf i s = .ok k) : k.state.tree = s.tree ∨ k.state.code = none := by
  cases hw : writesTree i with
  | false =>
    obtain ⟨out, hu⟩ := commandOf_updates h
    exact .inl (hu.tree hw)
  | true =>
    refine .inr ?_
    cases i with
    | build =>
      obtain ⟨t, -, -, rfl⟩ := buildStoreCmd_eq_ok h
      rfl
    | deserialize =>
      obtain ⟨n, recs, t, -, -, -, -, -, rfl⟩ := deserializeCmd_eq_ok h
      rfl
    | optimize =>
      obtain ⟨recs, t, t', n, -, -, -, rfl⟩ := optimizeCmd_eq_ok h
      rfl
    | decompress =>
      obtain ⟨n, recs, t, l, out, used, consumed, -, -, -, -, -, -, -, -, rfl⟩ := decompressCmd_eq_ok h
      rfl
    | compress => exact absurd rfl hi
    | compressO => exact absurd rfl hi'
    | nop | histClear | histAcc | genCodes | serialize | pack | unpack => cases hw

/-- R273: PACK is its pseudocode, ended as every command (R156). -/
theorem exec_pack (s : State) : exec .pack s = conclude s (packCmd s) := rfl

/-- R364: without a code table, asking for it is NO_CODES. -/
theorem needCodes_of_none {s : State} (h : s.code = none) : needCodes s = raiseErr .noCodes := by
  rw [needCodes, h]

theorem exec_pack_of_noCodes {s : State} (h : s.code = none) : exec .pack s = .next (raise .noCodes s) := by
  rw [exec_pack, packCmd, needCodes_of_none h, cmd_bind_raiseErr, conclude_raiseErr]

/-- Settles O59: R46, R399. An error changes neither TREE nor CODE. -/
theorem treeChangeDiscardsTheCodeTable : Obligations.TreeChangeDiscardsTheCodeTable := by
  unfold Obligations.TreeChangeDiscardsTheCodeTable
  refine ⟨fun i s t hi hi' h hne => ?_, fun i s t hi h => ?_⟩
  · have hcode : t.code = none := by
      obtain ⟨e, -, rfl⟩ | ⟨k, out, hk, -, rfl⟩ := exec_next_cases h
      · exact absurd rfl hne
      · exact (commandOf_tree_or_code hi hi' hk).resolve_left hne
    exact ⟨hcode, next_failed_of_raise (exec_pack_of_noCodes hcode) (by decide)⟩
  · obtain ⟨-, -, htree, hcode, -⟩ := exec_frame h
    obtain rfl | rfl := hi
    · exact ⟨htree rfl, hcode rfl⟩
    · exact ⟨htree rfl, hcode rfl⟩

end Sys2Proof.Machine
end

section
/-! PROOFS. The invariant: the reset state meets it, every step keeps it, and no run from a state that meets it
stops (spec/10_state.md R35, R42 to R46, R48; spec/40_command.md R150; spec/60_exceptions.md R352, R357). -/

namespace Sys2Proof.Machine

/-- Settles O55: R391. -/
theorem resetStateIsGood : Obligations.ResetStateIsGood := by
  unfold Obligations.ResetStateIsGood
  exact ⟨by decide, Memory.nil_wf, nofun, nofun, nofun, by decide, nofun, by decide⟩

/-! ### The tree store and the code store after a command (R42 to R46) -/

/-- R43: a list that parses is not empty. -/
theorem treeStoreOk_of_parse {recs : List NodeRec} {t : HTree} (hmax : recs.length ≤ 255) (hp : parse recs = .ok t) :
    TreeStoreOk (some recs) := by
  obtain ⟨l, r, rfl⟩ := parse_isNode hp
  have hnodes : l.nodes + r.nodes + 1 = recs.length := nodes_of_parse hp
  rintro _ ⟨⟩
  exact ⟨by omega, hmax, _, hp⟩

theorem parse_records_of_nodes {t : HTree} (hmin : 1 ≤ t.nodes) (hmax : t.nodes ≤ 255) :
    parse t.records = .ok t := by
  obtain ⟨l, r, rfl⟩ := HTree.exists_node_of_nodes hmin
  exact parse_records (by omega)

theorem treeStoreOk_records {t : HTree} (hmin : 1 ≤ t.nodes) (hmax : t.nodes ≤ 255) :
    TreeStoreOk (some t.records) :=
  treeStoreOk_of_parse (records_length t ▸ hmax) (parse_records_of_nodes hmin hmax)

theorem codeStoreOk_none (tree : Option (List NodeRec)) : CodeStoreOk tree none := nofun

theorem codeStoreOk_codes {recs : List NodeRec} {t : HTree} (hp : parse recs = .ok t) :
    CodeStoreOk (some recs) (some t.codes) :=
  fun _ htab => ⟨recs, t, rfl, hp, (Option.some.inj htab).symm⟩

/-- R43: a stored list that parses is the list of a tree of 1 to 255 Nodes. -/
theorem TreeStoreOk.nodes {recs : List NodeRec} {t : HTree} (h : TreeStoreOk (some recs)) (hp : parse recs = .ok t) :
    1 ≤ t.nodes ∧ t.nodes ≤ 255 := by
  obtain ⟨hmin, hmax, -⟩ := h recs rfl
  rw [nodes_of_parse hp]
  exact ⟨hmin, hmax⟩

/-- R43, R46: a success leaves a tree's node list, and the code table of that tree or none. -/
theorem commandOf_keeps_stores {i : Instr} {s : State} {k : Completion} (htree : TreeStoreOk s.tree)
    (hcode : CodeStoreOk s.tree s.code) (h : commandOf i s = .ok k) :
    TreeStoreOk k.state.tree ∧ CodeStoreOk k.state.tree k.state.code := by
  cases i with
  | nop | histClear | histAcc | serialize | pack | unpack =>
    obtain ⟨out, hu⟩ := commandOf_updates h
    rw [hu.tree rfl, hu.code rfl]
    exact ⟨htree, hcode⟩
  | build =>
    obtain ⟨t, ht, -, rfl⟩ := buildStoreCmd_eq_ok h
    obtain ⟨hmin, hmax⟩ := build_nodes ht
    exact ⟨treeStoreOk_records hmin hmax, codeStoreOk_none _⟩
  | genCodes =>
    obtain ⟨recs, t, hrecs, hp, rfl⟩ := genCodesCmd_eq_ok h
    refine ⟨htree, ?_⟩
    dsimp only
    rw [hrecs]
    exact codeStoreOk_codes hp
  | deserialize =>
    obtain ⟨n, recs, t, rfl, rfl, -, -, hp, rfl⟩ := deserializeCmd_eq_ok h
    have hcount : (s.recordsAt (s.src.toNat + 1) (s.dmem s.src.toNat).toNat).length ≤ 255 := by
      simpa [State.recordsAt] using Nat.le_of_lt_succ (s.dmem s.src.toNat).isLt
    exact ⟨treeStoreOk_of_parse hcount hp, codeStoreOk_none _⟩
  | optimize =>
    obtain ⟨recs, t, t', n, hrecs, hp, ho, rfl⟩ := optimizeCmd_eq_ok h
    obtain ⟨hmin, hmax⟩ := (hrecs ▸ htree).nodes hp
    obtain ⟨hnodes, -⟩ := optimize_shape ho
    exact ⟨treeStoreOk_records (hnodes ▸ hmin) (hnodes ▸ hmax), codeStoreOk_none _⟩
  | compress | compressO =>
    obtain ⟨t0, t, packed, pad, -, -, hbuild, hopt, -, -, -, rfl⟩ := compressCmd_eq_ok h
    obtain ⟨hmin, hmax⟩ := build_nodes hbuild
    rw [← optimizeIf_nodes hopt] at hmin hmax
    exact ⟨treeStoreOk_records hmin hmax, codeStoreOk_codes (parse_records_of_nodes hmin hmax)⟩
  | decompress =>
    obtain ⟨n, recs, t, l, out, used, consumed, rfl, rfl, -, -, -, hp, -, -, rfl⟩ := decompressCmd_eq_ok h
    have hcount : (s.recordsAt (s.src.toNat + 1) (s.dmem s.src.toNat).toNat).length ≤ 255 := by
      simpa [State.recordsAt] using Nat.le_of_lt_succ (s.dmem s.src.toNat).isLt
    exact ⟨treeStoreOk_of_parse hcount hp, codeStoreOk_none _⟩

/-! ### The completion step keeps the invariant -/

/-- R352, R357: every code but HEADER_OVERFLOW's is one that ERRCODE may hold. -/
theorem code_mem_writtenErrCodes {e : CmdErr} (h : ∀ n, e ≠ .headerOverflow n) : e.code ∈ writtenErrCodes := by
  cases e with
  | headerOverflow n => exact absurd rfl (h n)
  | _ => simp [CmdErr.code, writtenErrCodes]

/-- R351: an error clears BUSY and, DONE being 0 while a command is in flight, leaves ERR alone at 1. -/
theorem raise_keeps_inv {s : State} {e : CmdErr} (hi : Inv s) (hbusy : s.busy = true)
    (he : ∀ n, e ≠ .headerOverflow n) : Inv (raise e s) := by
  obtain ⟨hdone, -⟩ := hi.busy hbusy
  refine ⟨hi.cfg, hi.mem, hi.memRange, hi.tree, hi.code, ?_, nofun, code_mem_writtenErrCodes he⟩
  simp [hdone]

/-- R43, R357: a tree store that keeps its invariant is too short for HEADER_OVERFLOW. -/
theorem EarlyEnd.ne_headerOverflow {i : Instr} {s : State} {e : CmdErr} (htree : TreeStoreOk s.tree)
    (h : EarlyEnd i s (.raised e)) (n : Nat) : e ≠ .headerOverflow n := by
  intro he
  obtain ⟨-, hover⟩ := h
  obtain ⟨recs, hrecs, hlen⟩ := hover n he
  obtain ⟨-, hmax, -⟩ := htree recs hrecs
  omega

/-- R48: what a success lists in memory lies inside DMEM. -/
theorem Updates.memRange {i : Instr} {s : State} {out : List Byte} {k : Completion} (h : Updates i s out k)
    (hrange : ∀ c ∈ s.mem, c.1 < s.dmemSize) : ∀ c ∈ s.mem.write s.dst.toNat out, c.1 < s.dmemSize := by
  intro c hc
  obtain hin | hold := Memory.mem_write hc
  · obtain rfl | ⟨hr, -⟩ := h.stored
    · exact hrange c hc
    · omega
  · exact hrange c hold

/-- R157: a success sets DONE and clears BUSY, ERR being 0 while a command is in flight. -/
theorem finish_keeps_inv {i : Instr} {s : State} {out : List Byte} {k : Completion} (hi : Inv s)
    (hbusy : s.busy = true) (hk : commandOf i s = .ok k) (hu : Updates i s out k) :
    Inv (finish k.state k.r0 k.r1 k.r2) := by
  obtain ⟨-, herr, -⟩ := hi.busy hbusy
  obtain ⟨htree, hcode⟩ := commandOf_keeps_stores hi.tree hi.code hk
  have hcfg : k.state.cfg = s.cfg := by rw [hu.state]; rfl
  have hmem : k.state.mem = s.mem.write s.dst.toNat out := by rw [hu.state]; rfl
  have hkerr : k.state.err = false := by rw [hu.state]; exact herr
  refine ⟨?_, ?_, ?_, htree, hcode, ?_, nofun, List.mem_cons_self⟩
  · rw [finish_cfg, hcfg]
    exact hi.cfg
  · rw [finish_mem, hmem]
    exact Memory.write_wf _ out hi.mem
  · rw [finish_mem, hmem, dmemSize_congr (s := s) (by rw [finish_cfg, hcfg])]
    exact hu.memRange hi.memRange
  · simp [hkerr]

theorem complete_keeps_inv {s t : State} (hi : Inv s) (hbusy : s.busy = true) (h : complete s = .next t) : Inv t := by
  obtain ⟨i, -, hexec⟩ | ⟨e, -, rfl⟩ := complete_cases h
  · obtain ⟨e, he, rfl⟩ | ⟨k, out, hk, hu, rfl⟩ := exec_next_cases hexec
    · exact raise_keeps_inv hi hbusy (he.ne_headerOverflow hi.tree)
    · exact finish_keeps_inv hi hbusy hk hu
  · exact raise_keeps_inv hi hbusy nofun

/-! ### The host's step keeps the invariant -/

/-- R150: issue clears the completion fields. -/
theorem issue_keeps_inv {s : State} (hi : Inv s) (w : Word) : Inv (issue s w) :=
  ⟨hi.cfg, hi.mem, hi.memRange, hi.tree, hi.code, by simp, fun _ => ⟨rfl, rfl, rfl, rfl, rfl, rfl, rfl⟩,
    List.mem_cons_self⟩

/-- R35: a write of STATUS clears flags only. -/
theorem clearFlags_keeps_inv {s : State} (hi : Inv s) (v : Word) : Inv (clearFlags s v) := by
  refine ⟨hi.cfg, hi.mem, hi.memRange, hi.tree, hi.code, fun ⟨hdone, herr⟩ => ?_, fun hbusy => ?_, hi.errCode⟩
  · rw [clearFlags_done, Bool.and_eq_true] at hdone
    rw [clearFlags_err, Bool.and_eq_true] at herr
    exact hi.flags ⟨hdone.1, herr.1⟩
  · obtain ⟨hdone, herr, hrest⟩ := hi.busy hbusy
    exact ⟨by rw [clearFlags_done, hdone, Bool.false_and], by rw [clearFlags_err, herr, Bool.false_and], hrest⟩

theorem writeReg_keeps_inv {s : State} (hi : Inv s) (r : Reg) (v : Word) : Inv (s.writeReg r v) := by
  cases r with
  | cmd => exact issue_keeps_inv hi v
  | status => exact clearFlags_keeps_inv hi v
  | _ => exact hi.congr rfl rfl rfl rfl rfl rfl rfl rfl rfl rfl rfl rfl

theorem refuseWrite_keeps_inv {s : State} (hi : Inv s) : Inv (refuseWrite s) :=
  hi.congr rfl rfl rfl rfl rfl rfl rfl rfl rfl rfl rfl rfl

theorem refuseRead_keeps_inv {s : State} (hi : Inv s) : Inv (refuseRead s) :=
  hi.congr rfl rfl rfl rfl rfl rfl rfl rfl rfl rfl rfl rfl

/-- R48: a write that lies inside DMEM keeps memory canonical and inside DMEM. -/
theorem write_keeps_inv {s : State} {a : Nat} {l : List Byte} (hi : Inv s) (hr : a + l.length ≤ s.dmemSize) :
    Inv { s with mem := s.mem.write a l } := by
  refine ⟨hi.cfg, Memory.write_wf a l hi.mem, fun c hc => ?_, hi.tree, hi.code, hi.flags, hi.busy, hi.errCode⟩
  change c.1 < s.dmemSize
  obtain hin | hold := Memory.mem_write hc
  · omega
  · exact hi.memRange c hold

/-- R391: every field that the invariant names but the OPEN parameters has its reset value. -/
theorem resetBlock_keeps_inv {s : State} (hi : Inv s) : Inv (resetBlock s) :=
  ⟨hi.cfg, Memory.nil_wf, nofun, nofun, nofun, by simp [resetBlock, State.reset], nofun, List.mem_cons_self⟩

theorem hostOp_keeps_inv {s : State} (hi : Inv s) (op : HostOp) : Inv (hostOp op s) := by
  cases op with
  | readReg off w =>
    obtain hrefused | ⟨r, -, -, hread⟩ := hostReadReg_cases s off w
    · rw [hostOp, hrefused]
      exact refuseRead_keeps_inv hi
    · rw [hostOp, hread, afterRead_eq]
      exact hi.congr rfl rfl rfl rfl rfl rfl rfl rfl rfl rfl rfl rfl
  | writeReg off w v =>
    obtain hrefused | ⟨r, -, -, hwrite⟩ := hostWriteReg_cases s off w v
    · rw [hostOp, hrefused]
      exact refuseWrite_keeps_inv hi
    · rw [hostOp, hwrite]
      exact writeReg_keeps_inv hi r v
  | readMem a w =>
    rw [hostOp, hostReadMem_frame]
    exact hi.congr rfl rfl rfl rfl rfl rfl rfl rfl rfl rfl rfl rfl
  | writeMem a w v =>
    obtain hrefused | ⟨-, -, hr, hwrite⟩ := hostWriteMem_cases s a w v
    · rw [hostOp, hrefused]
      exact refuseWrite_keeps_inv hi
    · rw [hostOp, hwrite]
      exact write_keeps_inv hi (by rwa [leBytes_length])
  | wait =>
    rw [hostOp]
    split <;> exact hi.congr rfl rfl rfl rfl rfl rfl rfl rfl rfl rfl rfl rfl
  | reset => exact resetBlock_keeps_inv hi

theorem afterTake_keeps_inv {s : State} (hi : Inv s) (rest : List HostOp) : Inv (afterTake s rest) :=
  hi.congr rfl rfl rfl rfl rfl rfl rfl rfl rfl rfl rfl rfl

theorem hostTurn_keeps_inv {s : State} (hi : Inv s) : Inv (hostTurn s) := by
  unfold hostTurn
  split
  · exact hi
  · next op rest _ => exact hostOp_keeps_inv (afterTake_keeps_inv hi rest) op

/-- Settles O56: the completion step and the host's step each keep it. -/
theorem stepKeepsTheInvariant : Obligations.StepKeepsTheInvariant := by
  unfold Obligations.StepKeepsTheInvariant
  intro s t hi h
  obtain ⟨hturn, hcomplete⟩ | ⟨-, rfl⟩ := step_cases h
  · exact complete_keeps_inv hi (busy_of_coreTurn hturn) hcomplete
  · exact hostTurn_keeps_inv hi

/-! ### Runs -/

/-- R43: with a tree store that keeps its invariant a command never faults. -/
theorem exists_exec_next {s : State} (htree : TreeStoreOk s.tree) (i : Instr) : ∃ t, exec i s = .next t := by
  rw [exec_eq_conclude]
  cases hc : commandOf i s with
  | ok k => exact ⟨_, conclude_ok s k⟩
  | error x =>
    cases x with
    | raised e => exact ⟨_, conclude_raiseErr s e⟩
    | faulted f =>
      obtain ⟨recs, hrecs, hno⟩ := commandOf_failsOnly i s _ hc
      obtain ⟨-, -, t, ht⟩ := htree recs hrecs
      exact absurd ht (hno t)

theorem exists_step_next {s : State} (hi : Inv s) : ∃ t, step s = .next t := by
  cases hturn : coreTurn s with
  | false => exact ⟨_, step_of_hostTurn hturn⟩
  | true =>
    rw [step_of_coreTurn hturn]
    cases hd : decode s.cmd with
    | ok i =>
      rw [complete_of_decode hd]
      exact exists_exec_next hi.tree i
    | error e => exact ⟨_, by rw [complete, hd]⟩

/-- A run goes on from the state that its first step answers. -/
theorem run_succ_of_core_step (M : Host.Core) {s t : M.State} (h : M.step s = .next t) (n : Nat) :
    M.run (n + 1) s = M.run n t := by
  rw [Host.Core.run, h]

theorem run_succ_of_step {s t : State} (h : step s = .next t) (n : Nat) :
    Host.Core.run Sys2Proof.core (n + 1) s = Host.Core.run Sys2Proof.core n t :=
  run_succ_of_core_step Sys2Proof.core h n

/-- Settles O57: every step from a good state answers a good state. -/
theorem goodStatesNeverStop : Obligations.GoodStatesNeverStop := by
  unfold Obligations.GoodStatesNeverStop
  intro s hi n
  induction n generalizing s with
  | zero => exact ⟨s, rfl⟩
  | succ n ih =>
    obtain ⟨u, hu⟩ := exists_step_next hi
    rw [run_succ_of_step hu]
    exact ih u (stepKeepsTheInvariant s u hi hu)

end Sys2Proof.Machine
end

section
/-! PROOFS. What a step depends on: a command reads no byte of DMEM outside its source range, and no step reads
the places of the two targets (spec/20_memory.md R80, R89). -/

namespace Sys2Proof.Machine

/-! ### Two runs of one pseudocode -/

/-- Two pieces of pseudocode that end early alike, or succeed with related completions. -/
inductive CmdRel (R : Completion → Completion → Prop) : Cmd Completion → Cmd Completion → Prop
  | ok {k k' : Completion} (h : R k k') : CmdRel R (.ok k) (.ok k')
  | error (x : Stop) : CmdRel R (.error x) (.error x)

theorem CmdRel.bind {α : Type} {R : Completion → Completion → Prop} {c c' : Cmd α} {f g : α → Cmd Completion}
    (hc : c' = c) (h : ∀ a, c = .ok a → CmdRel R (f a) (g a)) : CmdRel R (c >>= f) (c' >>= g) := by
  subst hc
  cases c' with
  | ok a => exact h a rfl
  | error x => exact .error x

/-- R156: related runs end in the same error, or in `finish` of related completions. -/
theorem CmdRel.next_cases {R : Completion → Completion → Prop} {s s' t : State} {c c' : Cmd Completion}
    (h : CmdRel R c c') (ht : conclude s c = .next t) :
    (∃ e, t = raise e s ∧ conclude s' c' = .next (raise e s')) ∨
    (∃ k k', R k k' ∧ t = finish k.state k.r0 k.r1 k.r2 ∧
      conclude s' c' = .next (finish k'.state k'.r0 k'.r1 k'.r2)) := by
  cases h with
  | @ok k k' hk =>
    cases ht
    exact .inr ⟨k, k', hk, rfl, rfl⟩
  | error x =>
    cases x with
    | raised e =>
      cases ht
      exact .inl ⟨e, rfl, rfl⟩
    | faulted f => cases ht

/-! ### A state moved to another place, with another memory -/

/-- The same state with other OPEN parameters and another data memory. -/
def State.moved (s : State) (c : Config) (m : Memory) : State := { s with cfg := c, mem := m }

@[simp] theorem moved_src (s : State) (c : Config) (m : Memory) : (s.moved c m).src = s.src := rfl
@[simp] theorem moved_slen (s : State) (c : Config) (m : Memory) : (s.moved c m).slen = s.slen := rfl

/-- The completions of a command in a state and in the moved one: the same but for the parameters and the memory,
where both have stored the same bytes at DST. -/
def MovedAlike (s : State) (c : Config) (m : Memory) (k k' : Completion) : Prop :=
  ∃ out, k.state.cfg = s.cfg ∧ k.state.mem = s.mem.write s.dst.toNat out ∧
    k' = ⟨k.state.moved c (m.write s.dst.toNat out), k.r0, k.r1, k.r2⟩

section
variable {s : State} {c : Config} {m : Memory} (hc : c.dmemAw = s.cfg.dmemAw)
include hc

theorem dmemSize_moved : (s.moved c m).dmemSize = s.dmemSize := congrArg (2 ^ ·) hc

theorem checkSrc_moved (n : Nat) : checkSrc (s.moved c m) n = checkSrc s n := by
  rw [checkSrc, checkSrc, State.inRange, State.inRange, dmemSize_moved hc]
  rfl

theorem checkDst_moved (n k : Nat) : checkDst (s.moved c m) n k = checkDst s n k := by
  rw [checkDst, checkDst, State.inRange, State.inRange, dmemSize_moved hc]
  rfl

end

section
variable {s : State} {c : Config} {m : Memory} (hc : c.dmemAw = s.cfg.dmemAw)
  (hm : ∀ a, s.src.toNat ≤ a → a < s.src.toNat + s.slen.toNat → (s.moved c m).dmem a = s.dmem a)
include hm

/-- R89: a read inside the source range. -/
theorem memRead_moved {a n : Nat} (hlo : s.src.toNat ≤ a) (hhi : a + n ≤ s.src.toNat + s.slen.toNat) :
    (s.moved c m).memRead a n = s.memRead a n :=
  memRead_congr fun i hi => hm (a + i) (by omega) (by omega)

theorem srcBytes_moved : (s.moved c m).srcBytes = s.srcBytes :=
  memRead_moved hm (Nat.le_refl _) (Nat.le_refl _)

/-- R245: records inside the source range. -/
theorem recordsAt_moved {a n : Nat} (hlo : s.src.toNat ≤ a) (hhi : a + 4 * n ≤ s.src.toNat + s.slen.toNat) :
    (s.moved c m).recordsAt a n = s.recordsAt a n := by
  refine List.map_congr_left fun i hi => ?_
  rw [List.mem_range] at hi
  rw [hm _ (by omega) (by omega), hm _ (by omega) (by omega), hm _ (by omega) (by omega), hm _ (by omega) (by omega)]

include hc

theorem compressCmd_moved (o : Bool) : CmdRel (MovedAlike s c m) (compressCmd o s) (compressCmd o (s.moved c m)) := by
  have hsrc := srcBytes_moved hm
  rw [compressCmd, compressCmd, hsrc]
  exact .bind (checkSrc_moved hc _) fun _ _ => .bind rfl fun _ _ => .bind rfl fun _ _ => .bind rfl fun _ _ =>
    .bind rfl fun _ _ => .bind rfl fun _ _ => .bind (checkDst_moved hc _ _) fun _ _ => .ok ⟨_, rfl, rfl, rfl⟩

/-- R89: a command runs alike in a moved state whose memory agrees on the source range. -/
theorem commandOf_moved (i : Instr) :
    CmdRel (MovedAlike s c m) (commandOf i s) (commandOf i (s.moved c m)) := by
  have hsrc := srcBytes_moved hm
  cases i with
  | nop => exact .ok ⟨[], rfl, rfl, rfl⟩
  | histClear => exact .ok ⟨[], rfl, rfl, rfl⟩
  | histAcc =>
    rw [commandOf, commandOf, histAccCmd, histAccCmd, hsrc]
    refine .bind (checkSrc_moved hc _) fun _ _ => ?_
    change CmdRel _ (match firstOverflow s.hist s.srcBytes with | some x => _ | none => _)
      (match firstOverflow s.hist s.srcBytes with | some x => _ | none => _)
    cases firstOverflow s.hist s.srcBytes with
    | some x => exact .error _
    | none => exact .ok ⟨[], rfl, rfl, rfl⟩
  | build => exact .bind rfl fun _ _ => .bind rfl fun _ _ => .ok ⟨[], rfl, rfl, rfl⟩
  | genCodes => exact .bind rfl fun _ _ => .bind rfl fun _ _ => .ok ⟨[], rfl, rfl, rfl⟩
  | serialize =>
    exact .bind rfl fun recs _ => .bind rfl fun _ _ => .bind (checkDst_moved hc _ _) fun _ _ =>
      .ok ⟨image recs, rfl, rfl, rfl⟩
  | deserialize =>
    refine .bind (checkSrc_moved hc _) fun _ _ => .bind rfl fun _ hz => ?_
    rw [raiseIf_eq_ok, decide_eq_false_iff_not] at hz
    dsimp only [moved_src, moved_slen]
    rw [hm _ (Nat.le_refl _) (by omega)]
    refine .bind rfl fun _ hlen => ?_
    rw [raiseIf_eq_ok, decide_eq_false_iff_not] at hlen
    rw [recordsAt_moved hm (by omega) (by omega)]
    exact .bind rfl fun _ _ => .ok ⟨[], rfl, rfl, rfl⟩
  | pack =>
    rw [commandOf, commandOf, packCmd, packCmd, hsrc]
    exact .bind rfl fun _ _ => .bind (checkSrc_moved hc _) fun _ _ => .bind rfl fun _ _ =>
      .bind (checkDst_moved hc _ _) fun _ _ => .ok ⟨_, rfl, rfl, rfl⟩
  | unpack =>
    rw [commandOf, commandOf, unpackCmd, unpackCmd, hsrc]
    exact .bind rfl fun _ _ => .bind (checkSrc_moved hc _) fun _ _ => .bind (checkDst_moved hc _ _) fun _ _ =>
      .bind rfl fun _ _ => .bind rfl fun _ _ => .ok ⟨_, rfl, rfl, rfl⟩
  | optimize => exact .bind rfl fun _ _ => .bind rfl fun _ _ => .bind rfl fun _ _ => .ok ⟨[], rfl, rfl, rfl⟩
  | compress => exact compressCmd_moved hc hm false
  | compressO => exact compressCmd_moved hc hm true
  | decompress =>
    refine .bind (checkSrc_moved hc _) fun _ _ => .bind rfl fun _ hz => ?_
    rw [raiseIf_eq_ok, decide_eq_false_iff_not] at hz
    dsimp only [moved_src, moved_slen]
    rw [hm _ (Nat.le_refl _) (by omega)]
    refine .bind rfl fun _ hlen => ?_
    rw [raiseIf_eq_ok, decide_eq_false_iff_not] at hlen
    rw [recordsAt_moved hm (by omega) (by omega), memRead_moved hm (by omega) (by omega),
      memRead_moved hm (by omega) (by omega)]
    exact .bind rfl fun _ _ => .bind (checkDst_moved hc _ _) fun _ _ => .bind rfl fun _ _ => .ok ⟨_, rfl, rfl, rfl⟩

end

/-- R89: the completion step in a moved state whose memory agrees on the source range: the same error, or the same
success with the same bytes stored at DST. -/
theorem exec_moved {i : Instr} {s t : State} {c : Config} {m : Memory} (hc : c.dmemAw = s.cfg.dmemAw)
    (hm : ∀ a, s.src.toNat ≤ a → a < s.src.toNat + s.slen.toNat → (s.moved c m).dmem a = s.dmem a)
    (h : exec i s = .next t) :
    ∃ out, t.cfg = s.cfg ∧ t.mem = s.mem.write s.dst.toNat out ∧
      exec i (s.moved c m) = .next (t.moved c (m.write s.dst.toNat out)) := by
  rw [exec_eq_conclude] at h ⊢
  obtain ⟨e, rfl, h'⟩ | ⟨k, _, ⟨out, hcfg, hmem, rfl⟩, rfl, h'⟩ :=
    (commandOf_moved hc hm i).next_cases (s' := s.moved c m) h
  · exact ⟨[], rfl, rfl, h'⟩
  · exact ⟨out, hcfg, hmem, h'⟩

/-- Settles O43: R89. Both runs store the same bytes at DST; every other byte stays as it was in each. -/
theorem commandsReadOnlyTheirSource : Obligations.CommandsReadOnlyTheirSource := by
  unfold Obligations.CommandsReadOnlyTheirSource
  intro i s t m h hm
  obtain ⟨out, hcfg, hmem, h'⟩ := exec_moved (c := s.cfg) rfl hm h
  obtain ⟨hkeeps, -⟩ := exec_frame h
  refine ⟨_, h', ?_, fun a => ?_⟩
  · rw [State.moved, ← hcfg]
  · by_cases ha : s.dst.toNat ≤ a ∧ a < s.dst.toNat + out.length
    · have hin : a - s.dst.toNat < out.length := by omega
      refine .inl ?_
      simp [State.dmem, State.moved, hmem, Memory.get?_write, ha, hin]
    · refine .inr ⟨?_, ?_⟩
      · simp only [State.dmem, State.moved, Memory.get?_write, if_neg ha, hkeeps.draw]
      · simp only [State.dmem, hmem, Memory.get?_write, if_neg ha, hkeeps.draw]

/-! ### The places of the two targets (R80) -/

/-- The same state with the two targets placed elsewhere. -/
def State.placedAt (s : State) (r d : Nat) : State := { s with cfg := { s.cfg with regBase := r, dmemBase := d } }

theorem complete_placedAt {s t : State} (r d : Nat) (h : complete s = .next t) :
    complete (s.placedAt r d) = .next (t.placedAt r d) := by
  obtain ⟨i, hi, hexec⟩ | ⟨e, he, rfl⟩ := complete_cases h
  · obtain ⟨out, hcfg, hmem, h'⟩ := exec_moved (c := { s.cfg with regBase := r, dmemBase := d }) (m := s.mem) rfl
      (fun _ _ _ => rfl) hexec
    have ht : t.placedAt r d = t.moved { s.cfg with regBase := r, dmemBase := d } t.mem := by
      rw [State.placedAt, hcfg, State.moved]
    rw [complete_of_decode (s := s.placedAt r d) hi, ht, hmem]
    exact h'
  · have he' : decode (s.placedAt r d).cmd = .error e := he
    rw [complete, he']
    rfl

theorem regValue_placedAt (s : State) (r d : Nat) (x : Reg) : (s.placedAt r d).regValue x = s.regValue x := by
  cases x <;> rfl

theorem afterRead_placedAt (s : State) (r d : Nat) (x : Reg) :
    (s.placedAt r d).afterRead x = (s.afterRead x).placedAt r d := by
  cases x <;> rfl

theorem writeReg_placedAt (s : State) (r d : Nat) (x : Reg) (v : Word) :
    (s.placedAt r d).writeReg x v = (s.writeReg x v).placedAt r d := by
  cases x <;> rfl

theorem hostOp_placedAt (s : State) (r d : Nat) (op : HostOp) :
    hostOp op (s.placedAt r d) = (hostOp op s).placedAt r d := by
  cases op with
  | readReg off w =>
    simp only [hostOp, hostReadReg]
    split
    · rfl
    · next x _ =>
      rw [regValue_placedAt, afterRead_placedAt]
      change (if s.busy && !readableWhileBusy x then _ else _) = State.placedAt (if _ then _ else _) r d
      split <;> rfl
  | writeReg off w v =>
    simp only [hostOp, hostWriteReg]
    split
    · rfl
    · next x _ =>
      rw [writeReg_placedAt]
      change (if s.busy && !writableWhileBusy x then _ else _) = State.placedAt (if _ then _ else _) r d
      split <;> rfl
  | readMem a w =>
    simp only [hostOp, hostReadMem]
    change (if memAccessOk s a w then _ else _) = State.placedAt (if _ then _ else _) r d
    split <;> rfl
  | writeMem a w v =>
    simp only [hostOp, hostWriteMem]
    change (if memAccessOk s a w then _ else _) = State.placedAt (if _ then _ else _) r d
    split <;> rfl
  | wait =>
    simp only [hostOp]
    change (if s.busy then _ else _) = State.placedAt (if _ then _ else _) r d
    split <;> rfl
  | reset => rfl

theorem hostTurn_placedAt (s : State) (r d : Nat) : hostTurn (s.placedAt r d) = (hostTurn s).placedAt r d := by
  unfold hostTurn
  change (match s.host with | [] => _ | op :: rest => _) = State.placedAt (match s.host with | [] => _ | op :: rest => _) r d
  cases s.host with
  | nil => rfl
  | cons op rest => exact hostOp_placedAt (afterTake s rest) r d op

/-- Settles O60: R80. The only OPEN parameter that a step reads is DMEM_AW. -/
theorem platformBasesDoNotMatter : Obligations.PlatformBasesDoNotMatter := by
  unfold Obligations.PlatformBasesDoNotMatter
  intro s t r d h
  change step (s.placedAt r d) = .next (t.placedAt r d)
  obtain ⟨hturn, hcomplete⟩ | ⟨hturn, rfl⟩ := step_cases h
  · have hturn' : coreTurn (s.placedAt r d) = true := hturn
    rw [step_of_coreTurn hturn', complete_placedAt r d hcomplete]
  · have hturn' : coreTurn (s.placedAt r d) = false := hturn
    rw [step_of_hostTurn hturn', hostTurn_placedAt]

end Sys2Proof.Machine
end

section
/-! PROOFS. The registers as the host reads them, and their reset values (spec/10_state.md R33, R35, R39, R45, R47;
spec/70_reset_and_hazards.md R390, R391, R393). -/

namespace Sys2Proof.Machine

/-! ### Words put together from fields -/

/-- The number of a word put together from two. -/
theorem append_toNat {m n : Nat} (x : BitVec m) (y : BitVec n) : (x ++ y).toNat = x.toNat * 2 ^ n + y.toNat := by
  rw [BitVec.toNat_append, ← Nat.shiftLeft_add_eq_or_of_lt y.isLt, Nat.shiftLeft_eq]

/-- A field of a word, by the word's number. -/
theorem extractLsb'_of_toNat {n i k : Nat} {w : BitVec n} {f : BitVec k} (h : w.toNat / 2 ^ i % 2 ^ k = f.toNat) :
    w.extractLsb' i k = f := by
  apply BitVec.eq_of_toNat_eq
  rw [BitVec.extractLsb'_toNat, Nat.shiftRight_eq_div_pow, h]

/-- A bit of a word, by the word's number. -/
theorem getLsbD_of_toNat {n i : Nat} {w : BitVec n} {b : Bool} (h : w.toNat / 2 ^ i % 2 = b.toNat) :
    w.getLsbD i = b := by
  rw [BitVec.getLsbD, Nat.testBit_eq_decide_div_mod_eq, h]
  cases b <;> rfl

/-! ### ID and TREEINFO (R33, R39) -/

/-- R33: ID as a number. -/
theorem idWord_toNat (s : State) : s.idWord.toNat = 0x484301 * 2 ^ 8 + s.cfg.dmemAw % 2 ^ 8 :=
  append_toNat (0x4843#16 ++ 0x01#8) (BitVec.ofNat 8 s.cfg.dmemAw)

/-- R33: the fields of ID. -/
theorem idWord_fields {s : State} (hcfg : s.cfg.wellFormed = true) :
    s.idWord.extractLsb' 16 16 = 0x4843 ∧ s.idWord.extractLsb' 8 8 = 0x01 ∧
      (s.idWord.extractLsb' 0 8).toNat = s.cfg.dmemAw := by
  have hword := idWord_toNat s
  have hrange : 8 ≤ s.cfg.dmemAw ∧ s.cfg.dmemAw ≤ 32 := of_decide_eq_true hcfg
  refine ⟨extractLsb'_of_toNat ?_, extractLsb'_of_toNat ?_, ?_⟩
  · change _ = 0x4843
    omega
  · change _ = 0x01
    omega
  · rw [BitVec.extractLsb'_toNat, Nat.shiftRight_zero]
    omega

theorem resetBlock_idWord (s : State) : (resetBlock s).idWord = s.idWord := rfl

/-- R39: TREEINFO's number of records, for a list that its byte can count. -/
theorem treeInfoWord_toNat {s : State} {recs : List NodeRec} (hs : s.tree = some recs) (hmax : recs.length ≤ 255) :
    s.treeInfoWord.toNat = recs.length := by
  rw [State.treeInfoWord, hs, append_toNat, BitVec.toNat_ofNat, BitVec.toNat_ofNat]
  omega

theorem treeInfoWord_of_none {s : State} (hs : s.tree = none) : s.treeInfoWord = 0 := by
  rw [State.treeInfoWord, hs]
  rfl

/-- Settles O49: R33, R39. -/
theorem identificationAndTreeInfo : Obligations.IdentificationAndTreeInfo := by
  unfold Obligations.IdentificationAndTreeInfo
  refine ⟨fun s hcfg => ?_, fun s htree => ⟨treeInfoWord_of_none, fun recs hs => ?_⟩, treeInfoWord_of_none rfl⟩
  · obtain ⟨hmagic, hversion, haw⟩ := idWord_fields hcfg
    exact ⟨hmagic, hversion, haw, resetBlock_idWord s⟩
  · obtain ⟨-, hmax, -⟩ := htree recs hs
    exact treeInfoWord_toNat hs hmax

/-! ### STATUS (R35) -/

/-- R35: STATUS as a number. -/
theorem statusWord_toNat (s : State) : s.statusWord.toNat =
    s.errCode.toNat * 2 ^ 8 + s.codeValid.toNat * 2 ^ 5 + s.treeValid.toNat * 2 ^ 4 + s.accErr.toNat * 2 ^ 3 +
      s.err.toNat * 2 ^ 2 + s.done.toNat * 2 + s.busy.toNat := by
  unfold State.statusWord
  iterate 8 rw [append_toNat]
  simp
  omega

/-- R35: the fields of STATUS. -/
theorem statusWord_fields (s : State) :
    s.statusWord.getLsbD 0 = s.busy ∧ s.statusWord.getLsbD 1 = s.done ∧ s.statusWord.getLsbD 2 = s.err ∧
    s.statusWord.getLsbD 3 = s.accErr ∧ s.statusWord.getLsbD 4 = s.tree.isSome ∧
    s.statusWord.getLsbD 5 = s.code.isSome ∧ s.statusWord.extractLsb' 6 2 = 0 ∧
    s.statusWord.extractLsb' 8 8 = s.errCode ∧ s.statusWord.extractLsb' 16 16 = 0 := by
  have hword := statusWord_toNat s
  have hcode : s.errCode.toNat < 2 ^ 8 := s.errCode.isLt
  have h0 := s.busy.toNat_le
  have h1 := s.done.toNat_le
  have h2 := s.err.toNat_le
  have h3 := s.accErr.toNat_le
  have h4 := s.treeValid.toNat_le
  have h5 := s.codeValid.toNat_le
  refine ⟨getLsbD_of_toNat ?_, getLsbD_of_toNat ?_, getLsbD_of_toNat ?_, getLsbD_of_toNat ?_,
    getLsbD_of_toNat (b := s.treeValid) ?_, getLsbD_of_toNat (b := s.codeValid) ?_,
    extractLsb'_of_toNat (show _ = 0 from ?_), extractLsb'_of_toNat ?_, extractLsb'_of_toNat (show _ = 0 from ?_)⟩
  all_goals omega

/-- R83, R86: STATUS may be written at any time. -/
theorem regTarget_status : regTarget 0x08 .w32 = some .status := rfl

/-- Settles O47: R35. -/
theorem statusFieldsAndTheirClearing : Obligations.StatusFieldsAndTheirClearing := by
  unfold Obligations.StatusFieldsAndTheirClearing
  refine ⟨statusWord_fields, fun s v rest hturn hhost => ?_⟩
  rw [step_of_host hturn hhost, hostOp, hostWriteReg_of_writable regTarget_status (fun _ => rfl)]
  rfl

/-! ### The CODE window and the NODE window (R45, R47) -/

theorem windowCode_of_none {s : State} (h : s.code = none) : s.windowCode = [] := by
  rw [State.windowCode, h]

theorem windowCode_of_some {s : State} {tab : SymTable Bits} (h : s.code = some tab) :
    s.windowCode = tab.at s.codeIdx := by
  rw [State.windowCode, h]

/-- R47: bit `31 - j` of CODE_BITSk is the code's bit `32k + j`. -/
theorem codeBitsWord_getLsbD (s : State) (k : Fin 8) {j : Nat} (hj : j < 32) :
    (s.codeBitsWord k).getLsbD (31 - j) = s.windowCode.getD (32 * k.val + j) false := by
  rw [State.codeBitsWord, BitVec.getLsbD_ofNat, show 31 - j = 32 - 1 - j by omega, msbNat_testBit 32 _ j hj,
    List.getD_eq_getElem?_getD, List.getElem?_drop, ← List.getD_eq_getElem?_getD,
    decide_eq_true (show 32 - 1 - j < 32 by omega), Bool.true_and]

/-- Settles O51: R47. -/
theorem codeWindowReadsTheCode : Obligations.CodeWindowReadsTheCode := by
  unfold Obligations.CodeWindowReadsTheCode
  exact fun s => ⟨windowCode_of_none, fun _ => windowCode_of_some, fun k _ => codeBitsWord_getLsbD s k⟩

/-- R45: without a record NODE_DATA reads 0. -/
theorem nodeDataWord_of_none {s : State} (h : (s.tree.getD [])[s.nodeIdx.toNat]? = none) : s.nodeDataWord = 0 := by
  rw [State.nodeDataWord, h]

/-- R45: the four bytes of the record, little-endian. -/
theorem nodeDataWord_toNat {s : State} {r : NodeRec} (h : (s.tree.getD [])[s.nodeIdx.toNat]? = some r) :
    s.nodeDataWord.toNat = r.lk.toNat + r.lv.toNat * 2 ^ 8 + r.rk.toNat * 2 ^ 16 + r.rv.toNat * 2 ^ 24 := by
  rw [State.nodeDataWord, h]
  dsimp only
  iterate 3 rw [append_toNat]
  omega

/-- Settles O50: R45. -/
theorem nodeWindowReadsTheRecord : Obligations.NodeWindowReadsTheRecord := by
  unfold Obligations.NodeWindowReadsTheRecord
  refine fun s => ⟨fun hnone => nodeDataWord_of_none (by rw [hnone]; rfl), fun recs hs => ⟨fun hpast => ?_, fun r hr => ?_⟩⟩
  · exact nodeDataWord_of_none (by rw [hs]; exact List.getElem?_eq_none hpast)
  · exact nodeDataWord_toNat (by rw [hs]; exact hr)

/-! ### Reset (R390, R391, R393) -/

/-- Settles O53: R391. -/
theorem resetValues : Obligations.ResetValues := by
  unfold Obligations.ResetValues
  refine ⟨by decide, fun _ => by decide, resetBlock_idWord, rfl, rfl, rfl, rfl, rfl, rfl, rfl, rfl, rfl, rfl, rfl, rfl,
    rfl, fun x => ?_, rfl, rfl, rfl, rfl, rfl, rfl, by decide, rfl, rfl, State.reset_irq⟩
  simp [State.reset, SymTable.at]

/-- Settles O54: R390, R393. -/
theorem resetAbandonsTheCommand : Obligations.ResetAbandonsTheCommand := by
  unfold Obligations.ResetAbandonsTheCommand
  exact fun s rest hturn hhost => ⟨_, step_of_host hturn hhost, rfl⟩

end Sys2Proof.Machine
end

section
/-! PROOFS. The host's accesses to registers and DMEM, refused or performed, and the command in flight meanwhile
(spec/20_memory.md R81 to R86; spec/70_reset_and_hazards.md R402). -/

namespace Sys2Proof.Machine

/-! ### Refused accesses (R85, R86) -/

/-- R86: the offsets that may be read while BUSY = 1. -/
theorem Reg.ofOffset?_readable_iff (off : Byte) :
    (Reg.ofOffset? off).any readableWhileBusy = true ↔ off = 0x00 ∨ off = 0x04 ∨ off = 0x08 := by
  revert off
  decide +kernel

/-- R86: the offsets that may be written while BUSY = 1. -/
theorem Reg.ofOffset?_writable_iff (off : Byte) :
    (Reg.ofOffset? off).any writableWhileBusy = true ↔ off = 0x04 ∨ off = 0x08 := by
  revert off
  decide +kernel

/-- R81, R51: an access reaches a register when it is 32 bits wide and aligned, at an offset that has one. -/
theorem regTarget_eq_some_iff {off : Byte} {w : Width} {r : Reg} :
    regTarget off w = some r ↔ (w = .w32 ∧ off.toNat % 4 = 0) ∧ Reg.ofOffset? off = some r := by
  simp only [regTarget, Option.ite_none_right_eq_some]

theorem performed_readReg_of_target {s : State} {off : Byte} {w : Width} {r : Reg} (hr : regTarget off w = some r)
    (hbusy : s.busy = true → readableWhileBusy r = true) : performed s (.readReg off w) = true := by
  obtain ⟨⟨hw, haligned⟩, hoff⟩ := regTarget_eq_some_iff.1 hr
  obtain ⟨-, hbound, h38, h3C⟩ := (Reg.ofOffset?_isSome_iff off).1 (by rw [hoff]; rfl)
  refine decide_eq_true ⟨hw, haligned, hbound, h38, h3C, fun hb => (Reg.ofOffset?_readable_iff off).1 ?_⟩
  rw [hoff]
  exact hbusy hb

theorem performed_writeReg_of_target {s : State} {off : Byte} {w : Width} {r : Reg} (v : Word)
    (hr : regTarget off w = some r) (hbusy : s.busy = true → writableWhileBusy r = true) :
    performed s (.writeReg off w v) = true := by
  obtain ⟨⟨hw, haligned⟩, hoff⟩ := regTarget_eq_some_iff.1 hr
  obtain ⟨-, hbound, h38, h3C⟩ := (Reg.ofOffset?_isSome_iff off).1 (by rw [hoff]; rfl)
  refine decide_eq_true ⟨hw, haligned, hbound, h38, h3C, fun hb => (Reg.ofOffset?_writable_iff off).1 ?_⟩
  rw [hoff]
  exact hbusy hb

/-- R85: a register read that the rules refuse is refused. -/
theorem hostReadReg_of_not_performed {s : State} {off : Byte} {w : Width}
    (h : performed s (.readReg off w) = false) : hostReadReg s off w = refuseRead s := by
  obtain hrefused | ⟨r, hr, hbusy, -⟩ := hostReadReg_cases s off w
  · exact hrefused
  · simp [performed_readReg_of_target hr hbusy] at h

/-- R85: a register write that the rules refuse is refused. -/
theorem hostWriteReg_of_not_performed {s : State} {off : Byte} {w : Width} {v : Word}
    (h : performed s (.writeReg off w v) = false) : hostWriteReg s off w v = refuseWrite s := by
  obtain hrefused | ⟨r, hr, hbusy, -⟩ := hostWriteReg_cases s off w v
  · exact hrefused
  · simp [performed_writeReg_of_target v hr hbusy] at h

theorem performed_afterTake (s : State) (rest : List HostOp) (op : HostOp) :
    performed (afterTake s rest) op = performed s op := by cases op <;> rfl

/-- Settles O44: R85, R86. -/
theorem refusedAccessesOnlySetAccerr : Obligations.RefusedAccessesOnlySetAccerr := by
  unfold Obligations.RefusedAccessesOnlySetAccerr
  intro s op rest hturn hhost hrefused
  rw [← performed_afterTake s rest] at hrefused
  refine ⟨_, step_of_host hturn hhost, ?_⟩
  cases op with
  | readReg off w =>
    rw [hostOp, hostReadReg_of_not_performed hrefused]
    exact ⟨State.irq_congr rfl rfl rfl, fun _ _ _ => rfl, nofun, nofun, nofun⟩
  | writeReg off w v =>
    rw [hostOp, hostWriteReg_of_not_performed hrefused]
    exact ⟨State.irq_congr rfl rfl rfl, nofun, nofun, fun _ _ _ _ => rfl, nofun⟩
  | readMem a w =>
    rw [performed_afterTake, ← memAccessOk_afterTake s rest] at hrefused
    rw [hostOp, hostReadMem_of_refused hrefused]
    exact ⟨State.irq_congr rfl rfl rfl, nofun, fun _ _ _ => rfl, nofun, nofun⟩
  | writeMem a w v =>
    rw [performed_afterTake, performed_writeMem, ← memAccessOk_afterTake s rest] at hrefused
    rw [hostOp, hostWriteMem_of_refused hrefused]
    exact ⟨State.irq_congr rfl rfl rfl, nofun, nofun, nofun, fun _ _ _ _ => rfl⟩
  | wait => cases hrefused
  | reset => cases hrefused

/-! ### Register writes (R83) -/

/-- R81, R86: a performed write reaches a register, and one that may be written now. -/
theorem exists_reg_of_performed_write {s : State} {off : Byte} {v : Word}
    (h : performed s (.writeReg off .w32 v) = true) :
    ∃ r, regTarget off .w32 = some r ∧ (s.busy = true → writableWhileBusy r = true) := by
  simp only [performed, decide_eq_true_eq] at h
  obtain ⟨-, haligned, hbound, h38, h3C, hbusy⟩ := h
  obtain ⟨r, hr⟩ := Option.isSome_iff_exists.1
    ((Reg.ofOffset?_isSome_iff off).2 ⟨haligned, hbound, h38, h3C⟩)
  refine ⟨r, regTarget_eq_some_iff.2 ⟨⟨rfl, haligned⟩, hr⟩, fun hb => ?_⟩
  have hopen := (Reg.ofOffset?_writable_iff off).2 (hbusy hb)
  rwa [hr] at hopen

/-- R83: a performed write writes the register that the map has at its offset. -/
theorem step_writeReg_of_performed {s : State} {off : Byte} {v : Word} {rest : List HostOp}
    (hturn : coreTurn s = false) (hhost : s.host = .writeReg off .w32 v :: rest)
    (hperf : performed s (.writeReg off .w32 v) = true) {r : Reg} (hr : regTarget off .w32 = some r) :
    step s = .next ((afterTake s rest).writeReg r v) := by
  obtain ⟨r', hr', hopen⟩ := exists_reg_of_performed_write hperf
  obtain rfl : r' = r := Option.some.inj (hr'.symm.trans hr)
  rw [step_of_host hturn hhost, hostOp, hostWriteReg_of_writable (s := afterTake s rest) hr hopen]

/-- R83: the registers that ignore a write. -/
def Reg.readOnly : Reg → Bool
  | .id | .res0 | .res1 | .res2 | .errInfo | .treeInfo | .codeLen | .codeBits _ | .nodeData => true
  | .ctrl | .status | .cmd | .src | .slen | .dst | .dcap | .cnt | .histIdx | .histData | .codeIdx | .nodeIdx => false

theorem writeReg_of_readOnly {r : Reg} (h : r.readOnly = true) (s : State) (v : Word) : s.writeReg r v = s := by
  cases r <;> cases h <;> rfl

/-- R32, R83: the offsets of the read-only registers. -/
theorem exists_readOnly_of_offset {off : Byte}
    (h : off ∈ [0x00#8, 0x24#8, 0x28#8, 0x2C#8, 0x30#8, 0x34#8, 0x4C#8, 0x50#8, 0x54#8, 0x58#8, 0x5C#8, 0x60#8,
      0x64#8, 0x68#8, 0x6C#8, 0x74#8]) : ∃ r, regTarget off .w32 = some r ∧ r.readOnly = true := by
  have hall : ∀ o ∈ [0x00#8, 0x24#8, 0x28#8, 0x2C#8, 0x30#8, 0x34#8, 0x4C#8, 0x50#8, 0x54#8, 0x58#8, 0x5C#8, 0x60#8,
      0x64#8, 0x68#8, 0x6C#8, 0x74#8], (regTarget o .w32).any Reg.readOnly = true := by decide
  simpa [Option.any_eq_true] using hall off h

/-- Settles O46: R83. The map fixes the register that a performed write reaches. -/
theorem registerWritesUpdateTheFields : Obligations.RegisterWritesUpdateTheFields := by
  unfold Obligations.RegisterWritesUpdateTheFields
  intro s off v rest hturn hhost hperf
  have hwrite (o : Byte) (r : Reg) (hr : regTarget o .w32 = some r) (h : off = o) :
      step s = .next ((afterTake s rest).writeReg r v) :=
    step_writeReg_of_performed hturn hhost hperf (h ▸ hr)
  refine ⟨hwrite _ .ctrl rfl, hwrite _ .src rfl, hwrite _ .slen rfl, hwrite _ .dst rfl, hwrite _ .dcap rfl,
    hwrite _ .cnt rfl, hwrite _ .histIdx rfl, fun h => ⟨s.hist.put s.histIdx v, fun x => ?_, hwrite _ .histData rfl h⟩,
    hwrite _ .codeIdx rfl, hwrite _ .nodeIdx rfl, fun h => ?_⟩
  · exact SymTable.at_put s.hist s.histIdx x v
  · obtain ⟨r, hr, hro⟩ := exists_readOnly_of_offset h
    rw [hwrite off r hr rfl, writeReg_of_readOnly hro]

/-! ### A command in flight (R402) -/

/-- What the host's steps keep while a command is in flight: BUSY, CMD, the argument registers, HIST, TREE, CODE and
every byte of DMEM. -/
structure FlightKeeps (s t : State) : Prop where
  busy : t.busy = s.busy
  cmd : t.cmd = s.cmd
  src : t.src = s.src
  slen : t.slen = s.slen
  dst : t.dst = s.dst
  dcap : t.dcap = s.dcap
  cnt : t.cnt = s.cnt
  hist : t.hist = s.hist
  tree : t.tree = s.tree
  code : t.code = s.code
  dmem : t.dmem = s.dmem

theorem FlightKeeps.refl (s : State) : FlightKeeps s s := by constructor <;> rfl

theorem FlightKeeps.trans {s t u : State} (h : FlightKeeps s t) (h' : FlightKeeps t u) : FlightKeeps s u :=
  ⟨h'.busy.trans h.busy, h'.cmd.trans h.cmd, h'.src.trans h.src, h'.slen.trans h.slen, h'.dst.trans h.dst,
    h'.dcap.trans h.dcap, h'.cnt.trans h.cnt, h'.hist.trans h.hist, h'.tree.trans h.tree, h'.code.trans h.code,
    h'.dmem.trans h.dmem⟩

/-- R86: while BUSY = 1 an operation of the host other than reset reaches CTRL.IE, STATUS's flags, the window
indexes and its own side of the bus at most. -/
theorem hostOp_of_busy {s : State} {op : HostOp} (hbusy : s.busy = true) (hop : op ≠ .reset) :
    FlightKeeps s (hostOp op s) ∧ (hostOp op s).delay = s.delay ∧ (hostOp op s).host ⊆ .wait :: s.host := by
  cases op with
  | readReg off w =>
    obtain hrefused | ⟨r, -, -, hread⟩ := hostReadReg_cases s off w
    · rw [hostOp, hrefused]
      exact ⟨by constructor <;> rfl, rfl, List.subset_cons_self _ _⟩
    · rw [hostOp, hread, afterRead_eq]
      exact ⟨by constructor <;> rfl, rfl, List.subset_cons_self _ _⟩
  | writeReg off w v =>
    obtain hrefused | ⟨r, -, hopen, hwrite⟩ := hostWriteReg_cases s off w v
    · rw [hostOp, hrefused]
      exact ⟨by constructor <;> rfl, rfl, List.subset_cons_self _ _⟩
    · rw [hostOp, hwrite]
      obtain hie | hflags := writeReg_of_busy (hopen hbusy) v
      · rw [hie]
        exact ⟨by constructor <;> rfl, rfl, List.subset_cons_self _ _⟩
      · rw [hflags]
        exact ⟨by constructor <;> rfl, rfl, List.subset_cons_self _ _⟩
  | readMem a w =>
    rw [hostOp, hostReadMem_frame]
    exact ⟨by constructor <;> rfl, rfl, List.subset_cons_self _ _⟩
  | writeMem a w v =>
    obtain hrefused | ⟨hidle, -⟩ := hostWriteMem_cases s a w v
    · rw [hostOp, hrefused]
      exact ⟨by constructor <;> rfl, rfl, List.subset_cons_self _ _⟩
    · simp [hbusy] at hidle
  | wait =>
    rw [hostOp, if_pos hbusy]
    exact ⟨by constructor <;> rfl, rfl, List.Subset.refl _⟩
  | reset => exact absurd rfl hop

/-- R402: the completion step of a command in flight comes after at most `delay` host steps. -/
theorem run_until_coreTurn {s : State} (hbusy : s.busy = true) (hhost : ∀ op ∈ s.host, op ≠ .reset) :
    ∃ n t, n ≤ s.delay ∧ Host.Core.run Sys2Proof.core n s = .next t ∧ coreTurn t = true ∧ FlightKeeps s t := by
  induction hd : s.delay generalizing s with
  | zero => exact ⟨0, s, Nat.le_refl _, rfl, (coreTurn_iff s).2 ⟨hbusy, .inl hd⟩, .refl s⟩
  | succ d ih =>
    cases hh : s.host with
    | nil => exact ⟨0, s, Nat.zero_le _, rfl, (coreTurn_iff s).2 ⟨hbusy, .inr hh⟩, .refl s⟩
    | cons op rest =>
      have hturn : coreTurn s = false := by
        rw [← Bool.not_eq_true, coreTurn_iff]
        simp [hd, hh]
      have hstep := step_of_host hturn hh
      rw [hh, List.forall_mem_cons] at hhost
      obtain ⟨hop, hrest⟩ := hhost
      obtain ⟨hkeeps, hdelay, hsub⟩ := hostOp_of_busy (s := afterTake s rest) hbusy hop
      have hkeeps' : FlightKeeps s (hostOp op (afterTake s rest)) :=
        FlightKeeps.trans (by constructor <;> rfl) hkeeps
      have hnext : (hostOp op (afterTake s rest)).delay = d := by
        rw [hdelay, afterTake, hd, Nat.add_sub_cancel]
      obtain ⟨n, t, hn, hrun, ht, hkt⟩ := ih (hkeeps'.busy.trans hbusy) (fun o ho => by
        obtain rfl | ho := List.mem_cons.1 (hsub ho)
        · exact nofun
        · exact hrest o ho) hnext
      exact ⟨n + 1, t, Nat.succ_le_succ hn, (run_succ_of_step hstep n).trans hrun, ht, hkeeps'.trans hkt⟩

/-- Settles O58: R402. -/
theorem commandInFlightCompletes : Obligations.CommandInFlightCompletes := by
  unfold Obligations.CommandInFlightCompletes
  intro s hbusy hhost
  obtain ⟨n, t, hn, hrun, hturn, hkeeps⟩ := run_until_coreTurn hbusy hhost
  exact ⟨n, t, hn, hrun, hturn, hkeeps.cmd, hkeeps.src, hkeeps.slen, hkeeps.dst, hkeeps.dcap, hkeeps.cnt, hkeeps.hist,
    hkeeps.tree, hkeeps.code, congrFun hkeeps.dmem, step_of_coreTurn hturn⟩

end Sys2Proof.Machine
end

section
/-! PROOFS. Histograms, node lists and codes: HIST_ACC after HIST_CLEAR, the postorder and its malformed lists,
SERIALIZE then DESERIALIZE, and codes of which none begins another (spec/41_histogram.md R183;
spec/42_tree_builder.md R205; spec/44_serdes.md R244 to R246; spec/43_code_table.md R224). -/

namespace Sys2Proof.Machine

/-! ### The histogram of a concatenation (R183) -/

/-- R182: HIST_ACC of a source inside DMEM whose counts fit. -/
theorem exec_histAcc_counts {s : State} (hr : s.src.toNat + s.slen.toNat ≤ s.dmemSize)
    (hfit : ∀ x : Byte, (s.hist.at x).toNat + s.srcBytes.count x ≤ 0xFFFFFFFF) :
    ∃ t, exec .histAcc s = .next t ∧ (∀ x : Byte, (t.hist.at x).toNat = (s.hist.at x).toNat + s.srcBytes.count x) ∧
      t.dmem = s.dmem ∧ t.cfg = s.cfg := by
  have h := exec_histAcc_of_fits hr (firstOverflow_eq_none hfit)
  obtain ⟨hkeeps, -, -, -, hdmem⟩ := exec_frame h
  exact ⟨_, h, fun x => addCounts_at_toNat (hfit x), hdmem rfl, hkeeps.cfg⟩

/-- Settles O14: R183. A word counts every source up to its greatest length. -/
theorem histogramOfConcatenation : Obligations.HistogramOfConcatenation := by
  unfold Obligations.HistogramOfConcatenation
  intro s t a n hclear hr
  rw [exec_histClear] at hclear
  cases hclear
  have hsrc : (finish { s with hist := emptyHist } 0 0 0).srcBytes = s.srcBytes := rfl
  have hzero (x : Byte) : ((finish { s with hist := emptyHist } 0 0 0).hist.at x).toNat = 0 :=
    congrArg BitVec.toNat (emptyHist_at x)
  have hcount (x : Byte) : s.srcBytes.count x ≤ 0xFFFFFFFF := by
    have hle := List.count_le_length (a := x) (l := s.srcBytes)
    have hlen := s.slen.isLt
    rw [srcBytes_length] at hle
    omega
  obtain ⟨u, hu, hcounts, hdmem, hcfg⟩ := exec_histAcc_counts (s := finish { s with hist := emptyHist } 0 0 0) hr
    fun x => by rw [hzero, hsrc, Nat.zero_add]; exact hcount x
  have hfirst (x : Byte) : (u.hist.at x).toNat = s.srcBytes.count x := by rw [hcounts, hzero, hsrc, Nat.zero_add]
  refine ⟨u, hu, hfirst, fun hr' hfit => ?_⟩
  have hread : ({ u with src := a, slen := n } : State).srcBytes = s.memRead a.toNat n.toNat :=
    memRead_congr fun i _ => congrFun hdmem _
  have hsize : u.dmemSize = s.dmemSize := dmemSize_congr hcfg
  obtain ⟨v, hv, hsum, -⟩ := exec_histAcc_counts (s := { u with src := a, slen := n }) (hsize ▸ hr')
    fun x => by rw [hread, hfirst, ← List.count_append]; exact hfit x
  refine ⟨v, hv, fun x => ?_⟩
  rw [hsum, hread, hfirst, ← List.count_append]

/-! ### The postorder (R205) -/

/-- Settles O19: R205. -/
theorem recordsArePostorder : Obligations.RecordsArePostorder := by
  unfold Obligations.RecordsArePostorder
  refine fun l r => ⟨records_length _, _, ?_, rfl, number_length r l.nodes⟩
  rw [HTree.records, number_node, Nat.zero_add]
  rfl

/-! ### Malformed node lists (R244, R356) -/

/-- R244: the loop over a list in two parts. -/
theorem parseLoop_append {good rest : List NodeRec} {n : Nat} {st st' : List (Nat × HTree)}
    (h : parseLoop n good st = .ok st') : parseLoop n (good ++ rest) st = parseLoop (n + good.length) rest st' := by
  induction good generalizing n st with
  | nil =>
    cases h
    rfl
  | cons r good ih =>
    rw [parseLoop] at h
    rw [List.cons_append, parseLoop]
    cases hr : parseRecord n r st with
    | none => simp [hr] at h
    | some st1 =>
      simp only [hr] at h
      dsimp only
      rw [ih h, List.length_cons, Nat.add_right_comm, Nat.add_assoc]

/-- R244: an internal child needs a subtree of its number on top of the stack. -/
theorem takeChild_one_eq_none {v : Byte} {st : List (Nat × HTree)}
    (h : ∀ j u st', st = (j, u) :: st' → j ≠ v.toNat) : takeChild 1 v st = none := by
  unfold takeChild
  rw [if_pos rfl]
  cases st with
  | nil => rfl
  | cons p st =>
    obtain ⟨j, u⟩ := p
    exact if_neg (h j u st rfl)

theorem takeChild_zero (v : Byte) (st : List (Nat × HTree)) : takeChild 0 v st = some (.leaf v, st) := rfl

/-- R244: what a taken internal child leaves on the stack. -/
theorem eq_cons_of_takeChild_one {v : Byte} {st st' : List (Nat × HTree)} {t : HTree}
    (h : takeChild 1 v st = some (t, st')) : st = (v.toNat, t) :: st' := by
  unfold takeChild at h
  rw [if_pos rfl] at h
  cases st with
  | nil => cases h
  | cons p st =>
    obtain ⟨j, u⟩ := p
    obtain ⟨hj, h⟩ := Option.ite_none_right_eq_some.1 h
    cases h
    rw [hj]

/-- R244: what makes a record fail: its boolean bytes, its right child or its left child. -/
def RecordFails (r : NodeRec) (st : List (Nat × HTree)) : Prop :=
  (1 < r.lk.toNat ∨ 1 < r.rk.toNat) ∨ takeChild r.rk r.rv st = none ∨
    ∃ t st1, takeChild r.rk r.rv st = some (t, st1) ∧ takeChild r.lk r.lv st1 = none

theorem parseRecord_of_fails {i : Nat} {r : NodeRec} {st : List (Nat × HTree)} (h : RecordFails r st) :
    parseRecord i r st = none := by
  unfold parseRecord
  by_cases hbool : 1 < r.lk.toNat ∨ 1 < r.rk.toNat
  · exact if_pos hbool
  · rw [if_neg hbool]
    obtain hright | ⟨t, st1, hright, hleft⟩ := h.resolve_left hbool
    · rw [hright]
    · simp only [hright, hleft]

/-- R244: a record that fails is the one reported. -/
theorem parse_error_of_record {good rest : List NodeRec} {r : NodeRec} {st : List (Nat × HTree)}
    (hgood : parseLoop 0 good [] = .ok st) (hr : RecordFails r st) :
    parse (good ++ r :: rest) = .error good.length := by
  rw [parse, parseLoop_append hgood, Nat.zero_add, parseLoop, parseRecord_of_fails hr]

/-- R244: a list that parses has left one subtree on the stack. -/
theorem parse_error_of_stack {good : List NodeRec} {st : List (Nat × HTree)} (hgood : parseLoop 0 good [] = .ok st)
    (hst : st.length ≠ 1) : parse good = .error good.length := by
  rw [parse, hgood]
  match st, hst with
  | [], _ => rfl
  | _ :: _ :: _, _ => rfl

/-- Settles O21: R244, R356. -/
theorem malformedListsAreReported : Obligations.MalformedListsAreReported := by
  unfold Obligations.MalformedListsAreReported
  refine ⟨rfl, fun good r rest st hgood => ⟨fun hbool => ?bool, fun hlk hrk hright => ?right,
    fun hlk hrk hleft => ?left, fun hlk hrk hleft => ?both, parse_error_of_stack hgood⟩⟩
  case bool => exact parse_error_of_record hgood (.inl hbool)
  case right => exact parse_error_of_record hgood (.inr (.inl (hrk ▸ takeChild_one_eq_none hright)))
  case left =>
    have htake : takeChild r.rk r.rv st = some (.leaf r.rv, st) := hrk ▸ takeChild_zero r.rv st
    exact parse_error_of_record hgood (.inr (.inr ⟨_, st, htake, hlk ▸ takeChild_one_eq_none hleft⟩))
  case both =>
    refine parse_error_of_record hgood (.inr ?_)
    rw [hrk, hlk]
    cases htake : takeChild 1 r.rv st with
    | none => exact .inl rfl
    | some p =>
      obtain ⟨t, st1⟩ := p
      have hst := eq_cons_of_takeChild_one htake
      exact .inr ⟨t, st1, rfl, takeChild_one_eq_none fun k v st' hst1 => hleft _ t k v st' (hst1 ▸ hst)⟩

/-! ### SERIALIZE, then DESERIALIZE (R246) -/

/-- R241: a SERIALIZE that succeeds has stored the image of the tree store's list. -/
theorem exec_serialize_success {s t : State} (h : exec .serialize s = .next t) (he : t.errCode = 0) :
    ∃ recs, s.tree = some recs ∧ recs.length ≤ 255 ∧ 1 + 4 * recs.length ≤ s.dcap.toNat ∧
      t = finish (s.storeDst (image recs)) (1 + 4 * recs.length) 0 recs.length := by
  rw [exec_serialize] at h
  obtain ⟨k, hk, rfl⟩ := conclude_next_of_errCode h he
  obtain ⟨recs, hrecs, hmax, hd, rfl⟩ := serializeCmd_eq_ok hk
  obtain ⟨-, hcap, -⟩ := checkDst_eq_ok.1 hd
  exact ⟨recs, hrecs, hmax, hcap, rfl⟩

/-- R245: bytes that read as an image hold its count and its records. -/
theorem memRead_eq_image {s : State} {a n : Nat} {recs : List NodeRec} (h : s.memRead a n = image recs) :
    s.dmem a = BitVec.ofNat 8 recs.length ∧ s.recordsAt (a + 1) recs.length = recs := by
  obtain ⟨hcount, hrecs⟩ := memRead_eq_append (l := [BitVec.ofNat 8 recs.length]) h
  exact ⟨List.head_eq_of_cons_eq hcount, recordsAt_of_memRead hrecs⟩

/-- Settles O24: R246. -/
theorem serializeThenDeserialize : Obligations.SerializeThenDeserialize := by
  unfold Obligations.SerializeThenDeserialize
  intro s t htree h he hr
  obtain ⟨recs, hrecs, hmax, hcap, rfl⟩ := exec_serialize_success h he
  obtain ⟨-, -, tree, hparse⟩ := htree recs hrecs
  have himage : (s.storeDst (image recs)).memRead s.dst.toNat (image recs).length = image recs :=
    memRead_storeDst s (image recs)
  obtain ⟨hcount, hlist⟩ := memRead_eq_image himage
  have hn : recs.length = ((s.storeDst (image recs)).dmem s.dst.toNat).toNat := by
    rw [hcount, BitVec.toNat_ofNat, Nat.mod_eq_of_lt (by omega)]
  have hexec := exec_deserialize_of_parse (s := { finish (s.storeDst (image recs)) (1 + 4 * recs.length) 0 recs.length
    with src := s.dst, slen := s.dcap }) hr hn hlist hcap hparse
  exact ⟨_, hexec, rfl, hrecs.symm, rfl, rfl⟩

/-! ### No code begins another (R224) -/

/-- R224: a code that begins another symbol's code leads to the same leaf. -/
theorem codes_not_prefix {t : HTree} {x y : Byte} (hx : x ∈ t.leafSyms) (hy : y ∈ t.leafSyms) (hne : x ≠ y) :
    ¬ t.codes.at x <+: t.codes.at y := by
  rintro ⟨rest, hrest⟩
  have hpath := descend_append (codes_descend hx) rest
  rw [hrest, codes_descend hy] at hpath
  cases hpath
  exact hne rfl

/-- R224: the code of a single-symbol tree's symbol, the last of its two leaves' paths. -/
theorem codes_single (x : Byte) : (HTree.node (.leaf x) (.leaf x)).codes.at x = [true] := by
  simp [HTree.codes, HTree.walk]

/-- Settles O26: R224. -/
theorem codesArePrefixFree : Obligations.CodesArePrefixFree := by
  unfold Obligations.CodesArePrefixFree
  refine ⟨fun l r x hx => ⟨List.length_pos_iff.2 (codes_ne_nil_iff.2 hx), codes_length_le_nodes _ x⟩,
    fun l r x y _ hne hx hy => codes_not_prefix hx hy hne, codes_single⟩

end Sys2Proof.Machine
end

section
/-! PROOFS. PACK, and decoding as a sequence of paths to leaves (spec/45_bitpack.md R271 to R273). -/

namespace Sys2Proof.Machine

/-! ### PACK (R273): the ends of the command, in the order of its checks -/

section
variable {s : State} {tab : SymTable Bits} (hs : s.code = some tab)
include hs

/-- R273: with a code table, the source range is checked first. -/
theorem exec_pack_of_srcRange (hr : s.dmemSize < s.src.toNat + s.slen.toNat) :
    exec .pack s = .next (raise (.range .source) s) := by
  rw [exec_pack, packCmd, needCodes_eq_ok.2 hs, cmd_bind_ok, checkSrc_fails hr, cmd_bind_raiseErr, conclude_raiseErr]

variable (hr : s.src.toNat + s.slen.toNat ≤ s.dmemSize)
include hr

theorem exec_pack_of_raised {e : CmdErr} (hp : packbits s.srcBytes tab = raiseErr e) :
    exec .pack s = .next (raise e s) := by
  rw [exec_pack, packCmd, needCodes_eq_ok.2 hs, cmd_bind_ok, checkSrc_passes hr, cmd_bind_ok, hp, cmd_bind_raiseErr,
    conclude_raiseErr]

variable {out : List Byte} {pad m : Nat} (hp : packbits s.srcBytes tab = .ok (out, pad)) (hm : out.length = m)
include hp hm

/-- R273: with the bytes packed, the destination decides. -/
theorem exec_pack_of_packed : exec .pack s = conclude s (checkDst s m s.slen.toNat >>=
    fun _ => .ok ⟨s.storeDst out, m, s.slen.toNat, pad⟩) := by
  subst hm
  rw [exec_pack, packCmd, needCodes_eq_ok.2 hs, cmd_bind_ok, checkSrc_passes hr, cmd_bind_ok, hp, cmd_bind_ok]

theorem exec_pack_of_dst {e : CmdErr} (hd : checkDst s m s.slen.toNat = raiseErr e) :
    exec .pack s = .next (raise e s) := by
  rw [exec_pack_of_packed hs hr hp hm, hd, cmd_bind_raiseErr, conclude_raiseErr]

theorem exec_pack_of_fits (hd : checkDst s m s.slen.toNat = .ok ()) :
    exec .pack s = .next (finish (s.storeDst out) m s.slen.toNat pad) := by
  rw [exec_pack_of_packed hs hr hp hm, hd, cmd_bind_ok, conclude_ok]

end

theorem srcBytes_getElem (s : State) {i : Nat} (h : i < s.srcBytes.length) :
    s.srcBytes[i] = s.dmem (s.src.toNat + i) := memRead_getElem s _ _ i h

/-- R271: packing stops at the first byte without a code. -/
theorem packbits_of_noCode {tab : SymTable Bits} {data : List Byte} {i : Nat} (hi : i < data.length)
    (hcode : tab.at data[i] = []) (hbefore : ∀ (j : Nat) (hj : j < i), tab.at data[j] ≠ []) :
    packbits data tab = raiseErr (.noCode i) := by
  have hsplit : data = data.take i ++ data[i] :: data.drop (i + 1) := by
    rw [← List.drop_eq_getElem_cons hi, List.take_append_drop]
  have hgood : ∀ x ∈ data.take i, tab.at x ≠ [] := by
    intro x hx
    obtain ⟨j, hj, rfl⟩ := List.mem_take_iff_getElem.1 hx
    exact hbefore j (by omega)
  have henc := encodeFrom_noCode 0 (data.take i) data[i] (data.drop (i + 1)) hgood hcode
  rw [← hsplit, Nat.zero_add, List.length_take, Nat.min_eq_left hi.le] at henc
  rw [packbits, henc, cmd_bind_raiseErr]

/-- R88, R127: bit `p` of packed bytes is bit `p` of the sequence, and 0 past its end. -/
theorem bytesOfBits_bit {m : Nat} {bits : Bits} (hfit : bits.length ≤ 8 * m) (p : Nat) :
    ((bytesOfBits m bits).getD (p / 8) 0).getLsbD (7 - p % 8) = bits.getD p false := by
  rw [← bitsOfBytes_getD, bitsOfBytes_bytesOfBits m bits hfit]
  by_cases hp : p < bits.length
  · exact List.getD_append _ _ _ _ hp
  · rw [List.getD_append_right _ _ _ _ (Nat.le_of_not_lt hp), List.getD_eq_default _ _ (Nat.le_of_not_lt hp)]
    simp

/-- R271: what packing answers when every byte has a code. -/
theorem packbits_of_coded {tab : SymTable Bits} {data : List Byte} {bits : Bits} {m : Nat}
    (hcoded : ∀ b ∈ data, tab.at b ≠ []) (hbits : bits = data.flatMap fun b => tab.at b)
    (hm : m = (bits.length + 7) / 8) : packbits data tab = .ok (bytesOfBits m bits, 8 * m - bits.length) := by
  subst hbits hm
  exact packbits_eq_ok.2 ⟨hcoded, rfl, rfl⟩

/-- Settles O28: R273, with `raise` and `finish` written out by R351 and R157. NO_CODE's number is below SLEN, so
it fits ERRINFO. -/
theorem packWritesTheCodeBits : Obligations.PackWritesTheCodeBits := by
  unfold Obligations.PackWritesTheCodeBits
  refine ⟨decode_encode .pack, fun s => ⟨fun hnone => ?noCodes, fun tab hs => ⟨fun hr => ?srcRange,
    fun hr => ⟨fun i hi hcode hbefore => ?noCode, fun bits m hcoded hbits hm => ?packed⟩⟩⟩⟩
  case noCodes => exact next_failed_of_raise (exec_pack_of_noCodes hnone) (by decide)
  case srcRange => exact next_failed_of_raise (exec_pack_of_srcRange hs hr) (by decide)
  case noCode =>
    have hlt : i < s.srcBytes.length := by rwa [srcBytes_length]
    have hp : packbits s.srcBytes tab = raiseErr (.noCode i) :=
      packbits_of_noCode hlt (by rwa [srcBytes_getElem])
        fun j hj => by rw [srcBytes_getElem]; exact hbefore j hj
    have hfits : i < 2 ^ 32 := hi.trans s.slen.isLt
    exact next_failed_of_raise (exec_pack_of_raised hs hr hp) hfits
  case packed =>
    have hp := packbits_of_coded hcoded hbits hm
    have hlen : (bytesOfBits m bits).length = m := bytesOfBits_length m bits
    refine ⟨fun hdr => ?dstRange, fun hdr hc hfits => ?full, fun hdr hc => ⟨fun ho => ?overlap, fun ho => ?written⟩⟩
    case dstRange => exact next_failed_of_raise (exec_pack_of_dst hs hr hp hlen (checkDst_range hdr)) (by decide)
    case full => exact next_failed_of_raise (exec_pack_of_dst hs hr hp hlen (checkDst_full hdr hc)) hfits
    case overlap =>
      exact next_failed_of_raise (exec_pack_of_dst hs hr hp hlen (checkDst_overlap hdr hc ho)) (by decide)
    case written =>
      have hexec := exec_pack_of_fits hs hr hp hlen (checkDst_eq_ok.2 ⟨hdr, hc, ho⟩)
      refine ⟨_, hexec, fun p hp => ?_, fun a ha => storeDst_dmem_out s _ (hlen.symm ▸ ha), ?_⟩
      · have hbyte : (s.storeDst (bytesOfBits m bits)).dmem (s.dst.toNat + p / 8) =
            (bytesOfBits m bits).getD (p / 8) 0 := by
          rw [storeDst_dmem, if_pos (by omega), Nat.add_sub_cancel_left]
        exact hbyte ▸ bytesOfBits_bit (by omega) p
      · rw [finish_eq_succeeded, BitVec.ofNat_toNat, BitVec.setWidth_eq]
        rfl

/-! ### Decoding (R272) -/

/-- R272: a descent that ends at a leaf has used the bits of the path to it. -/
theorem exists_path_of_descend {t : HTree} {bs rest : Bits} {x : Byte} (h : t.descend bs = some (x, rest)) :
    ∃ p, bs = p ++ rest ∧ t.descend p = some (x, []) := by
  induction t generalizing bs with
  | leaf s =>
    cases h
    exact ⟨[], rfl, rfl⟩
  | node l r ihl ihr =>
    cases bs with
    | nil => cases h
    | cons b bs =>
      cases b with
      | false =>
        obtain ⟨p, hp, hd⟩ := ihl h
        exact ⟨false :: p, congrArg _ hp, hd⟩
      | true =>
        obtain ⟨p, hp, hd⟩ := ihr h
        exact ⟨true :: p, congrArg _ hp, hd⟩

/-- R272: the bits begin with the paths to the leaves of the symbols `out`, and `rest` is left. -/
def BeginsWithPaths (t : HTree) (bs : Bits) (paths : List Bits) (out : List Byte) (rest : Bits) : Prop :=
  paths.map t.descend = out.map (fun x => some (x, [])) ∧ bs = paths.flatten ++ rest

theorem BeginsWithPaths.cons {t : HTree} {p bs rest : Bits} {x : Byte} {paths : List Bits} {out : List Byte}
    (hp : t.descend p = some (x, [])) (h : BeginsWithPaths t bs paths out rest) :
    BeginsWithPaths t (p ++ bs) (p :: paths) (x :: out) rest := by
  obtain ⟨hpaths, hbs⟩ := h
  exact ⟨by rw [List.map_cons, List.map_cons, hp, hpaths], by rw [hbs, List.flatten_cons, List.append_assoc]⟩

/-- R272: `n` symbols decoded, or the number of the symbol inside whose path the bits end. -/
theorem decodeFrom_cases (t : HTree) (n k : Nat) (bs : Bits) :
    (∃ paths out rest, paths.length = n ∧ BeginsWithPaths t bs paths out rest ∧
      decodeFrom t n k bs = .ok (out, rest)) ∨
    (∃ paths out rest, paths.length < n ∧ BeginsWithPaths t bs paths out rest ∧ t.descend rest = none ∧
      decodeFrom t n k bs = .error (.raised (.truncatedStream (k + paths.length)))) := by
  induction n generalizing k bs with
  | zero => exact .inl ⟨[], [], bs, rfl, ⟨rfl, rfl⟩, rfl⟩
  | succ n ih =>
    rw [decodeFrom]
    cases hd : t.descend bs with
    | none => exact .inr ⟨[], [], bs, Nat.succ_pos n, ⟨rfl, rfl⟩, hd, rfl⟩
    | some p =>
      obtain ⟨x, bs1⟩ := p
      obtain ⟨path, rfl, hpath⟩ := exists_path_of_descend hd
      dsimp only
      obtain ⟨paths, out, rest, hlen, hbegins, hok⟩ | ⟨paths, out, rest, hlen, hbegins, hnone, herr⟩ := ih (k + 1) bs1
      · exact .inl ⟨path :: paths, x :: out, rest, congrArg (· + 1) hlen, hbegins.cons hpath, by rw [hok, cmd_bind_ok]⟩
      · refine .inr ⟨path :: paths, x :: out, rest, Nat.succ_lt_succ hlen, hbegins.cons hpath, hnone, ?_⟩
        rw [herr, cmd_bind_error, List.length_cons, Nat.add_right_comm, Nat.add_assoc]

/-- Settles O29: R272. -/
theorem unpackbitsDecodesOrRunsOut : Obligations.UnpackbitsDecodesOrRunsOut := by
  unfold Obligations.UnpackbitsDecodesOrRunsOut
  intro l r bytes count
  obtain ⟨paths, out, rest, hlen, ⟨hpaths, hbits⟩, hok⟩ | ⟨paths, out, rest, hlen, ⟨hpaths, hbits⟩, hnone, herr⟩ :=
    decodeFrom_cases (.node l r) count 0 (bitsOfBytes bytes)
  · refine .inl ⟨paths, out, rest, hlen, hpaths, hbits, ?_⟩
    have hused : 8 * bytes.length - rest.length = paths.flatten.length := by
      rw [← bitsOfBytes_length, hbits, List.length_append, Nat.add_sub_cancel]
    rw [unpackbits, hok, cmd_bind_ok]
    dsimp only
    rw [hused, ceil8]
  · refine .inr ⟨paths.length, paths, out, rest, hlen, rfl, hpaths, hbits, hnone, ?_⟩
    rw [unpackbits, herr, cmd_bind_error, Nat.zero_add]

end Sys2Proof.Machine
end

section
/-! PROOFS. The shape of a built tree: every leaf at the floor or the ceiling of log2 of the number of symbols
(spec/42_tree_builder.md R202, R206). -/

namespace Sys2Proof.Machine

/-! ### Leaf depths -/

theorem positions_succ (t : HTree) (d : Nat) :
    t.positions (d + 1) = (t.positions d).map fun p => (p.1 + 1, p.2) := by
  induction t generalizing d with
  | leaf s => rfl
  | node l r ihl ihr => rw [HTree.positions, HTree.positions, ihl, ihr, List.map_append]

/-- Every leaf's depth has the property `P`. -/
def DepthsIn (P : Nat → Prop) (t : HTree) : Prop := ∀ p ∈ t.positions 0, P p.1

theorem depthsIn_leaf {P : Nat → Prop} {x : Byte} : DepthsIn P (.leaf x) ↔ P 0 := by
  simp [DepthsIn, HTree.positions]

theorem depthsIn_node {P : Nat → Prop} {l r : HTree} :
    DepthsIn P (.node l r) ↔ DepthsIn (fun d => P (d + 1)) l ∧ DepthsIn (fun d => P (d + 1)) r := by
  simp only [DepthsIn, HTree.positions, positions_succ, List.forall_mem_append, List.forall_mem_map]

theorem DepthsIn.mono {P Q : Nat → Prop} {t : HTree} (h : DepthsIn P t) (hPQ : ∀ d, P d → Q d) : DepthsIn Q t :=
  fun p hp => hPQ p.1 (h p hp)

/-- A tree whose every leaf has the depth `k`. -/
abbrev FullAt (k : Nat) : HTree → Prop := DepthsIn (· = k)

/-- A tree whose every leaf has the depth `k` or `k + 1`. -/
abbrev Within (k : Nat) : HTree → Prop := DepthsIn fun d => d = k ∨ d = k + 1

theorem fullAt_node {k : Nat} {l r : HTree} (hl : FullAt k l) (hr : FullAt k r) : FullAt (k + 1) (.node l r) :=
  depthsIn_node.2 ⟨hl.mono fun _ h => congrArg (· + 1) h, hr.mono fun _ h => congrArg (· + 1) h⟩

theorem within_node_iff {k : Nat} {l r : HTree} : Within (k + 1) (.node l r) ↔ Within k l ∧ Within k r := by
  simp only [Within, depthsIn_node, Nat.add_right_cancel_iff]

theorem FullAt.within {k : Nat} {t : HTree} (h : FullAt k t) : Within k t := h.mono fun _ => .inl

theorem FullAt.within_succ {k : Nat} {t : HTree} (h : FullAt (k + 1) t) : Within k t := h.mono fun _ => .inr

/-! ### The merge queue (R202) -/

/-- The invariant of the merge queue: from its head on, the trees already merged in this round, one tree that may be
uneven, and the trees still to be merged in this round. -/
def BalancedQueue (q : List HTree) : Prop :=
  ∃ k merged t waiting, q = merged ++ t :: waiting ∧ (∀ u ∈ merged, FullAt (k + 1) u) ∧ Within k t ∧
    ∀ u ∈ waiting, FullAt k u

/-- R206: a merge takes two waiting trees; or the last waiting tree and the uneven one, which ends the round; or, no
tree waiting, the uneven one and the first merged one, which begins a round. -/
theorem mergeOnce_balanced {q : List HTree} (h : BalancedQueue q) : BalancedQueue (mergeOnce q) := by
  obtain ⟨k, merged, t, waiting, rfl, hmerged, ht, hwaiting⟩ := h
  obtain rfl | ⟨waiting', a, rfl⟩ := waiting.eq_nil_or_concat'
  · obtain rfl | ⟨merged', b, rfl⟩ := merged.eq_nil_or_concat'
    · exact ⟨k, [], t, [], rfl, nofun, ht, nofun⟩
    · rw [List.forall_mem_append, List.forall_mem_singleton] at hmerged
      obtain ⟨hmerged', hb⟩ := hmerged
      rw [List.append_assoc, List.singleton_append, mergeOnce_append]
      exact ⟨k + 1, [], .node t b, merged', rfl, nofun, within_node_iff.2 ⟨ht, hb.within_succ⟩, hmerged'⟩
  · rw [List.forall_mem_append, List.forall_mem_singleton] at hwaiting
    obtain ⟨hwaiting', ha⟩ := hwaiting
    obtain rfl | ⟨waiting'', b, rfl⟩ := waiting'.eq_nil_or_concat'
    · rw [List.nil_append, mergeOnce_append]
      exact ⟨k + 1, [], .node a t, merged, rfl, nofun, within_node_iff.2 ⟨ha.within, ht⟩, hmerged⟩
    · rw [List.forall_mem_append, List.forall_mem_singleton] at hwaiting'
      obtain ⟨hwaiting'', hb⟩ := hwaiting'
      have htail : merged ++ t :: (waiting'' ++ [b] ++ [a]) = (merged ++ t :: waiting'') ++ [b, a] := by simp
      rw [htail, mergeOnce_append]
      exact ⟨k, .node a b :: merged, t, waiting'', rfl,
        List.forall_mem_cons.2 ⟨fullAt_node ha hb, hmerged⟩, ht, hwaiting''⟩

theorem mergeLoop_balanced (n : Nat) {q : List HTree} (h : BalancedQueue q) : BalancedQueue (mergeLoop n q) := by
  induction n generalizing q with
  | zero => exact h
  | succ n ih => exact ih (mergeOnce_balanced h)

/-- R202: the loop begins with leaves alone. -/
theorem balancedQueue_leaves {syms : List Byte} (h : syms ≠ []) : BalancedQueue (syms.map .leaf) := by
  obtain ⟨x, xs, rfl⟩ := List.exists_cons_of_ne_nil h
  refine ⟨0, [], .leaf x, xs.map .leaf, rfl, nofun, depthsIn_leaf.2 (.inl rfl), ?_⟩
  exact List.forall_mem_map.2 fun y _ => depthsIn_leaf.2 rfl

/-- R206: a queue of one tree holds a balanced tree. -/
theorem within_of_balanced_single {t : HTree} (h : BalancedQueue [t]) : ∃ k, Within k t := by
  obtain ⟨k, merged, u, waiting, hq, -, hu, -⟩ := h
  obtain ⟨rfl, hq⟩ | ⟨rfl, hq⟩ := List.singleton_eq_append_iff.1 hq
  · cases hq
    exact ⟨k, hu⟩
  · cases hq

/-! ### Depths and the number of leaves -/

/-- A tree whose every leaf has the depth 0 is a leaf. -/
theorem nodes_of_fullAt_zero {t : HTree} (h : FullAt 0 t) : t.nodes = 0 := by
  cases t with
  | leaf x => rfl
  | node l r =>
    obtain ⟨hl, -⟩ := depthsIn_node.1 h
    have hlen := positions_length l 0
    obtain ⟨p, hp⟩ := List.exists_mem_of_length_pos (l := l.positions 0) (by omega)
    exact absurd (hl p hp) (Nat.succ_ne_zero _)

/-- R206: `2 ^ k` to `2 ^ (k + 1)` leaves at the depths `k` and `k + 1`; fewer than the most where one has the
depth `k`, and more than the least where one has the depth `k + 1`. -/
theorem leaves_of_within {k : Nat} {t : HTree} (h : Within k t) :
    2 ^ k ≤ t.nodes + 1 ∧ t.nodes + 1 ≤ 2 ^ (k + 1) ∧
      ∀ p ∈ t.positions 0, (p.1 = k → t.nodes + 1 < 2 ^ (k + 1)) ∧ (p.1 = k + 1 → 2 ^ k < t.nodes + 1) := by
  induction k generalizing t with
  | zero =>
    cases t with
    | leaf x => simp [HTree.nodes, HTree.positions]
    | node l r =>
      obtain ⟨hl, hr⟩ := depthsIn_node.1 h
      have hl0 := nodes_of_fullAt_zero (hl.mono fun d hd => by omega)
      have hr0 := nodes_of_fullAt_zero (hr.mono fun d hd => by omega)
      simp only [HTree.nodes, hl0, hr0]
      refine ⟨by decide, by decide, fun p hp => ⟨fun hp0 => ?_, fun _ => by decide⟩⟩
      rw [HTree.positions, positions_succ, positions_succ, List.mem_append, List.mem_map, List.mem_map] at hp
      obtain ⟨q, -, rfl⟩ | ⟨q, -, rfl⟩ := hp <;> cases hp0
  | succ k ih =>
    cases t with
    | leaf x =>
      have h0 := depthsIn_leaf.1 h
      omega
    | node l r =>
      obtain ⟨hl, hr⟩ := within_node_iff.1 h
      obtain ⟨hlmin, hlmax, hldepths⟩ := ih hl
      obtain ⟨hrmin, hrmax, hrdepths⟩ := ih hr
      have hpow := Nat.pow_succ 2 k
      have hpow' := Nat.pow_succ 2 (k + 1)
      simp only [HTree.nodes]
      refine ⟨by omega, by omega, fun p hp => ?_⟩
      rw [HTree.positions, positions_succ, positions_succ, List.mem_append, List.mem_map, List.mem_map] at hp
      obtain ⟨q, hq, rfl⟩ | ⟨q, hq, rfl⟩ := hp
      · have hq' := hldepths q hq
        dsimp only
        omega
      · have hq' := hrdepths q hq
        dsimp only
        omega

/-- R206: the two depths are the floor and the ceiling of log2 of the number of leaves. -/
theorem depth_of_within {k : Nat} {t : HTree} (h : Within k t) {p : Nat × Byte} (hp : p ∈ t.positions 0) :
    p.1 = Nat.log 2 (t.nodes + 1) ∨ p.1 = Nat.clog 2 (t.nodes + 1) := by
  obtain ⟨hmin, hmax, hdepths⟩ := leaves_of_within h
  obtain ⟨hfloor, hceil⟩ := hdepths p hp
  obtain hk | hk := h p hp
  · exact .inl (hk.trans (Nat.log_eq_of_pow_le_of_lt_pow hmin (hfloor hk)).symm)
  · have hle : Nat.clog 2 (t.nodes + 1) ≤ k + 1 := Nat.clog_le_of_le_pow hmax
    have hlt : k < Nat.clog 2 (t.nodes + 1) := (Nat.lt_clog_iff_pow_lt (by decide)).2 (hceil hk)
    exact .inr (by omega)

/-- R202: from two present symbols on, `build` is the merge loop on their leaves. -/
theorem build_of_two {h : SymTable Word} (h2 : 2 ≤ (order h).length) :
    build h = (mergeLoop (order h).length ((order h).map .leaf)).head? := by
  unfold build
  match order h, h2 with
  | _ :: _ :: _, _ => rfl

/-- Settles O17: R206. The queue stays balanced, and the tree it ends with has one leaf for each present symbol. -/
theorem builtTreesAreBalanced : Obligations.BuiltTreesAreBalanced := by
  unfold Obligations.BuiltTreesAreBalanced
  refine ⟨fun h h2 => ?_, fun h h' ho => by rw [build, build, ho]⟩
  have hne : order h ≠ [] := List.ne_nil_of_length_pos (by omega)
  obtain ⟨t, hloop, hperm⟩ := mergeLoop_spec (order h).length ((order h).map .leaf) (by simpa using hne) (by simp)
  have hsyms : t.leafSyms.Perm (order h) := by simpa [List.flatMap_map] using hperm
  have hnodes : t.nodes + 1 = (order h).length := by rw [← hsyms.length_eq, leafSyms_length]
  obtain ⟨k, hk⟩ := within_of_balanced_single (hloop ▸ mergeLoop_balanced _ (balancedQueue_leaves hne))
  refine ⟨t, ?_, hsyms, hnodes, fun p hp => hnodes ▸ depth_of_within hk hp⟩
  rw [build_of_two h2, hloop, List.head?_cons]

end Sys2Proof.Machine
end

section
/-! PROOFS. The optimizer: its errors, the shape it keeps, and the assignment it makes (spec/46_optimizer.md R301 to
R304; spec/60_exceptions.md R354). -/

namespace Sys2Proof.Machine

/-! ### SYMSET_MISMATCH (R354) -/

/-- R302: the least symbol in exactly one of the two sets is the one found. -/
theorem firstMismatch_eq_some {syms : List Byte} {h : SymTable Word} {x : Byte} (hx : ¬(x ∈ syms ↔ h.at x ≠ 0))
    (hlt : ∀ y : Byte, y.toNat < x.toNat → (y ∈ syms ↔ h.at y ≠ 0)) : firstMismatch syms h = some x := by
  rw [firstMismatch_eq]
  refine find?_allSymbols_eq_some ?_ fun y hy => ?_
  · rw [bne_iff_ne, ne_eq, decide_eq_decide]
    exact hx
  · rw [bne_eq_false_iff_eq, decide_eq_decide]
    exact hlt y hy

/-- R302: the least symbol on two or more leaves is the one found. -/
theorem firstRepeat_eq_some {syms : List Byte} {x : Byte} (hx : 2 ≤ syms.count x)
    (hlt : ∀ y : Byte, y.toNat < x.toNat → syms.count y < 2) : firstRepeat syms = some x :=
  find?_allSymbols_eq_some (decide_eq_true hx) fun y hy => decide_eq_false (Nat.not_le.2 (hlt y hy))

theorem optimize_of_mismatch {t : HTree} {h : SymTable Word} {x : Byte} (hm : firstMismatch t.leafSyms h = some x) :
    optimize t h = raiseErr (.symsetMismatch x.toNat) := by
  simp only [optimize, hm]

theorem optimize_of_repeat {t : HTree} {h : SymTable Word} {x : Byte} (hm : firstMismatch t.leafSyms h = none)
    (hp : (present h).length ≠ 1) (hr : firstRepeat t.leafSyms = some x) :
    optimize t h = raiseErr (.symsetMismatch (0x100 ||| x.toNat)) := by
  simp only [optimize, hm, if_neg hp, hr]

/-- R354: a symbol's number beside the bit 0x100. -/
theorem ofNat_or_symbol (x : Byte) : BitVec.ofNat 32 (0x100 ||| x.toNat) = 0x100 + x.setWidth 32 := by
  have hx : x.toNat < 2 ^ 8 := x.isLt
  have hor : 0x100 ||| x.toNat = 0x100 + x.toNat := (Nat.shiftLeft_add_eq_or_of_lt hx 1).symm
  apply BitVec.eq_of_toNat_eq
  rw [hor, BitVec.toNat_add, BitVec.toNat_setWidth, BitVec.toNat_ofNat]
  change _ = (0x100 + x.toNat % 2 ^ 32) % 2 ^ 32
  omega

/-- Settles O36: R354, with `raise` written out by R351. -/
theorem symbolSetMismatchIsReported : Obligations.SymbolSetMismatchIsReported := by
  unfold Obligations.SymbolSetMismatchIsReported
  refine fun s recs t x hs ht => ⟨fun hx hlt => ?mismatch, fun hsets h2 hx hlt => ?repeated⟩
  case mismatch =>
    have hfits : x.toNat < 2 ^ 32 := x.isLt.trans (by decide)
    have ho := optimize_of_mismatch (firstMismatch_eq_some hx hlt)
    exact (next_failed_of_raise (exec_optimize_of_raised hs ht ho) hfits).trans
      (by rw [CmdErr.info, BitVec.ofNat_toNat, CmdErr.code])
  case repeated =>
    rw [← present_eq] at h2
    have ho := optimize_of_repeat (firstMismatch_eq_none.2 hsets) (by omega) (firstRepeat_eq_some hx hlt)
    have hfits : 0x100 ||| x.toNat < 2 ^ 32 := (optimize_symsetMismatch_lt ho).trans (by decide)
    exact (next_failed_of_raise (exec_optimize_of_raised hs ht ho) hfits).trans
      (by rw [CmdErr.info, ofNat_or_symbol, CmdErr.code])

/-! ### The records of the optimized tree (R304) -/

/-- R304: two records with the same boolean bytes and the same value bytes of internal children. -/
def SameInner (a b : NodeRec) : Prop :=
  a.lk = b.lk ∧ a.rk = b.rk ∧ (a.lk = 1 → a.lv = b.lv) ∧ (a.rk = 1 → a.rv = b.rv)

/-- R205: a relabelling changes the value byte of a leaf child alone. -/
theorem childField_relabel (t : HTree) (xs : List Byte) (n : Nat) :
    (childField t n).1 = (childField (t.relabel xs).1 n).1 ∧
      ((childField t n).1 = 1 → (childField t n).2 = (childField (t.relabel xs).1 n).2) := by
  cases t with
  | leaf s => cases xs <;> exact ⟨rfl, nofun⟩
  | node l r => exact ⟨rfl, fun _ => rfl⟩

/-- R304: the records of a relabelled tree, one by one. -/
theorem number_relabel (t : HTree) (xs : List Byte) (n : Nat) :
    List.Forall₂ SameInner (t.number n).1 ((t.relabel xs).1.number n).1 := by
  induction t generalizing xs n with
  | leaf s => cases xs <;> exact .nil
  | node l r ihl ihr =>
    rw [relabel_node, number_node, number_node, relabel_nodes, relabel_nodes]
    obtain ⟨hlk, hlv⟩ := childField_relabel l xs (n + l.nodes - 1)
    obtain ⟨hrk, hrv⟩ := childField_relabel r (l.relabel xs).2 (n + l.nodes + r.nodes - 1)
    exact List.rel_append (List.rel_append (ihl xs n) (ihr _ _)) (.cons ⟨hlk, hrk, hlv, hrv⟩ .nil)

theorem sameInner_of_getElem? {as bs : List NodeRec} (h : List.Forall₂ SameInner as bs) {i : Nat} {a b : NodeRec}
    (ha : as[i]? = some a) (hb : bs[i]? = some b) : SameInner a b := by
  obtain ⟨hi, rfl⟩ := List.getElem?_eq_some_iff.1 ha
  obtain ⟨hi', rfl⟩ := List.getElem?_eq_some_iff.1 hb
  exact h.get hi hi'

/-- R302: the symbols that the optimizer assigns to the leaf positions of a tree, in DFS order. -/
def assignedSyms (t : HTree) (h : SymTable Word) : List Byte :=
  assignSyms (positionOrder ((t.positions 0).map Prod.fst)) (order h)

/-- R302: the optimizer's two successes: the tree as it is, with one symbol present, or the tree with the assigned
symbols, when no symbol is on two leaves. -/
theorem optimize_ok_cases {t t' : HTree} {h : SymTable Word} {n : Nat} (ho : optimize t h = .ok (t', n)) :
    (∀ x, x ∈ t.leafSyms ↔ h.at x ≠ 0) ∧
    (((present h).length = 1 ∧ t' = t) ∨
     ((present h).length ≠ 1 ∧ t.leafSyms.Nodup ∧ t' = (t.relabel (assignedSyms t h)).1)) := by
  obtain ⟨hsets, ⟨h1, ht, -⟩ | ⟨h1, hn, ht, -⟩⟩ := optimize_eq_ok ho
  · exact ⟨hsets, .inl ⟨h1, ht⟩⟩
  · exact ⟨hsets, .inr ⟨h1, hn, ht⟩⟩

/-- Settles O32: R304. -/
theorem optimizeKeepsTheShape : Obligations.OptimizeKeepsTheShape := by
  unfold Obligations.OptimizeKeepsTheShape
  intro l r t' h n ho
  obtain ⟨hnodes, hdepths, hsyms⟩ := optimize_shape ho
  refine ⟨hdepths, hsyms, by rw [records_length, records_length, hnodes], fun i a b ha hb => ?_⟩
  obtain ⟨-, ⟨-, rfl⟩ | ⟨-, -, rfl⟩⟩ := optimize_ok_cases ho
  · obtain rfl := Option.some.inj (ha.symm.trans hb)
    exact ⟨rfl, rfl, fun _ => rfl, fun _ => rfl⟩
  · exact sameInner_of_getElem? (number_relabel _ _ 0) ha hb

/-! ### The assignment (R302) -/

theorem shallower_iff {depths : List Nat} {i j : Nat} : shallower depths i j = true ↔
    depths.getD i 0 < depths.getD j 0 ∨ (depths.getD i 0 = depths.getD j 0 ∧ i ≤ j) := decide_eq_true_iff

theorem positionOrder_sorted (depths : List Nat) :
    (positionOrder depths).Pairwise fun i j => shallower depths i j = true := by
  have htotal : Std.Total fun i j => shallower depths i j = true :=
    ⟨fun i j => by simp only [shallower_iff]; omega⟩
  have htrans : IsTrans Nat fun i j => shallower depths i j = true :=
    ⟨fun i j k hij hjk => by rw [shallower_iff] at *; omega⟩
  exact List.pairwise_insertionSort _ _

/-- R201: the symbol order, strict between two positions. -/
theorem order_strict (h : SymTable Word) : (order h).Pairwise fun a b =>
    (h.at b).toNat < (h.at a).toNat ∨ ((h.at a).toNat = (h.at b).toNat ∧ a.toNat < b.toNat) :=
  (order_sorted h).imp₂ (fun _ _ => ranksBefore_strict) (order_nodup h)

section
variable {t : HTree} {h : SymTable Word} (hsyms : t.leafSyms.Perm (order h))
include hsyms

/-- R302: as many positions as symbols. -/
theorem positionOrder_length_eq : (positionOrder ((t.positions 0).map Prod.fst)).length = (order h).length := by
  rw [positionOrder_length, ← hsyms.length_eq, leafSyms_length]

/-- R302: position `i` is some `pi[k]`, and gets the symbol `sigma[k]`. -/
theorem exists_rank_of_position {i : Nat} (hi : i < t.nodes + 1) :
    ∃ (k : Nat) (hk : k < (positionOrder ((t.positions 0).map Prod.fst)).length) (hk' : k < (order h).length),
      (positionOrder ((t.positions 0).map Prod.fst))[k] = i ∧ (assignedSyms t h)[i]? = some (order h)[k] := by
  have hperm := positionOrder_perm ((t.positions 0).map Prod.fst)
  have hlen := positionOrder_length_eq hsyms
  have hmem : i ∈ positionOrder ((t.positions 0).map Prod.fst) := by
    rw [hperm.mem_iff, List.mem_range, List.length_map, positions_length]
    exact hi
  obtain ⟨k, hk, rfl⟩ := List.mem_iff_getElem.1 hmem
  have hk' : k < (order h).length := hlen ▸ hk
  have hlt : ∀ j ∈ positionOrder ((t.positions 0).map Prod.fst),
      j < (positionOrder ((t.positions 0).map Prod.fst)).length := by
    intro j hj
    rw [hperm.length_eq, List.length_range]
    exact List.mem_range.1 (hperm.mem_iff.1 hj)
  refine ⟨k, hk, hk', rfl, ?_⟩
  rw [assignedSyms, assignSyms_getElem? (hperm.nodup_iff.2 List.nodup_range) hlen hlt hk,
    List.getElem?_eq_getElem hk']

/-- R302: of two positions, the one of smaller depth, or of equal depth and smaller number, gets the symbol of
greater count, or of equal count and smaller value. -/
theorem assignedSyms_pairwise {i j di dj : Nat} {x y : Byte} (hdi : ((t.positions 0).map Prod.fst)[i]? = some di)
    (hdj : ((t.positions 0).map Prod.fst)[j]? = some dj) (hx : (assignedSyms t h)[i]? = some x)
    (hy : (assignedSyms t h)[j]? = some y) (hij : di < dj ∨ (di = dj ∧ i < j)) :
    (h.at y).toNat < (h.at x).toNat ∨ ((h.at x).toNat = (h.at y).toNat ∧ x.toNat < y.toNat) := by
  obtain ⟨hi, -⟩ := List.getElem?_eq_some_iff.1 hdi
  obtain ⟨hj, -⟩ := List.getElem?_eq_some_iff.1 hdj
  rw [List.length_map, positions_length] at hi hj
  obtain ⟨k, hk, hk', hpik, hsk⟩ := exists_rank_of_position hsyms hi
  obtain ⟨m, hm, hm', hpim, hsm⟩ := exists_rank_of_position hsyms hj
  obtain rfl := Option.some.inj (hx.symm.trans hsk)
  obtain rfl := Option.some.inj (hy.symm.trans hsm)
  have hnot : ¬ shallower ((t.positions 0).map Prod.fst) j i = true := by
    rw [shallower_iff, List.getD_eq_getElem?_getD, List.getD_eq_getElem?_getD, hdi, hdj]
    dsimp only [Option.getD_some]
    omega
  have hkm : k < m := by
    obtain hlt | rfl | hgt := Nat.lt_trichotomy k m
    · exact hlt
    · rw [hpik] at hpim
      subst hpim
      rw [hdi] at hdj
      cases hdj
      omega
    · have hsorted := List.pairwise_iff_getElem.1 (positionOrder_sorted _) m k hm hk hgt
      rw [hpik, hpim] at hsorted
      exact absurd hsorted hnot
  exact List.pairwise_iff_getElem.1 (order_strict h) k m hk' hm' hkm

end

/-- R302: the depths and the symbols of the relabelled tree's positions. -/
theorem positions_relabel_assigned {t : HTree} {h : SymTable Word} {i d : Nat} {x : Byte}
    (hp : ((t.relabel (assignedSyms t h)).1.positions 0)[i]? = some (d, x)) :
    ((t.positions 0).map Prod.fst)[i]? = some d ∧ (assignedSyms t h)[i]? = some x := by
  have hfst := congrArg (Option.map Prod.fst) hp
  have hsnd := congrArg (Option.map Prod.snd) hp
  rw [← List.getElem?_map, relabel_depths] at hfst
  rw [← List.getElem?_map, positions_map_snd, assignedSyms, leafSyms_relabel_assignSyms] at hsnd
  exact ⟨hfst, hsnd⟩

/-- Settles O35: R302. -/
theorem optimizeAssignsPairwise : Obligations.OptimizeAssignsPairwise := by
  unfold Obligations.OptimizeAssignsPairwise
  intro l r t' h n ho h2 i j di dj x y hx hy hij
  rw [← present_eq] at h2
  obtain ⟨hsets, ⟨h1, -⟩ | ⟨-, hn, rfl⟩⟩ := optimize_ok_cases ho
  · omega
  · obtain ⟨hdi, hxi⟩ := positions_relabel_assigned hx
    obtain ⟨hdj, hyj⟩ := positions_relabel_assigned hy
    exact assignedSyms_pairwise (order_length_of_nodup hsets hn) hdi hdj hxi hyj hij

/-! ### Optimizing again (R304) -/

/-- R302: relabelled with its own symbols a tree is as it was. -/
theorem relabel_leafSyms_append (t : HTree) (rest : List Byte) : t.relabel (t.leafSyms ++ rest) = (t, rest) := by
  induction t generalizing rest with
  | leaf s => rfl
  | node l r ihl ihr =>
    rw [leafSyms_node, List.append_assoc, HTree.relabel, ihl]
    dsimp only
    rw [ihr]

theorem relabel_leafSyms_self (t : HTree) : (t.relabel t.leafSyms).1 = t := by
  have h := relabel_leafSyms_append t []
  rw [List.append_nil] at h
  rw [h]

/-- R302: with agreeing sets, one symbol present leaves the tree. -/
theorem optimize_of_one {t : HTree} {h : SymTable Word} (hsets : ∀ x, x ∈ t.leafSyms ↔ h.at x ≠ 0)
    (h1 : (present h).length = 1) : optimize t h = .ok (t, 0) := by
  simp only [optimize, firstMismatch_eq_none.2 hsets, if_pos h1]

/-- R302: with agreeing sets, distinct leaf symbols are assigned. -/
theorem optimize_of_distinct {t : HTree} {h : SymTable Word} (hsets : ∀ x, x ∈ t.leafSyms ↔ h.at x ≠ 0)
    (h1 : (present h).length ≠ 1) (hn : t.leafSyms.Nodup) : optimize t h = .ok ((t.relabel (assignedSyms t h)).1,
      (((assignedSyms t h).zip t.leafSyms).filter fun p => p.1 ≠ p.2).length) := by
  simp only [optimize, firstMismatch_eq_none.2 hsets, if_neg h1, firstRepeat_eq_none.2 hn]
  rfl

/-- Settles O34: R304. The optimized tree has the same positions, so it is assigned the symbols it carries. -/
theorem optimizeIsIdempotent : Obligations.OptimizeIsIdempotent := by
  unfold Obligations.OptimizeIsIdempotent
  intro l r t' h n ho
  obtain ⟨-, hdepths, hperm⟩ := optimize_shape ho
  obtain ⟨hsets, hcase⟩ := optimize_ok_cases ho
  have hsets' : ∀ x, x ∈ t'.leafSyms ↔ h.at x ≠ 0 := fun x => hperm.mem_iff.trans (hsets x)
  have hassigned : assignedSyms t' h = assignedSyms (.node l r) h := by rw [assignedSyms, assignedSyms, hdepths]
  obtain ⟨h1, -⟩ | ⟨h1, hn, ht'⟩ := hcase
  · exact optimize_of_one hsets' h1
  · have hown : assignedSyms t' h = t'.leafSyms := by
      rw [hassigned, ht', assignedSyms, leafSyms_relabel_assignSyms]
    rw [optimize_of_distinct hsets' h1 (hperm.nodup_iff.2 hn), hown, relabel_leafSyms_self, filter_zip_self_ne,
      List.length_nil]

/-! ### The least weighted length (R304) -/

/-- Two lists that are permutations of each other, position by position. -/
theorem exists_perm_getElem {xs ys : List Byte} {n : Nat} (hx : xs.length = n) (hy : ys.length = n)
    (hp : ys.Perm xs) : ∃ σ : Equiv.Perm (Fin n), ∀ i : Fin n, ys[i] = xs[σ i] := by
  subst hx
  have hinj : Function.Injective fun i : Fin xs.length => hp.idxBij (i.cast hy.symm) :=
    hp.idxBij_injective.comp (Fin.cast_injective _)
  refine ⟨.ofBijective _ (Finite.injective_iff_bijective.1 hinj), fun i => ?_⟩
  exact (hp.getElem_idxBij_eq_getElem (i.cast hy.symm)).symm

/-- A sum over two lists in step, position by position. -/
theorem sum_zip_eq {ds : List Nat} {xs : List Byte} {n : Nat} (hd : ds.length = n) (hx : xs.length = n)
    (w : Byte → Nat) : ((ds.zip xs).map fun p => p.1 * w p.2).sum = ∑ i : Fin n, ds[i] * w xs[i] := by
  rw [← List.sum_ofFn]
  congr 1
  refine List.ext_getElem (by simp [hd, hx]) fun i hi hi' => ?_
  simp

/-- R304: with the greater weight at the smaller number, the sum of products is the least over all permutations. -/
theorem sum_zip_le_of_perm {ds : List Nat} {xs ys : List Byte} (w : Byte → Nat) (hd : ds.length = xs.length)
    (hanti : ∀ (i j : Nat) (hi : i < xs.length) (hj : j < xs.length), ds[i] < ds[j] → w xs[j] ≤ w xs[i])
    (hp : ys.Perm xs) :
    ((ds.zip xs).map fun p => p.1 * w p.2).sum ≤ ((ds.zip ys).map fun p => p.1 * w p.2).sum := by
  obtain ⟨σ, hσ⟩ := exists_perm_getElem rfl hp.length_eq hp
  have hvary : Antivary (fun i : Fin xs.length => ds[i]) (fun i => w xs[i]) := by
    intro i j hij
    by_contra hlt
    exact absurd (hanti i j i.2 j.2 (Nat.not_le.1 hlt)) (Nat.not_le.2 hij)
  rw [sum_zip_eq hd rfl, sum_zip_eq hd hp.length_eq]
  simp only [hσ]
  exact hvary.sum_mul_le_sum_mul_comp_perm

/-- R301: a tree's positions are its depths and its leaf symbols in step. -/
theorem positions_eq_zip (t : HTree) : t.positions 0 = ((t.positions 0).map Prod.fst).zip t.leafSyms :=
  List.zip_of_prod rfl rfl

/-- R40: with one symbol present, the lists of that symbol of a length are all the same. -/
theorem eq_of_perm_of_one {h : SymTable Word} {xs ys : List Byte} (hsets : ∀ x ∈ xs, h.at x ≠ 0)
    (h1 : (present h).length = 1) (hp : ys.Perm xs) : ys = xs := by
  obtain ⟨s, hs⟩ := List.length_eq_one_iff.1 h1
  have hall : ∀ x ∈ xs, x = s := fun x hx => by
    rw [← List.mem_singleton, ← hs, mem_present]
    exact hsets x hx
  rw [List.eq_replicate_of_mem hall] at hp ⊢
  exact List.perm_replicate.1 hp

/-- Settles O33: R304. The pairing of R302 puts the greater count at the smaller depth. -/
theorem optimizeMinimisesTheWeightedLength : Obligations.OptimizeMinimisesTheWeightedLength := by
  unfold Obligations.OptimizeMinimisesTheWeightedLength
  intro l r t' h n ho syms hperm
  obtain ⟨-, hdepths, hsyms⟩ := optimize_shape ho
  have hlen : ((t'.positions 0).map Prod.fst).length = t'.leafSyms.length := by
    rw [List.length_map, positions_length, leafSyms_length]
  have hperm' : syms.Perm t'.leafSyms := hperm.trans hsyms.symm
  have hsum : ((t'.positions 0).map fun p => p.1 * (h.at p.2).toNat) =
      (((t'.positions 0).map Prod.fst).zip t'.leafSyms).map fun p => p.1 * (h.at p.2).toNat := by
    rw [← positions_eq_zip]
  rw [← hdepths, hsum]
  obtain ⟨hsets, ⟨h1, rfl⟩ | ⟨-, hn, ht'⟩⟩ := optimize_ok_cases ho
  · rw [eq_of_perm_of_one (fun x hx => (hsets x).1 hx) h1 hperm']
  · have hassigned : assignedSyms (.node l r) h = t'.leafSyms := by
      rw [ht', assignedSyms, leafSyms_relabel_assignSyms]
    refine sum_zip_le_of_perm (fun x => (h.at x).toNat) hlen (fun i j hi hj hlt => ?_) hperm'
    have hdepth (k : Nat) (hk : k < t'.leafSyms.length) : (((HTree.node l r).positions 0).map Prod.fst)[k]? =
        some (((t'.positions 0).map Prod.fst)[k]'(hlen ▸ hk)) := by
      rw [← hdepths, List.getElem?_eq_getElem]
    have hsym (k : Nat) (hk : k < t'.leafSyms.length) : (assignedSyms (.node l r) h)[k]? = some t'.leafSyms[k] := by
      rw [hassigned, List.getElem?_eq_getElem]
    have hpair := assignedSyms_pairwise (order_length_of_nodup hsets hn) (hdepth i hi) (hdepth j hj) (hsym i hi)
      (hsym j hj) (.inl hlt)
    omega

end Sys2Proof.Machine
end

section
/-! PROOFS. COMPRESS: the stream it writes, and the unit commands that leave the same (spec/47_codec.md R321, R322). -/

namespace Sys2Proof.Machine

/-! ### COMPRESS (R321): the ends of the command, in the order of its checks -/

section
variable {s : State} (o : Bool)

theorem exec_compress_of_srcRange (h : s.dmemSize < s.src.toNat + s.slen.toNat) :
    exec (compressInstr o) s = .next (raise (.range .source) s) := by
  rw [exec_compress, compressCmd, checkSrc_fails h, cmd_bind_raiseErr, conclude_raiseErr]

variable (hr : s.src.toNat + s.slen.toNat ≤ s.dmemSize)
include hr

theorem exec_compress_of_empty (hz : s.slen = 0) : exec (compressInstr o) s = .next (raise .emptyInput s) := by
  rw [exec_compress, compressCmd, checkSrc_passes hr, cmd_bind_ok, raiseIf_of hz, cmd_bind_raiseErr, conclude_raiseErr]

variable (hne : s.slen ≠ 0) {t0 t : HTree} (hbuild : build (histOf s.srcBytes) = some t0)
  (hopt : optimizeIf o t0 (histOf s.srcBytes) = .ok t) {packed : List Byte} {pad : Nat}
  (hpack : packbits s.srcBytes t.codes = .ok (packed, pad))
include hne hbuild hopt hpack

/-- R321: with the input packed, the destination decides. -/
theorem exec_compress_of_packed : exec (compressInstr o) s = conclude s
    (checkDst s (stream t.records s.slen packed).length s.slen.toNat >>= fun _ =>
      .ok ⟨{ s.storeDst (stream t.records s.slen packed) with
              hist := histOf s.srcBytes, tree := some t.records, code := some t.codes },
            (stream t.records s.slen packed).length, s.slen.toNat, pad⟩) := by
  have hcount : ¬ 255 < t.records.length := Nat.not_lt.2 (compress_records_le hbuild hopt)
  rw [exec_compress, compressCmd, checkSrc_passes hr, cmd_bind_ok, raiseIf_of_not hne, cmd_bind_ok]
  simp only [buildCmd_eq_ok.2 hbuild, cmd_bind_ok, hopt, raiseIf_of_not hcount, hpack]

theorem exec_compress_of_dst {e : CmdErr}
    (hd : checkDst s (stream t.records s.slen packed).length s.slen.toNat = raiseErr e) :
    exec (compressInstr o) s = .next (raise e s) := by
  rw [exec_compress_of_packed o hr hne hbuild hopt hpack, hd, cmd_bind_raiseErr, conclude_raiseErr]

theorem exec_compress_of_fits (hd : checkDst s (stream t.records s.slen packed).length s.slen.toNat = .ok ()) :
    exec (compressInstr o) s = .next (finish { s.storeDst (stream t.records s.slen packed) with
      hist := histOf s.srcBytes, tree := some t.records, code := some t.codes }
      (stream t.records s.slen packed).length s.slen.toNat pad) := by
  rw [exec_compress_of_packed o hr hne hbuild hopt hpack, hd, cmd_bind_ok, conclude_ok]

end

theorem srcBytes_length_lt (s : State) : s.srcBytes.length < 2 ^ 32 := srcBytes_length s ▸ s.slen.isLt

theorem slen_pos {s : State} (hne : s.slen ≠ 0) : 0 < s.slen.toNat :=
  Nat.pos_of_ne_zero fun h => hne (BitVec.eq_of_toNat_eq h)

/-- R40, R180: an input that is not empty has a present symbol. -/
theorem exists_build_srcBytes {s : State} (hne : s.slen ≠ 0) : ∃ t0, build (histOf s.srcBytes) = some t0 := by
  have hlen : 0 < s.srcBytes.length := srcBytes_length s ▸ slen_pos hne
  obtain ⟨x, hx⟩ := List.exists_mem_of_length_pos hlen
  exact exists_build ⟨x, (histOf_ne_zero (srcBytes_length_lt s) x).2 hx⟩

/-- R206, R246, R321: the records of COMPRESS's tree. -/
theorem compress_records {o : Bool} {h : SymTable Word} {t0 t : HTree} (hbuild : build h = some t0)
    (hopt : optimizeIf o t0 h = .ok t) :
    1 ≤ t.records.length ∧ t.records.length ≤ 255 ∧ parse t.records = .ok t := by
  obtain ⟨hmin, hmax⟩ := build_nodes hbuild
  rw [← optimizeIf_nodes hopt] at hmin hmax
  rw [records_length]
  exact ⟨hmin, hmax, parse_records_of_nodes hmin hmax⟩

theorem optimizeIf_true {t0 t : HTree} {h : SymTable Word} (ho : optimizeIf true t0 h = .ok t) :
    ∃ n, optimize t0 h = .ok (t, n) := by
  obtain ⟨⟨t', n⟩, hopt, hok⟩ := cmd_bind_eq_ok.1 ho
  cases hok
  exact ⟨n, hopt⟩

/-- Settles O38: R321, with `raise` and `finish` written out by R351 and R157. -/
theorem compressWritesTheStream : Obligations.CompressWritesTheStream := by
  unfold Obligations.CompressWritesTheStream
  refine ⟨decode_encode .compress, decode_encode .compressO, fun s o => ⟨fun hr => ?srcRange,
    fun hr => ⟨fun hz => ?empty, fun hne => ?packed⟩⟩⟩
  case srcRange => exact next_failed_of_raise (exec_compress_of_srcRange o hr) (by decide)
  case empty => exact next_failed_of_raise (exec_compress_of_empty o hr hz) (by decide)
  case packed =>
    obtain ⟨t0, hbuild⟩ := exists_build_srcBytes hne
    obtain ⟨t, hopt⟩ := optimizeIf_build_isOk o hbuild
    obtain ⟨packed, pad, hpack⟩ := compress_packbits_isOk (srcBytes_length_lt s) hbuild hopt
    obtain ⟨hmin, hmax, hparse⟩ := compress_records hbuild hopt
    refine ⟨histOf s.srcBytes, t0, t, packed, stream t.records s.slen packed, pad, histOf_at (srcBytes_length_lt s),
      hbuild, fun ho => ?plain, fun ho => ?optimized, hmin, hmax, hparse, hpack, rfl, fun hdr => ?dstRange,
      fun hdr hc hfits => ?full, fun hdr hc => ⟨fun ho => ?overlap, fun ho => ?written⟩⟩
    case plain =>
      subst ho
      cases hopt
      rfl
    case optimized =>
      subst ho
      exact optimizeIf_true hopt
    case dstRange =>
      exact next_failed_of_raise (exec_compress_of_dst o hr hne hbuild hopt hpack (checkDst_range hdr)) (by decide)
    case full =>
      exact next_failed_of_raise (exec_compress_of_dst o hr hne hbuild hopt hpack (checkDst_full hdr hc)) hfits
    case overlap =>
      exact next_failed_of_raise (exec_compress_of_dst o hr hne hbuild hopt hpack (checkDst_overlap hdr hc ho))
        (by decide)
    case written =>
      refine ⟨_, exec_compress_of_fits o hr hne hbuild hopt hpack (checkDst_eq_ok.2 ⟨hdr, hc, ho⟩), fun i hi => ?_,
        fun a ha => storeDst_dmem_out s _ ha, ?_⟩
      · have hbyte := List.getElem?_eq_getElem hi
        exact hbyte ▸ congrArg some (storeDst_dmem_of_getElem? s hbyte)
      · rw [finish_eq_succeeded, BitVec.ofNat_toNat, BitVec.setWidth_eq]
        rfl

/-! ### The unit commands, one after the other (R322) -/

theorem CommandKeeps.trans {s t u : State} (h : CommandKeeps s t) (h' : CommandKeeps t u) : CommandKeeps s u :=
  ⟨h'.cfg.trans h.cfg, h'.ie.trans h.ie, h'.accErr.trans h.accErr, h'.cmd.trans h.cmd, h'.src.trans h.src,
    h'.slen.trans h.slen, h'.dst.trans h.dst, h'.dcap.trans h.dcap, h'.cnt.trans h.cnt, h'.histIdx.trans h.histIdx,
    h'.codeIdx.trans h.codeIdx, h'.nodeIdx.trans h.nodeIdx, h'.draw.trans h.draw, h'.host.trans h.host,
    h'.delay.trans h.delay, h'.delays.trans h.delays, h'.rdata.trans h.rdata⟩

/-- R180, R182: the counts added to an empty histogram. -/
theorem addCounts_emptyHist (data : List Byte) : addCounts emptyHist data = histOf data := by
  refine SymTable.ext_at fun x => ?_
  rw [addCounts, SymTable.at_update, emptyHist_at, histOf, SymTable.at_tabulate]
  exact congrArg (BitVec.ofNat 32) (Nat.zero_add _)

/-- R322: HIST_CLEAR, HIST_ACC and BUILD leave the input's histogram and its tree. -/
theorem units_build {s : State} {t0 : HTree} (hr : s.src.toNat + s.slen.toNat ≤ s.dmemSize)
    (hbuild : build (histOf s.srcBytes) = some t0) :
    ∃ s1 s2 s3, exec .histClear s = .next s1 ∧ exec .histAcc s1 = .next s2 ∧ s2.errCode = 0 ∧
      exec .build s2 = .next s3 ∧ s3.errCode = 0 ∧
      s3.hist = histOf s.srcBytes ∧ s3.tree = some t0.records ∧ CommandKeeps s s3 ∧ s3.mem = s.mem := by
  have hclear := exec_histClear s
  have hcount (x : Byte) : (emptyHist.at x).toNat + s.srcBytes.count x ≤ 0xFFFFFFFF := by
    have hle := List.count_le_length (a := x) (l := s.srcBytes)
    have hlen := srcBytes_length_lt s
    rw [emptyHist_at]
    change 0 + _ ≤ _
    omega
  have hacc := exec_histAcc_of_fits (s := finish { s with hist := emptyHist } 0 0 0) hr (firstOverflow_eq_none hcount)
  have hhist : addCounts emptyHist s.srcBytes = histOf s.srcBytes := addCounts_emptyHist _
  have hstore := exec_build_of_some (s := finish { finish { s with hist := emptyHist } 0 0 0 with
    hist := addCounts emptyHist s.srcBytes } 0 s.slen.toNat (present (addCounts emptyHist s.srcBytes)).length)
    (hhist ▸ hbuild)
  exact ⟨_, _, _, hclear, hacc, rfl, hstore, rfl, hhist, rfl, by constructor <;> rfl, rfl⟩

/-- R322: OPTIMIZE, for O = 1, leaves the optimized tree. -/
theorem units_optimize {o : Bool} {s : State} {t0 t : HTree} (htree : s.tree = some t0.records)
    (hparse : parse t0.records = .ok t0) (hopt : optimizeIf o t0 s.hist = .ok t) :
    ∃ s', (if o then exec .optimize s = .next s' ∧ s'.errCode = 0 else s' = s) ∧
      s'.hist = s.hist ∧ s'.tree = some t.records ∧ CommandKeeps s s' ∧ s'.mem = s.mem := by
  cases o with
  | false =>
    cases hopt
    exact ⟨s, rfl, rfl, htree, by constructor <;> rfl, rfl⟩
  | true =>
    obtain ⟨n, hok⟩ := optimizeIf_true hopt
    exact ⟨_, ⟨exec_optimize_of_ok htree hparse hok, rfl⟩, rfl, rfl, by constructor <;> rfl, rfl⟩

/-- The state in which PACK runs, behind the image of `n` bytes that SERIALIZE has written: the four bytes of the
length at DST + n, DST and DCAP moved past them. -/
def State.behindImage (s : State) (n : Nat) : State :=
  { s with
    mem := s.mem.write (s.dst.toNat + n) (leBytes 4 s.slen)
    dst := BitVec.ofNat 32 (s.dst.toNat + n + 4)
    dcap := BitVec.ofNat 32 (s.dcap.toNat - (n + 4)) }

/-- R9: DMEM has at most 2^32 bytes. -/
theorem dmemSize_le {s : State} (hcfg : s.cfg.wellFormed = true) : s.dmemSize ≤ 2 ^ 32 := by
  have hrange : 8 ≤ s.cfg.dmemAw ∧ s.cfg.dmemAw ≤ 32 := of_decide_eq_true hcfg
  exact Nat.pow_le_pow_right (by decide) hrange.2

/-- R271: the packed bytes of an input that is not empty are not none. -/
theorem packbits_length_pos {data packed : List Byte} {tab : SymTable Bits} {pad : Nat} (hdata : 0 < data.length)
    (hpack : packbits data tab = .ok (packed, pad)) : 0 < packed.length := by
  obtain ⟨hcoded, rfl, -⟩ := packbits_eq_ok.1 hpack
  obtain ⟨x, hx⟩ := List.exists_mem_of_length_pos hdata
  have hbit : 0 < (data.flatMap fun b => tab.at b).length := by
    rw [List.length_flatMap]
    exact Nat.lt_of_lt_of_le (List.length_pos_iff.2 (hcoded x hx))
      (List.le_sum_of_mem (List.mem_map_of_mem hx))
  rw [bytesOfBits_length]
  have hfit := le_eight_mul_ceil8 (data.flatMap fun b => tab.at b).length
  omega

theorem behindImage_dst {s : State} {n : Nat} (h : s.dst.toNat + n + 4 < 2 ^ 32) :
    (s.behindImage n).dst.toNat = s.dst.toNat + n + 4 := by
  rw [State.behindImage, BitVec.toNat_ofNat, Nat.mod_eq_of_lt h]

theorem behindImage_dcap (s : State) (n : Nat) : (s.behindImage n).dcap.toNat = s.dcap.toNat - (n + 4) := by
  have hlt := s.dcap.isLt
  rw [State.behindImage, BitVec.toNat_ofNat, Nat.mod_eq_of_lt (by omega)]

/-- R153: a range that shares no byte with a source that is not empty lies beside it. -/
theorem beside_of_not_overlap {a n b m : Nat} (h : overlap a n b m = false) (hn : 0 < n) (hm : 0 < m) :
    b + m ≤ a ∨ a + n ≤ b := by
  rw [← Bool.not_eq_true, overlap_iff] at h
  omega

/-- R88: writes beside the source range leave the source bytes. -/
theorem srcBytes_of_write_beside {s : State} {a : Nat} {l : List Byte}
    (h : a + l.length ≤ s.src.toNat ∨ s.src.toNat + s.slen.toNat ≤ a) :
    State.srcBytes { s with mem := s.mem.write a l } = s.srcBytes :=
  memRead_congr fun i hi => dmem_write_out s (by
    change i < s.slen.toNat at hi
    change s.src.toNat + i < a ∨ a + l.length ≤ s.src.toNat + i
    omega)

/-- The state `p` in which PACK is due: the state `s` with the image of the records and the four length bytes at its
DST, and DST and DCAP moved past them. -/
structure ReadyToPack (s p : State) (recs : List NodeRec) : Prop where
  cfg : p.cfg = s.cfg
  src : p.src = s.src
  slen : p.slen = s.slen
  hist : p.hist = s.hist
  tree : p.tree = s.tree
  code : p.code = s.code
  draw : p.draw = s.draw
  mem : p.mem = s.mem.write s.dst.toNat (image recs ++ leBytes 4 s.slen)
  dst : p.dst.toNat = s.dst.toNat + (1 + 4 * recs.length) + 4
  dcap : p.dcap.toNat = s.dcap.toNat - (1 + 4 * recs.length + 4)

theorem header_length (recs : List NodeRec) (v : Word) :
    (image recs ++ leBytes 4 v).length = 1 + 4 * recs.length + 4 := by
  rw [List.length_append, image_length, leBytes_length]

/-- R322: SERIALIZE and the four length bytes. -/
theorem units_serialize {s : State} {recs : List NodeRec} (htree : s.tree = some recs) (hmax : recs.length ≤ 255)
    (hr : s.dst.toNat + (1 + 4 * recs.length) ≤ s.dmemSize) (hc : 1 + 4 * recs.length ≤ s.dcap.toNat)
    (hfits : s.dst.toNat + (1 + 4 * recs.length) + 4 < 2 ^ 32) :
    ∃ s', exec .serialize s = .next s' ∧ s'.errCode = 0 ∧ s'.res0.toNat = 1 + 4 * recs.length ∧
      ReadyToPack s (s'.behindImage (1 + 4 * recs.length)) recs := by
  refine ⟨_, exec_serialize_of_fits htree hmax hr hc, rfl, ?_, rfl, rfl, rfl, rfl, rfl, rfl, rfl, ?_, ?_, ?_⟩
  · rw [finish_res0, BitVec.toNat_ofNat, Nat.mod_eq_of_lt (by omega)]
  · rw [Memory.write_append, image_length]
    rfl
  · exact behindImage_dst hfits
  · exact behindImage_dcap _ _

section
variable {s p : State} {recs : List NodeRec} (h : ReadyToPack s p recs)
include h

theorem ReadyToPack.dmemSize : p.dmemSize = s.dmemSize := dmemSize_congr h.cfg

/-- R88, R322: the header lies beside the source, so PACK reads the same input. -/
theorem ReadyToPack.srcBytes (hbeside : s.dst.toNat + (1 + 4 * recs.length + 4) ≤ s.src.toNat ∨
    s.src.toNat + s.slen.toNat ≤ s.dst.toNat) : p.srcBytes = s.srcBytes := by
  have hread := srcBytes_of_write_beside (s := s) (a := s.dst.toNat) (l := image recs ++ leBytes 4 s.slen)
    (by rwa [header_length])
  rw [← hread, State.srcBytes.eq_1 p, h.src, h.slen]
  exact memRead_congr fun i _ => congrFun
    (dmem_congr (s := { s with mem := s.mem.write s.dst.toNat (image recs ++ leBytes 4 s.slen) }) h.mem h.draw) _

/-- R322: PACK behind the header completes the stream. -/
theorem units_pack {tab : SymTable Bits} {packed : List Byte} {pad : Nat} (hne : s.slen ≠ 0)
    (hr : s.src.toNat + s.slen.toNat ≤ s.dmemSize) (hcode : s.code = some tab)
    (hpack : packbits s.srcBytes tab = .ok (packed, pad))
    (hd : checkDst s (stream recs s.slen packed).length s.slen.toNat = .ok ()) :
    ∃ s', exec .pack p = .next s' ∧ s'.errCode = 0 ∧ s'.hist = s.hist ∧ s'.tree = s.tree ∧ s'.code = s.code ∧
      s'.mem = s.mem.write s.dst.toNat (stream recs s.slen packed) ∧ s'.draw = s.draw ∧
      s'.res0.toNat = packed.length ∧ s'.res2 = BitVec.ofNat 32 pad := by
  obtain ⟨hdr, hdc, hdo⟩ := checkDst_eq_ok.1 hd
  rw [stream_length] at hdr hdc hdo
  have hcap := s.dcap.isLt
  have hbeside := beside_of_not_overlap hdo (slen_pos hne) (by omega)
  have hsrc : p.srcBytes = s.srcBytes := h.srcBytes (by omega)
  have hdisjoint : overlap p.src.toNat p.slen.toNat p.dst.toNat packed.length = false := by
    rw [← Bool.not_eq_true, overlap_iff, h.src, h.slen, h.dst]
    omega
  have hchecked : checkDst p packed.length p.slen.toNat = .ok () := by
    refine checkDst_eq_ok.2 ⟨?_, ?_, hdisjoint⟩
    · rw [h.dst, h.dmemSize]
      omega
    · rw [h.dcap]
      omega
  have hexec := exec_pack_of_fits (h.code.trans hcode) (by rwa [h.src, h.slen, h.dmemSize]) (hsrc.symm ▸ hpack) rfl
    hchecked
  refine ⟨_, hexec, rfl, h.hist, h.tree, h.code, ?_, h.draw, ?_, rfl⟩
  · rw [finish_mem, storeDst_mem, h.mem, h.dst, stream, Memory.write_append _ _ (image recs ++ leBytes 4 s.slen),
      header_length, Nat.add_assoc s.dst.toNat]
  · rw [finish_res0, BitVec.toNat_ofNat, Nat.mod_eq_of_lt (by omega)]

end

/-- R322: what the destination's checks of COMPRESS say of the header alone, in a memory of at most 2^32 bytes. -/
theorem header_fits {s : State} {recs : List NodeRec} {packed : List Byte} {n : Nat} (hsize : s.dmemSize ≤ 2 ^ 32)
    (hpos : 0 < packed.length) (hd : checkDst s (stream recs s.slen packed).length n = .ok ()) :
    s.dst.toNat + (1 + 4 * recs.length) ≤ s.dmemSize ∧ 1 + 4 * recs.length ≤ s.dcap.toNat ∧
      s.dst.toNat + (1 + 4 * recs.length) + 4 < 2 ^ 32 := by
  obtain ⟨hdr, hdc, -⟩ := checkDst_eq_ok.1 hd
  rw [stream_length] at hdr hdc
  omega

/-- R155: the destination's checks depend on the parameters and the argument registers alone. -/
theorem CommandKeeps.checkDst {s t : State} (h : CommandKeeps s t) (m n : Nat) : checkDst t m n = checkDst s m n := by
  rw [Machine.checkDst, Machine.checkDst, State.inRange, State.inRange, dmemSize_congr h.cfg, h.dst, h.dcap, h.src]

theorem CommandKeeps.srcBytes {s t : State} (h : CommandKeeps s t) (hm : t.mem = s.mem) : t.srcBytes = s.srcBytes := by
  rw [State.srcBytes, State.srcBytes, h.src, h.slen]
  exact memRead_congr fun i _ => congrFun (dmem_congr hm h.draw) _

/-- Settles O39: R322. -/
theorem compressIsTheUnitSequence : Obligations.CompressIsTheUnitSequence := by
  unfold Obligations.CompressIsTheUnitSequence
  intro s t o hcfg hcompress herr
  rw [exec_compress] at hcompress
  obtain ⟨k, hk, ht⟩ := conclude_next_of_errCode hcompress herr
  obtain ⟨t0, tree, packed, pad, hr, hne, hbuild, hopt, -, hpack, hd, rfl⟩ := compressCmd_eq_ok hk
  obtain ⟨-, hmax, hparse⟩ := compress_records hbuild hopt
  obtain ⟨-, -, hparse0⟩ := build_records hbuild
  have hpos : 0 < packed.length := packbits_length_pos (srcBytes_length s ▸ slen_pos hne) hpack
  obtain ⟨hhr, hhc, hhfits⟩ := header_fits (dmemSize_le hcfg) hpos hd
  obtain ⟨s1, s2, s3, hclear, hacc, hacc0, hstore, hstore0, hhist3, htree3, hkeeps3, hmem3⟩ := units_build hr hbuild
  obtain ⟨s4, hstep4, hhist4, htree4, hkeeps4, hmem4⟩ := units_optimize (o := o) htree3 hparse0 (hhist3 ▸ hopt)
  obtain ⟨s5, hs5⟩ : ∃ s5, s5 = finish { s4 with code := some tree.codes } 0 0
    (codeCount tree.codes + maxCodeLen tree.codes * 2 ^ 16) := ⟨_, rfl⟩
  have hgen : exec .genCodes s4 = .next s5 := hs5 ▸ exec_genCodes_of_parse htree4 hparse
  obtain ⟨hkeeps5, -⟩ := exec_frame hgen
  have hkeeps : CommandKeeps s s5 := (hkeeps3.trans hkeeps4).trans hkeeps5
  have hmem5 : s5.mem = s.mem := by
    rw [hs5]
    exact hmem4.trans hmem3
  have hsize : s5.dmemSize = s.dmemSize := dmemSize_congr hkeeps.cfg
  obtain ⟨s6, hser, hser0, hres6, hready⟩ := units_serialize (s := s5) (recs := tree.records) (hs5 ▸ htree4) hmax
    (by rwa [hkeeps.dst, hsize]) (by rwa [hkeeps.dcap]) (by rwa [hkeeps.dst])
  obtain ⟨s7, hpk, hpk0, hhist7, htree7, hcode7, hmem7, hdraw7, hres7, hpad7⟩ := units_pack hready
    (tab := tree.codes) (packed := packed) (pad := pad) (hkeeps.slen ▸ hne)
    (by rwa [hkeeps.src, hkeeps.slen, hsize]) (hs5 ▸ rfl) (by rwa [hkeeps.srcBytes hmem5])
    (by rwa [hkeeps.checkDst, hkeeps.slen])
  obtain ⟨hkeeps6, -⟩ := exec_frame hser
  have hkeeps06 := hkeeps.trans hkeeps6
  have hhist : s5.hist = histOf s.srcBytes := by
    rw [hs5]
    exact hhist4.trans hhist3
  refine ⟨s1, s2, s3, s4, s5, s6, s7, 1 + 4 * tree.records.length, hclear, hacc, hacc0, hstore, hstore0, hstep4, hgen,
    hs5 ▸ rfl, hser, hser0, hres6.symm, ?_, hpk0, hhist7.trans hhist ▸ ht ▸ rfl, ?_, ?_, ?_, ?_, hpad7 ▸ ht ▸ rfl⟩
  · rw [← hkeeps06.dst, ← hkeeps06.dcap, ← hkeeps06.slen]
    exact hpk
  · rw [htree7, hs5, ht]
    exact htree4.symm
  · rw [hcode7, hs5, ht]
    rfl
  · rw [hmem5, hkeeps.dst, hkeeps.slen] at hmem7
    have hmem : t.mem = s7.mem := ht ▸ hmem7.symm
    have hdraw : t.draw = s7.draw := ht ▸ (hdraw7.trans hkeeps.draw).symm
    exact fun a => congrFun (dmem_congr hmem hdraw) a
  · have hfit := Nat.lt_of_le_of_lt (checkDst_eq_ok.1 hd).2.1 s.dcap.isLt
    rw [ht, finish_res0, BitVec.toNat_ofNat, hres7]
    refine (Nat.mod_eq_of_lt hfit).trans ?_
    rw [stream_length]
    omega

end Sys2Proof.Machine
end
